-- ==== Sys2Proof/Word.lean ====
section
/-! DEFINITION. The word types of the block and their plainest arithmetic (00_scope.md R10, 20_memory.md R46). -/

namespace Sys2Proof

/-- A sample, a command word, a response value or a register: 32 bits (R46). -/
abbrev Word := BitVec 32

/-- A count, a capacity or a slot index: 24 bits (R17, R67). -/
abbrev Count := BitVec 24

/-- A channel count: 12 bits (R30, R67). -/
abbrev Channels := BitVec 12

/-- `zext_32(v)` (R10). -/
def zext {w : Nat} (v : BitVec w) : Word := v.setWidth 32

/-- A natural number given as a 32-bit response value. -/
def Word.ofCount (n : Nat) : Word := BitVec.ofNat 32 n

/-- The silence word (43_bridge_stream.md R122, 92 D15). -/
def Word.silence : Word := 0#32

end Sys2Proof
end

