-- ==== Sys2Proof/Syntax.lean ====
section
/-! DEFINITION. The commands of the block: one constructor of `Instr` per row of the opcode map
(30_encoding.md R68), the ports, and the data phases (R66). -/

namespace Sys2Proof

/-- The kinds of port (00_scope.md R3). -/
inductive PortKind where
  | cfg | prd | con | ctl | aud | wrk
  deriving DecidableEq, Repr

/-- A port of the block; `x` numbers a standalone JMFIFO instance. -/
inductive Port where
  | cfg (x : Nat)
  | prd (x : Nat)
  | con (x : Nat)
  | ctl
  | aud
  | wrk
  deriving DecidableEq, Repr

/-- The kind of a port. -/
def Port.kind : Port → PortKind
  | .cfg _ => .cfg
  | .prd _ => .prd
  | .con _ => .con
  | .ctl => .ctl
  | .aud => .aud
  | .wrk => .wrk

/-- The standalone instance a port belongs to; none for a port of the bridge. -/
def Port.unitNo : Port → Option Nat
  | .cfg x => some x
  | .prd x => some x
  | .con x => some x
  | .ctl => none
  | .aud => none
  | .wrk => none

/-- A data phase (R66): a list of words in stream order (the empty list where a command moves none), or one buffer per
channel, in channel order. -/
inductive DataPhase where
  | words (ws : List Word)
  | planar (buffers : List (List Word))
  deriving DecidableEq, Repr

/-- The words of a stream data phase. -/
def DataPhase.wordList : DataPhase → List Word
  | .words ws => ws
  | .planar _ => []

/-- The channel buffers of a planar data phase. -/
def DataPhase.bufferList : DataPhase → List (List Word)
  | .planar bs => bs
  | .words _ => []

/-- The commands (R68), with their operand fields (R67, R69). Format N has one 24-bit field, M two mode bits, CH two
12-bit counts, R an 8-bit register number, Z none. -/
inductive Instr where
  | fifoInit (n : Count)
  | fifoSetMode (m0 m1 : Bool)
  | fifoSetNap (n : Count)
  | fifoGetReg (reg : BitVec 8)
  | fifoIsLockFree
  | fifoPush (n : Count)
  | fifoAvailWr
  | fifoAvailRd
  | fifoPop (n : Count)
  | brConfigure (a b : Channels)
  | brInitialize
  | brShutdown
  | brSetMode (m0 m1 : Bool)
  | brSetNap (n : Count)
  | brGetReg (reg : BitVec 8)
  | brReadFrames (n : Count)
  | brWriteFrames (n : Count)
  | brAudioReady (n : Count)
  | brHostShutdown
  deriving DecidableEq, Repr

end Sys2Proof
end

