-- ==== Sys2Proof/Decode.lean ====
section
/-! DEFINITION. Decoding a command word on a port (30_encoding.md R70), the ports of each command and the length of its
data phase (R66, R68), and the encoder (R64, R67). -/

namespace Sys2Proof

/-- Why a command word is ILLEGAL (R70); each is answered ERR(E_ILLEGAL). -/
inductive DecodeError where
  /-- The opcode is in no row of R68. -/
  | reservedOpcode
  /-- The row does not list the port. -/
  | portNotListed
  /-- A reserved operand bit is 1. -/
  | reservedBit
  deriving DecidableEq, Repr

/-! ## Ports and data phases of the commands -/

/-- The ports that accept a command (R68). -/
def Instr.ports : Instr → List PortKind
  | .fifoInit _ => [.cfg]
  | .fifoSetMode _ _ => [.cfg]
  | .fifoSetNap _ => [.cfg]
  | .fifoGetReg _ => [.cfg]
  | .fifoIsLockFree => [.cfg, .prd, .con]
  | .fifoPush _ => [.prd]
  | .fifoAvailWr => [.prd, .con]
  | .fifoAvailRd => [.prd, .con]
  | .fifoPop _ => [.con]
  | .brConfigure _ _ => [.ctl]
  | .brInitialize => [.ctl]
  | .brShutdown => [.ctl]
  | .brSetMode _ _ => [.ctl]
  | .brSetNap _ => [.ctl]
  | .brGetReg _ => [.ctl, .wrk]
  | .brReadFrames _ => [.wrk]
  | .brWriteFrames _ => [.wrk]
  | .brAudioReady _ => [.aud]
  | .brHostShutdown => [.aud]

/-- The command is accepted on ports of this kind (R68). -/
def Instr.acceptedOn (i : Instr) (p : PortKind) : Bool := i.ports.contains p

/-- A stream data phase of exactly `n` words (R66); with `n` = 0, no words at all. -/
def DataPhase.isWords (n : Nat) : DataPhase → Bool
  | .words ws => ws.length == n
  | .planar _ => false

/-- A planar data phase of exactly `chans` buffers of exactly `frames` words (R66). -/
def DataPhase.isPlanar (chans frames : Nat) : DataPhase → Bool
  | .planar bs => bs.length == chans && bs.all (fun b => b.length == frames)
  | .words _ => false

/-- The data phase into the block has the length R66 gives the command (no words where R66 lists none), with B.NIN = `nin` and B.NOUT = `nout`. -/
def Instr.dataFits (i : Instr) (nin nout : Channels) (d : DataPhase) : Bool :=
  match i with
  | .fifoPush n => d.isWords n.toNat
  | .brWriteFrames n => d.isWords (n.toNat * nout.toNat)
  | .brAudioReady n => d.isPlanar nin.toNat n.toNat
  | .fifoInit _ => d.isWords 0
  | .fifoSetMode _ _ => d.isWords 0
  | .fifoSetNap _ => d.isWords 0
  | .fifoGetReg _ => d.isWords 0
  | .fifoIsLockFree => d.isWords 0
  | .fifoAvailWr => d.isWords 0
  | .fifoAvailRd => d.isWords 0
  | .fifoPop _ => d.isWords 0
  | .brConfigure _ _ => d.isWords 0
  | .brInitialize => d.isWords 0
  | .brShutdown => d.isWords 0
  | .brSetMode _ _ => d.isWords 0
  | .brSetNap _ => d.isWords 0
  | .brGetReg _ => d.isWords 0
  | .brReadFrames _ => d.isWords 0
  | .brHostShutdown => d.isWords 0

/-! ## The opcode map and decoding -/

/-- OPC, bits [31:24] (R64). -/
def fieldOpc (w : Word) : BitVec 8 := w.extractLsb' 24 8
/-- N, bits [23:0] (R69). -/
def fieldN (w : Word) : Count := w.extractLsb' 0 24
/-- M0, bit 0 (R69). -/
def fieldM0 (w : Word) : Bool := w.getLsbD 0
/-- M1, bit 1 (R69). -/
def fieldM1 (w : Word) : Bool := w.getLsbD 1
/-- A, bits [23:12] (R69). -/
def fieldA (w : Word) : Channels := w.extractLsb' 12 12
/-- B, bits [11:0] (R69). -/
def fieldB (w : Word) : Channels := w.extractLsb' 0 12
/-- REG, bits [7:0] (R69). -/
def fieldReg (w : Word) : BitVec 8 := w.extractLsb' 0 8

/-- The operand formats (R67). -/
inductive Format where
  | N | M | Z | CH | R
  deriving DecidableEq, Repr

/-- `row.mask` of R70. -/
def Format.mask : Format → Word
  | .N => 0xFF000000#32
  | .CH => 0xFF000000#32
  | .M => 0xFFFFFFFC#32
  | .Z => 0xFFFFFFFF#32
  | .R => 0xFFFFFF00#32

/-- A row of the opcode map (R68); `Instr.ports` gives its ports. -/
structure OpRow where
  opc : BitVec 8
  format : Format
  build : Word → Instr

/-- `row.match` of R70: opc × 2^24. -/
def OpRow.pattern (r : OpRow) : Word := r.opc ++ 0#24

/-- The rows of R68 for a standalone instance. -/
def fifoRows : List OpRow :=
  [ ⟨0x01, .N, fun w => .fifoInit (fieldN w)⟩,
    ⟨0x02, .M, fun w => .fifoSetMode (fieldM0 w) (fieldM1 w)⟩,
    ⟨0x03, .N, fun w => .fifoSetNap (fieldN w)⟩,
    ⟨0x04, .R, fun w => .fifoGetReg (fieldReg w)⟩,
    ⟨0x05, .Z, fun _ => .fifoIsLockFree⟩,
    ⟨0x08, .N, fun w => .fifoPush (fieldN w)⟩,
    ⟨0x09, .Z, fun _ => .fifoAvailWr⟩,
    ⟨0x0A, .Z, fun _ => .fifoAvailRd⟩,
    ⟨0x0C, .N, fun w => .fifoPop (fieldN w)⟩ ]

/-- The rows of R68 for the bridge. -/
def bridgeRows : List OpRow :=
  [ ⟨0x20, .CH, fun w => .brConfigure (fieldA w) (fieldB w)⟩,
    ⟨0x21, .Z, fun _ => .brInitialize⟩,
    ⟨0x22, .Z, fun _ => .brShutdown⟩,
    ⟨0x23, .M, fun w => .brSetMode (fieldM0 w) (fieldM1 w)⟩,
    ⟨0x24, .N, fun w => .brSetNap (fieldN w)⟩,
    ⟨0x25, .R, fun w => .brGetReg (fieldReg w)⟩,
    ⟨0x28, .N, fun w => .brReadFrames (fieldN w)⟩,
    ⟨0x29, .N, fun w => .brWriteFrames (fieldN w)⟩,
    ⟨0x30, .N, fun w => .brAudioReady (fieldN w)⟩,
    ⟨0x31, .Z, fun _ => .brHostShutdown⟩ ]

/-- The opcode map (R68). -/
def opRows : List OpRow := fifoRows ++ bridgeRows

/-- The row of an opcode (R70). -/
def rowOf (o : BitVec 8) : Option OpRow := opRows.find? (fun r => r.opc == o)

/-- `decode(p, w)` (R70): total, an ILLEGAL word rejected by the reason's name. -/
def decode (p : PortKind) (w : Word) : Except DecodeError Instr :=
  match rowOf (fieldOpc w) with
  | none => .error .reservedOpcode
  | some r =>
    if (r.build w).acceptedOn p then
      if w &&& r.format.mask = r.pattern then .ok (r.build w) else .error .reservedBit
    else .error .portNotListed

/-- The first port kind that R68 lists for a word's opcode; CFG where it lists none. -/
def homePort (w : Word) : PortKind :=
  match rowOf (fieldOpc w) with
  | some r => (r.build w).ports.headD .cfg
  | none => .cfg

/-- The instruction of a word of the opcode table, issued on the first port of its row. The command is one 32-bit word
(R64), so a table word of more bits is none. -/
def decodeTableWord (nbits w : Nat) : Option Instr :=
  if nbits ≤ 32 then
    match decode (homePort (BitVec.ofNat 32 (w % 2 ^ nbits))) (BitVec.ofNat 32 (w % 2 ^ nbits)) with
    | .ok i => some i
    | .error _ => none
  else none

/-! ## The encoder -/

/-- Format N (R67). -/
def encN (opc : BitVec 8) (n : Count) : Word := opc ++ n
/-- Format M (R67). -/
def encM (opc : BitVec 8) (m0 m1 : Bool) : Word := opc ++ (0#22 ++ (BitVec.ofBool m1 ++ BitVec.ofBool m0))
/-- Format Z (R67). -/
def encZ (opc : BitVec 8) : Word := opc ++ 0#24
/-- Format CH (R67). -/
def encCH (opc : BitVec 8) (a b : Channels) : Word := opc ++ (a ++ b)
/-- Format R (R67). -/
def encR (opc : BitVec 8) (reg : BitVec 8) : Word := opc ++ (0#16 ++ reg)

/-- The command word of a command (R64, R67, R68). -/
def encode : Instr → Word
  | .fifoInit n => encN 0x01 n
  | .fifoSetMode m0 m1 => encM 0x02 m0 m1
  | .fifoSetNap n => encN 0x03 n
  | .fifoGetReg r => encR 0x04 r
  | .fifoIsLockFree => encZ 0x05
  | .fifoPush n => encN 0x08 n
  | .fifoAvailWr => encZ 0x09
  | .fifoAvailRd => encZ 0x0A
  | .fifoPop n => encN 0x0C n
  | .brConfigure a b => encCH 0x20 a b
  | .brInitialize => encZ 0x21
  | .brShutdown => encZ 0x22
  | .brSetMode m0 m1 => encM 0x23 m0 m1
  | .brSetNap n => encN 0x24 n
  | .brGetReg r => encR 0x25 r
  | .brReadFrames n => encN 0x28 n
  | .brWriteFrames n => encN 0x29 n
  | .brAudioReady n => encN 0x30 n
  | .brHostShutdown => encZ 0x31

end Sys2Proof
end

