-- ==== Sys2Proof/Config.lean ====
section
/-! DEFINITION. What an implementation of the block fixes (00_scope.md R8, 92 D38) and the values the spec leaves
unspecified (92 D9). The `opaque` constants have no body: no proof can see their values. -/

namespace Sys2Proof

/-- The parameters of R8, at the widths their registers have (R24, R34). -/
structure Params where
  /-- DEPTH_MAX: storage words of one JMFIFO instance. -/
  depthMax : Count
  /-- MAX_CH: the largest channel count per direction. -/
  maxCh : Channels
  /-- FRAME_CAP: frames held by IN and by OUT. -/
  frameCap : Count
  /-- PERIOD_MAX: the largest callback period the scratch buffer holds. -/
  periodMax : Count
  /-- NAP_RESET: the reset value of the poll intervals, microseconds. -/
  napReset : Count
  /-- Standalone JMFIFO instances beyond the first. DESIGN CHOICE (log 1): the spec gives no number. -/
  extraFifos : Nat
  deriving DecidableEq, Repr, Inhabited

/-- The legal ranges of R8. The upper bounds 2^24 − 1 and 4095 are the widths of the fields. -/
abbrev Params.Legal (p : Params) : Prop :=
  1 ≤ p.depthMax.toNat ∧ 1 ≤ p.maxCh.toNat ∧ 1 ≤ p.frameCap.toNat ∧
    p.frameCap.toNat * p.maxCh.toNat ≤ p.depthMax.toNat ∧ 1 ≤ p.periodMax.toNat

/-- Words of the scratch buffer: PERIOD_MAX × MAX_CH (R33). -/
def Params.scratchSize (p : Params) : Nat := p.periodMax.toNat * p.maxCh.toNat

/-- The smallest legal parameters; used only where `Config.anyParams` is not legal. -/
def Params.least : Params :=
  { depthMax := 1, maxCh := 1, frameCap := 1, periodMax := 1, napReset := 0, extraFifos := 0 }

/-- Any parameters at all (92 D38 OPEN; log 2). -/
opaque Config.anyParams : Params

/-- The parameters of the machine that `State.reset` starts: any legal ones (R8, log 2). -/
def Config.params : Params := if Config.anyParams.Legal then Config.anyParams else Params.least

/-- LOCKFREE, decided (R8, R85, 92 D24). -/
def Config.lockFree : Word := 1#32

/-- What a storage or scratch word that nothing has written since reset holds: unspecified (R158, 92 D9, log 5). The
arguments are the number of resets so far, the number of the memory, and the slot. -/
opaque Config.unwritten (epoch part slot : Nat) : Word

end Sys2Proof
end

