-- ==== Sys2Proof/Machine/State.lean ====
section
/-! DEFINITION. The state of the block: every field of 10_state.md R16, R17 and R30, the parameters of R8, and the
block's inputs and outputs (the turns to come, the request being accepted, the responses given); and its reset values
(R157). -/

namespace Sys2Proof.Machine

/-! ## One JMFIFO instance (R17) -/

/-- An index pair: the lap bit and the slot index (R17). -/
structure Idx where
  lap : Bool
  idx : Count
  deriving DecidableEq, Repr

/-- The pair (0, 0). -/
def Idx.zero : Idx := ⟨false, 0⟩

/-- A word-indexed memory (R41): the slots written since reset, in rising order, each once. A slot not listed holds
`Config.unwritten epoch part slot` (R158, log 5). -/
structure Memory where
  epoch : Nat
  part : Nat
  cells : List (Nat × Word)
  deriving DecidableEq, Repr

/-- A memory nothing has written since reset. -/
def Memory.blank (epoch part : Nat) : Memory := { epoch := epoch, part := part, cells := [] }

/-- The fields of R17 that every instance has. PUSH_BLOCK, POP_BLOCK and NAP are fields of a standalone instance alone
(R32). -/
structure Fifo where
  constructed : Bool
  cap : Count
  store : Memory
  head : Idx
  tail : Idx
  hview : Idx
  tview : Idx
  qh : List Idx
  qt : List Idx
  deriving DecidableEq, Repr

/-- An instance after reset (R17). -/
def Fifo.reset (epoch part : Nat) : Fifo :=
  { constructed := false, cap := 0, store := Memory.blank epoch part, head := .zero, tail := .zero, hview := .zero,
    tview := .zero, qh := [], qt := [] }

/-- The PRD port (R16). -/
inductive PrdPort where
  | idle
  | waitPush (n : Count) (d : List Word) (blk : Bool)
  deriving DecidableEq, Repr

/-- The CON port (R16). -/
inductive ConPort where
  | idle
  | waitPop (n : Count) (blk : Bool)
  deriving DecidableEq, Repr

/-- A standalone instance with its modes, its poll interval and its ports (R16, R17). The CFG port is always IDLE and
needs no field (log 15). -/
structure Standalone where
  fifo : Fifo
  pushBlock : Bool
  popBlock : Bool
  nap : Count
  prd : PrdPort
  con : ConPort
  deriving DecidableEq, Repr

/-- A standalone instance after reset (R16, R17). -/
def Standalone.reset (p : Params) (epoch part : Nat) : Standalone :=
  { fifo := Fifo.reset epoch part, pushBlock := false, popBlock := false, nap := p.napReset, prd := .idle,
    con := .idle }

/-! ## The bridge (R30) -/

/-- BSTATE (R30, R31). -/
inductive BState where
  | unconfigured
  | configured
  | running
  | shutdown
  deriving DecidableEq, Repr

/-- The AUD port (R16). -/
inductive AudPort where
  | idle
  | egress (frames : Count) (sin : Bool)
  deriving DecidableEq, Repr

/-- The WRK port (R16). -/
inductive WrkPort where
  | idle
  | waitRead (k : Count) (blk : Bool)
  | waitWrite (k : Count) (d : List Word) (blk : Bool)
  deriving DecidableEq, Repr

/-- The bridge: R30, the two instances IN and OUT, and its ports (R16). The CTL port is always IDLE and needs no field
(log 15). -/
structure Bridge where
  bstate : BState
  hostSd : Bool
  /-- B.FAULT. -/
  faultBit : Bool
  nin : Channels
  nout : Channels
  period : Count
  srate : Word
  ovfCnt : Word
  unfCnt : Word
  rdBlock : Bool
  wrBlock : Bool
  nap : Count
  scr : Memory
  inF : Fifo
  outF : Fifo
  aud : AudPort
  wrk : WrkPort
  deriving DecidableEq, Repr

/-- The bridge after reset (R16, R30). -/
def Bridge.reset (p : Params) (epoch : Nat) : Bridge :=
  { bstate := .unconfigured, hostSd := false, faultBit := false, nin := 0, nout := 0, period := 0, srate := 0,
    ovfCnt := 0, unfCnt := 0, rdBlock := true, wrBlock := true, nap := p.napReset, scr := Memory.blank epoch 2,
    inF := Fifo.reset epoch 0, outF := Fifo.reset epoch 1, aud := .idle, wrk := .idle }

/-! ## Inputs and outputs of the block -/

/-- The audio host's answers to BR_INITIALIZE (R9): HOST_PRESENT, HOST_PERIOD, HOST_RATE. -/
structure HostAnswer where
  present : Bool
  period : Nat
  rate : Word
  deriving DecidableEq, Repr

/-- A command as its port's agent issues it: the port, the command word, the data phase into the block (R64, R66), and
the host's answers at that moment (R9), which BR_INITIALIZE alone reads. -/
structure Request where
  port : Port
  word : Word
  data : DataPhase
  host : HostAnswer
  deriving DecidableEq, Repr

/-- Which JMFIFO instance: a standalone one, IN or OUT. -/
inductive FifoName where
  | unit (x : Nat)
  | input
  | output
  deriving DecidableEq, Repr

/-- A step of one agent (R54), with its draw where it has one. -/
inductive Event where
  /-- A port's agent issues a command. -/
  | issue (r : Request)
  /-- The block re-checks the command held on a port (R93, R126). -/
  | recheck (p : Port)
  /-- The egress phase of a callback (R122). -/
  | egress
  /-- SYNC_H of an instance with draw `j` (R49). -/
  | syncH (f : FifoName) (j : Nat)
  /-- SYNC_T of an instance with draw `j` (R50). -/
  | syncT (f : FifoName) (j : Nat)
  deriving DecidableEq, Repr

/-- What the environment brings to one step: the reset input RST (R156), and the agent whose turn it is, if any (R54). -/
structure Turn where
  rst : Bool
  ev : Option Event
  deriving DecidableEq, Repr

/-- The error codes (R136). -/
inductive ErrCode where
  | illegal
  | state
  | config
  | hostAbsent
  | hostPeriod
  | period
  | shutdown
  deriving DecidableEq, Repr

/-- A response: the ERR flag, the 32-bit VALUE (R65) and the words out of the block (R66). -/
structure Response where
  err : Bool
  value : Word
  data : DataPhase
  deriving DecidableEq, Repr

/-- A response as given on a port. -/
structure Reply where
  port : Port
  response : Response
  deriving DecidableEq, Repr

/-! ## The whole state -/

/-- The state of the block. `params` is hardwired: no step changes it. `schedule`, `req`, `replies` and `epoch` are the
model's own fields: the turns to come, the request being accepted, every response given (newest first), and the number of
resets (logs 3, 5, 9). -/
structure State where
  params : Params
  fifos : List Standalone
  bridge : Bridge
  schedule : List Turn
  req : Request
  replies : List Reply
  epoch : Nat
  deriving DecidableEq, Repr

/-- `count` standalone instances after reset, whose memories are numbered from `part`. -/
def unitsFrom (p : Params) (epoch part : Nat) : Nat → List Standalone
  | 0 => []
  | count + 1 => Standalone.reset p epoch part :: unitsFrom p epoch (part + 1) count

/-- No host: what a request carries where no host answers. -/
def HostAnswer.absent : HostAnswer := { present := false, period := 0, rate := 0 }

/-- The value of the request latch after reset (DESIGN CHOICE, log 9). -/
def Request.idle : Request := { port := .cfg 0, word := 0, data := .words [], host := .absent }

/-- The block with parameters `p` after its reset number `epoch` (R156, R157): nothing issued, nothing answered. -/
def State.resetOf (p : Params) (epoch : Nat) : State :=
  { params := p, fifos := Standalone.reset p epoch 3 :: unitsFrom p epoch 4 p.extraFifos,
    bridge := Bridge.reset p epoch, schedule := [], req := .idle, replies := [], epoch := epoch }

/-- The machine right after reset (R157), with the parameters of `Config`. -/
def State.reset : State := State.resetOf Config.params 0

/-! ## Why a step can stop -/

/-- The block has no traps (R141, R142). These faults stop an access to a word of memory that does not exist (R41); no
reachable state raises one. -/
inductive Fault where
  /-- Raised by a push or a pop on an instance whose capacity is above DEPTH_MAX. Safe: the model stops. -/
  | slotOutsideStorage
  /-- Raised by a phase of BR_AUDIO_READY that needs more scratch words than PERIOD_MAX × MAX_CH. Safe: the model
  stops. -/
  | scratchOverrun
  deriving DecidableEq, Repr

/-- What the spec gives no meaning to. -/
inductive Refusal where
  /-- Raised by no arm: every command has its meaning. Safe: the model would stop. -/
  | notModelled (mnemonic : String)
  /-- Raised where a command's data phase has another length than R66 gives (R169, 93 U15). Safe: the model stops. -/
  | malformedData
  /-- Raised where a command is issued on a port that is not IDLE, which R15 forbids (93 U16). Safe: the model stops. -/
  | portBusy
  /-- Raised where a command is issued on a port of a standalone instance the block does not have. Safe: the model
  stops. -/
  | noSuchUnit
  deriving DecidableEq, Repr

end Sys2Proof.Machine
end

