-- ==== Sys2Proof/Machine/Flags.lean ====
section
/-! DEFINITION. Response words, error codes, status words and the derived occupancy state (10_state.md R21, R24, R34,
R35, 60_exceptions.md R136, 43_bridge_stream.md R122). The block has no condition codes (R35). -/

namespace Sys2Proof.Machine

/-- The code of an error, VALUE[7:0] (R136). -/
def ErrCode.code : ErrCode → BitVec 8
  | .illegal => 0x01
  | .state => 0x02
  | .config => 0x03
  | .hostAbsent => 0x04
  | .hostPeriod => 0x05
  | .period => 0x06
  | .shutdown => 0x07

/-- `respond OK(v)` with data out (R11, R65). -/
def Response.ok (v : Word) (d : DataPhase := .words []) : Response := { err := false, value := v, data := d }

/-- `respond ERR(code)` (R11, R65), with data out for the silent output of R121. -/
def Response.error (e : ErrCode) (d : DataPhase := .words []) : Response :=
  { err := true, value := zext e.code, data := d }

/-- The two bits of BSTATE (R30). -/
def BState.code : BState → BitVec 2
  | .unconfigured => 0
  | .configured => 1
  | .running => 2
  | .shutdown => 3

/-- JMFIFO register STATUS (R24, R84): POP_BLOCK, PUSH_BLOCK, CONSTRUCTED in bits 2, 1, 0. -/
def Standalone.statusWord (u : Standalone) : Word :=
  zext (BitVec.ofBool u.popBlock ++ (BitVec.ofBool u.pushBlock ++ BitVec.ofBool u.fifo.constructed))

/-- An index pair as HEADX and TAILX show it (R24): the lap bit at bit 24. -/
def Idx.word (p : Idx) : Word := zext (BitVec.ofBool p.lap ++ p.idx)

/-- Bridge register STATUS (R34, R110): FAULT, HOST_SD and BSTATE in bits 3, 2 and 1:0. -/
def Bridge.statusWord (b : Bridge) : Word :=
  zext (BitVec.ofBool b.faultBit ++ (BitVec.ofBool b.hostSd ++ b.bstate.code))

/-- Bridge register MODE (R34, R110): WR_BLOCK, RD_BLOCK in bits 1, 0. -/
def Bridge.modeWord (b : Bridge) : Word := zext (BitVec.ofBool b.wrBlock ++ BitVec.ofBool b.rdBlock)

/-- The value of a callback's response, sin + 2 × sout (R122). -/
def callbackFlags (sin sout : Bool) : Word := zext (BitVec.ofBool sout ++ BitVec.ofBool sin)

/-- The derived occupancy states (R21). -/
inductive OccState where
  | empty
  | partly
  | full
  deriving DecidableEq, Repr

/-- The occupancy state of `occ` samples in an instance of capacity `c` (R21). -/
def occState (occ c : Nat) : OccState :=
  if occ = 0 then .empty else if occ < c then .partly else .full

end Sys2Proof.Machine
end

