-- ==== Sys2Proof/Machine/Operands.lean ====
section
/-! DEFINITION. The operand forms that move samples: memories of words, the ring copy with its split at the end of
storage (20_memory.md R45, R91, R92), the scratch copy, and the two reshapes of the frame format adapter
(43_bridge_stream.md R121, R122, R128). -/

namespace Sys2Proof.Machine

/-! ## Words of a memory (R11, R41) -/

/-- The word listed for slot `i`. -/
def findCell : List (Nat × Word) → Nat → Option Word
  | [], _ => none
  | (j, v) :: rest, i => if i = j then some v else findCell rest i

/-- List the word `v` for slot `i`, in rising order. -/
def putCell : List (Nat × Word) → Nat → Word → List (Nat × Word)
  | [], i, v => [(i, v)]
  | (j, u) :: rest, i, v =>
    if i < j then (i, v) :: (j, u) :: rest
    else if i = j then (i, v) :: rest
    else (j, u) :: putCell rest i v

/-- The canonical form: slots strictly rising. -/
abbrev Memory.wf (m : Memory) : Prop := m.cells.Pairwise (fun a b => a.1 < b.1)

/-- `MemRead`, `ScrRead` (R11). A slot that nothing has written holds an unspecified word (R158, log 5). -/
def Memory.read (m : Memory) (i : Nat) : Word := (findCell m.cells i).getD (Config.unwritten m.epoch m.part i)

/-- `MemWrite`, `ScrWrite` (R11). -/
def Memory.write (m : Memory) (i : Nat) (v : Word) : Memory := { m with cells := putCell m.cells i v }

/-- The slot has been written since reset. -/
def Memory.written (m : Memory) (i : Nat) : Bool := (findCell m.cells i).isSome

/-! ## Runs of words -/

/-- Write words to slots b, b + 1, …, each modulo `c`: up to slot c − 1, then from slot 0 (R45, R91). -/
def Memory.writeRing (m : Memory) (c b : Nat) : List Word → Memory
  | [] => m
  | w :: ws => (m.write (b % c) w).writeRing c (b + 1) ws

/-- Read `k` words from slots b, b + 1, …, each modulo `c` (R45, R92). -/
def Memory.readRing (m : Memory) (c b : Nat) : Nat → List Word
  | 0 => []
  | k + 1 => m.read (b % c) :: m.readRing c (b + 1) k

/-- Write words to positions j, j + 1, … of the scratch buffer. -/
def Memory.writeRun (m : Memory) (j : Nat) : List Word → Memory
  | [] => m
  | w :: ws => (m.write j w).writeRun (j + 1) ws

/-- Read `k` words from positions j, j + 1, … of the scratch buffer. -/
def Memory.readRun (m : Memory) (j : Nat) : Nat → List Word
  | 0 => []
  | k + 1 => m.read j :: m.readRun (j + 1) k

/-! ## The reshapes of the frame format adapter -/

/-- Word `frame` of channel `chan` of planar buffers. A well-formed data phase has it (R66). -/
def sampleAt (buffers : List (List Word)) (chan frame : Nat) : Word := (buffers.getD chan []).getD frame Word.silence

/-- Frame `f` of planar buffers: channels 0 .. chans − 1 in order (R121). -/
def frameWords (buffers : List (List Word)) (chans f : Nat) : List Word :=
  (List.range chans).map (fun c => sampleAt buffers c f)

/-- Ingest: planar buffers to the frame-major stream, index f × chans + c (R12, R121). -/
def interleave (buffers : List (List Word)) (chans frames : Nat) : List Word :=
  (List.range frames).flatMap (fun f => frameWords buffers chans f)

/-- Egress: planar buffers out of the scratch buffer, out[c][f] = ScrRead(f × chans + c) (R122). -/
def planarOut (scr : Memory) (chans frames : Nat) : List (List Word) :=
  (List.range chans).map (fun c => (List.range frames).map (fun f => scr.read (f * chans + c)))

/-- `chans` buffers of `frames` silence words (R121). -/
def silentBuffers (chans frames : Nat) : List (List Word) :=
  List.replicate chans (List.replicate frames Word.silence)

end Sys2Proof.Machine
end

