-- ==== Sys2Proof/Machine/Ops.lean ====
section
/-! DEFINITION. The shared operations: index arithmetic (10_state.md R18, R19), the transfer primitives
(41_fifo_transfer.md R91, R92), the synchroniser steps (20_memory.md R49, R50), construction, responses and errors
(60_exceptions.md R136, R137), the acceptance of a command, and reset (70_reset_and_hazards.md R156). -/

namespace Sys2Proof.Machine

/-- What a meaning answers. -/
abbrev Result := Host.Outcome State Fault Refusal

/-! ## Index arithmetic -/

/-- `ext(p) = lap × C + idx` (R18). -/
def Idx.ext (p : Idx) (c : Nat) : Nat := p.lap.toNat * c + p.idx.toNat

/-- `adv(p, k, C)` (R18). -/
def Idx.adv (p : Idx) (k c : Nat) : Idx :=
  if p.idx.toNat + k ≥ c then ⟨!p.lap, BitVec.ofNat 24 (p.idx.toNat + k - c)⟩
  else ⟨p.lap, BitVec.ofNat 24 (p.idx.toNat + k)⟩

/-- `occ(t, h, C) = (ext(t) − ext(h)) mod 2C` (R19). -/
def occ (t h : Idx) (c : Nat) : Nat := (((t.ext c : Int) - (h.ext c : Int)) % (2 * (c : Int))).toNat

/-! ## What an instance holds, as each side sees it -/

/-- The actual occupancy (R19, R20). -/
def Fifo.level (x : Fifo) : Nat := occ x.tail x.head x.cap.toNat

/-- Occupancy as the producer side sees it (R97 on PRD). -/
def Fifo.prdLevel (x : Fifo) : Nat := occ x.tail x.hview x.cap.toNat

/-- Occupancy as the consumer side sees it: `avail` of R92 (R97 on CON). -/
def Fifo.conLevel (x : Fifo) : Nat := occ x.tview x.head x.cap.toNat

/-- Free space as the producer side sees it: `free` of R91 (R96 on PRD). -/
def Fifo.prdFree (x : Fifo) : Nat := x.cap.toNat - x.prdLevel

/-- Free space as the consumer side sees it (R96 on CON). -/
def Fifo.conFree (x : Fifo) : Nat := x.cap.toNat - x.conLevel

/-! ## The transfer primitives -/

/-- The transfer of `k` samples of a push: the storage writes, then the new TAIL, then its publication (R48, R91).
Nothing for k = 0. -/
def Fifo.pushMove (x : Fifo) (d : List Word) (k : Nat) : Fifo :=
  if k = 0 then x
  else
    { x with
      store := x.store.writeRing x.cap.toNat x.tail.idx.toNat (d.take k)
      tail := x.tail.adv k x.cap.toNat
      qt := x.qt ++ [x.tail.adv k x.cap.toNat] }

/-- The transfer of `k` samples of a pop: the new HEAD and its publication (R48, R92). Nothing for k = 0. -/
def Fifo.popMove (x : Fifo) (k : Nat) : Fifo :=
  if k = 0 then x
  else
    { x with
      head := x.head.adv k x.cap.toNat
      qh := x.qh ++ [x.head.adv k x.cap.toNat] }

/-- The `k` words from HEAD onward (R92). -/
def Fifo.peek (x : Fifo) (k : Nat) : List Word := x.store.readRing x.cap.toNat x.head.idx.toNat k

/-- `push_core(X, d, n, blk)` (R91): none is HOLD; otherwise the count and the instance after. -/
def Fifo.pushCore (x : Fifo) (d : List Word) (n : Nat) (blk : Bool) : Option (Nat × Fifo) :=
  if n = 0 then some (0, x)
  else if blk = true ∧ n > x.cap.toNat then some (0, x)
  else if blk = true ∧ x.prdFree < n then none
  else if blk = true then some (n, x.pushMove d n)
  else some (min n x.prdFree, x.pushMove d (min n x.prdFree))

/-- `pop_core(X, n, blk)` (R92): none is HOLD; otherwise the count, the words popped and the instance after. -/
def Fifo.popCore (x : Fifo) (n : Nat) (blk : Bool) : Option (Nat × List Word × Fifo) :=
  if n = 0 then some (0, [], x)
  else if blk = true ∧ n > x.cap.toNat then some (0, [], x)
  else if blk = true ∧ x.conLevel < n then none
  else if blk = true then some (n, x.peek n, x.popMove n)
  else some (min n x.conLevel, x.peek (min n x.conLevel), x.popMove (min n x.conLevel))

/-! ## Synchronisers and construction -/

/-- SYNC_H with draw `j` (R49). The step is enabled for 1 ≤ j ≤ len(QH); otherwise nothing happens (log 4). -/
def Fifo.syncH (x : Fifo) (j : Nat) : Fifo :=
  if j = 0 then x
  else
    match x.qh[j - 1]? with
    | some v => { x with hview := v, qh := x.qh.drop j }
    | none => x

/-- SYNC_T with draw `j` (R50). The step is enabled for 1 ≤ j ≤ len(QT); otherwise nothing happens (log 4). -/
def Fifo.syncT (x : Fifo) (j : Nat) : Fifo :=
  if j = 0 then x
  else
    match x.qt[j - 1]? with
    | some v => { x with tview := v, qt := x.qt.drop j }
    | none => x

/-- Construction with capacity `c` (R81, R107): the indices, views and channels start afresh; storage is not cleared. -/
def Fifo.construct (x : Fifo) (c : Count) : Fifo :=
  { x with
    cap := c, head := .zero, tail := .zero, hview := .zero, tview := .zero, qh := [], qt := [], constructed := true }

/-! ## Updates of the whole state -/

/-- Replace standalone instance `x`. -/
def State.setUnit (s : State) (x : Nat) (u : Standalone) : State := { s with fifos := s.fifos.set x u }

/-- Replace the bridge. -/
def State.setBridge (s : State) (b : Bridge) : State := { s with bridge := b }

/-- The turns to come. -/
def State.setSchedule (s : State) (ts : List Turn) : State := { s with schedule := ts }

/-- Latch the request being accepted. -/
def State.latch (s : State) (r : Request) : State := { s with req := r }

/-- Give a response on port `p` (R65). -/
def State.answer (s : State) (p : Port) (r : Response) : State := { s with replies := ⟨p, r⟩ :: s.replies }

/-- Answer the request being accepted. -/
def State.respond (s : State) (r : Response) : State := s.answer s.req.port r

/-- ERR(e) to the request being accepted: the response and nothing else (R137). Every error of R136 is given by this
operation, by `State.respond` with the silent output of R121, or on the release of R126. -/
def State.fail (s : State) (e : ErrCode) : State := s.respond (.error e)

/-- One step on an instance, by name. An instance the block does not have takes no step. -/
def State.mapFifo (s : State) (f : FifoName) (g : Fifo → Fifo) : State :=
  match f with
  | .unit x =>
    match s.fifos[x]? with
    | some u => s.setUnit x { u with fifo := g u.fifo }
    | none => s
  | .input => s.setBridge { s.bridge with inF := g s.bridge.inF }
  | .output => s.setBridge { s.bridge with outF := g s.bridge.outF }

/-- The reset step (R156): every field at its reset value, no response to any held command. The turns to come are `ts`;
the responses already given stay given (log 9), and the unspecified contents are drawn afresh (log 5). -/
def State.resetBlock (s : State) (ts : List Turn) : State :=
  { State.resetOf s.params (s.epoch + 1) with schedule := ts, replies := s.replies }

/-! ## Taking up a command -/

/-- Take up the latched request as command `i`: on a port R68 does not list, ERR(E_ILLEGAL) (R70); with a data phase of
another length than R66 gives, refused (R169); otherwise `run`. -/
def accepting (i : Instr) (s : State) (run : Result) : Result :=
  if i.acceptedOn s.req.port.kind then
    if i.dataFits s.bridge.nin s.bridge.nout s.req.data then run else .refused .malformedData
  else .next (s.fail .illegal)

/-- Run a command on the standalone instance of the request's port. -/
def onUnit (s : State) (run : Nat → Standalone → Result) : Result :=
  match s.req.port.unitNo with
  | none => .next (s.fail .illegal)
  | some x =>
    match s.fifos[x]? with
    | none => .refused .noSuchUnit
    | some u => run x u

/-- A transfer on an instance: its slots 0 .. C − 1 exist only if C ≤ DEPTH_MAX (R41, R42; log 10). -/
def inStorage (s : State) (x : Fifo) (run : Result) : Result :=
  if x.cap.toNat ≤ s.params.depthMax.toNat then run else .fault .slotOutsideStorage

/-- A phase of a callback that uses `words` positions of the scratch buffer (R33; log 10). -/
def inScratch (s : State) (words : Nat) (run : Result) : Result :=
  if words ≤ s.params.scratchSize then run else .fault .scratchOverrun

end Sys2Proof.Machine
end

