-- ==== Sys2Proof/Machine/BridgeControl.lean ====
section
/-! DEFINITION. The commands that configure, start, stop and inspect the bridge (42_bridge_control.md). -/

namespace Sys2Proof.Machine

/-- A channel count BR_CONFIGURE refuses (R106): 0 or above MAX_CH. -/
abbrev badChannels (p : Params) (c : Channels) : Prop := c.toNat = 0 ∨ c.toNat > p.maxCh.toNat

/-- BR_CONFIGURE (R106). -/
def execBrConfigure (a b : Channels) (s : State) : Result :=
  accepting (.brConfigure a b) s <| .next <|
    if s.bridge.bstate ≠ .unconfigured ∧ s.bridge.bstate ≠ .configured then s.fail .state
    else if badChannels s.params a ∨ badChannels s.params b then s.fail .config
    else (s.setBridge { s.bridge with nin := a, nout := b, bstate := .configured }).respond (.ok 0)

/-- The capacity of IN or OUT for a channel count (R107): FRAME_CAP × n. -/
def ringCapacity (p : Params) (n : Channels) : Count := BitVec.ofNat 24 (p.frameCap.toNat * n.toNat)

/-- The bridge after a BR_INITIALIZE that succeeds (R107). -/
def Bridge.start (b : Bridge) (p : Params) (h : HostAnswer) : Bridge :=
  { b with
    period := BitVec.ofNat 24 h.period
    srate := h.rate
    inF := b.inF.construct (ringCapacity p b.nin)
    outF := b.outF.construct (ringCapacity p b.nout)
    bstate := .running }

/-- BR_INITIALIZE (R107); the host's answers come with the request (R9). -/
def execBrInitialize (s : State) : Result :=
  accepting .brInitialize s <| .next <|
    if s.bridge.bstate ≠ .configured then s.fail .state
    else if s.req.host.present = false then s.fail .hostAbsent
    else if s.req.host.period = 0 ∨ s.req.host.period > s.params.periodMax.toNat then s.fail .hostPeriod
    else (s.setBridge (s.bridge.start s.params s.req.host)).respond (.ok 0)

/-- BR_SHUTDOWN (R108). -/
def execBrShutdown (s : State) : Result :=
  accepting .brShutdown s <| .next <|
    (s.setBridge { s.bridge with bstate := .shutdown }).respond (.ok 0)

/-- BR_SETMODE (R109). -/
def execBrSetMode (m0 m1 : Bool) (s : State) : Result :=
  accepting (.brSetMode m0 m1) s <| .next <|
    (s.setBridge { s.bridge with rdBlock := m0, wrBlock := m1 }).respond (.ok 0)

/-- BR_SETNAP (R112). -/
def execBrSetNap (n : Count) (s : State) : Result :=
  accepting (.brSetNap n) s <| .next <| (s.setBridge { s.bridge with nap := n }).respond (.ok 0)

/-- INLEVEL and OUTLEVEL (R34, R110): the actual occupancy, 0 while unconstructed. -/
def levelWord (x : Fifo) : Word := if x.constructed = true then .ofCount x.level else 0

/-- The bridge register map (R34, R110); none for a reserved number. -/
def bridgeReg (p : Params) (b : Bridge) (reg : BitVec 8) : Option Word :=
  match reg.toNat with
  | 0 => some b.statusWord
  | 1 => some (zext b.nin)
  | 2 => some (zext b.nout)
  | 3 => some (zext b.period)
  | 4 => some b.srate
  | 5 => some b.ovfCnt
  | 6 => some b.unfCnt
  | 7 => some b.modeWord
  | 8 => some (zext b.nap)
  | 9 => some (zext p.frameCap)
  | 10 => some (zext p.maxCh)
  | 11 => some (zext p.periodMax)
  | 12 => some (levelWord b.inF)
  | 13 => some (levelWord b.outF)
  | _ => none

/-- BR_GETREG (R110). -/
def execBrGetReg (reg : BitVec 8) (s : State) : Result :=
  accepting (.brGetReg reg) s <| .next <|
    match bridgeReg s.params s.bridge reg with
    | some v => s.respond (.ok v)
    | none => s.fail .illegal

/-- BR_HOST_SHUTDOWN (R111). -/
def execBrHostShutdown (s : State) : Result :=
  accepting .brHostShutdown s <| .next <|
    match s.bridge.bstate with
    | .running => (s.setBridge { s.bridge with bstate := .shutdown, hostSd := true }).respond (.ok 0)
    | .shutdown => s.respond (.ok 0)
    | .unconfigured => s.fail .state
    | .configured => s.fail .state

end Sys2Proof.Machine
end

