-- ==== Sys2Proof/Machine/BridgeStream.lean ====
section
/-! DEFINITION. The commands that move samples through the bridge: the callback with its two phases, the worker's frame
transfers, and the completion or release of a held one (43_bridge_stream.md). -/

namespace Sys2Proof.Machine

/-! ## The callback -/

/-- The ingest phase (R121): planar buffers into the scratch buffer in frame-major order, one non-blocking push of the
scratch words to IN, the overrun count, and the AUD port in EGRESS. A non-blocking push never holds (R129). -/
def ingest (b : Bridge) (frames : Count) (buffers : List (List Word)) : Bridge :=
  let words := frames.toNat * b.nin.toNat
  let scr := b.scr.writeRun 0 (interleave buffers b.nin.toNat frames.toNat)
  match b.inF.pushCore (scr.readRun 0 words) words false with
  | none => b
  | some (k, f) =>
    { b with
      scr := scr
      inF := f
      ovfCnt := if k < words then b.ovfCnt + 1 else b.ovfCnt
      aud := .egress frames (k < words) }

/-- BR_AUDIO_READY, the accepting step (R121). -/
def execBrAudioReady (n : Count) (s : State) : Result :=
  accepting (.brAudioReady n) s <|
    if s.bridge.bstate ≠ .running then
      .next (s.respond (.error .state (.planar (silentBuffers s.bridge.nout.toNat n.toNat))))
    else if n.toNat > s.bridge.period.toNat then
      .next ((s.setBridge { s.bridge with faultBit := true }).respond
        (.error .period (.planar (silentBuffers s.bridge.nout.toNat n.toNat))))
    else
      inScratch s (n.toNat * s.bridge.nin.toNat) <| inStorage s s.bridge.inF <|
        .next (s.setBridge (ingest s.bridge n s.req.data.bufferList))

/-- The egress phase (R122): a non-blocking pop from OUT into the scratch buffer, silence for the missing tail, the
underrun count, the planar buffers out and the response of the callback. It runs in every BSTATE. -/
def egressOf (s : State) (frames : Count) (sin : Bool) : State :=
  let b := s.bridge
  let words := frames.toNat * b.nout.toNat
  match b.outF.popCore words false with
  | none => s
  | some (k, ws, f) =>
    let scr := (b.scr.writeRun 0 ws).writeRun k (List.replicate (words - k) Word.silence)
    (s.setBridge
        { b with
          scr := scr
          outF := f
          unfCnt := if k < words then b.unfCnt + 1 else b.unfCnt
          aud := .idle }).answer
      .aud (.ok (callbackFlags sin (k < words)) (.planar (planarOut scr b.nout.toNat frames.toNat)))

/-- The egress step, enabled exactly when the AUD port is in EGRESS (R122). -/
def egressStep (s : State) : Result :=
  match s.bridge.aud with
  | .idle => .next s
  | .egress frames sin =>
    inScratch s (frames.toNat * s.bridge.nout.toNat) <| inStorage s s.bridge.outF <| .next (egressOf s frames sin)

/-! ## The worker's frame transfers -/

/-- Run a read of `k` frames in mode `blk` on IN (R124): the response with its data, or the hold of R126. -/
def readStep (s : State) (k : Count) (blk : Bool) : State :=
  match s.bridge.inF.popCore (k.toNat * s.bridge.nin.toNat) blk with
  | none => s.setBridge { s.bridge with wrk := .waitRead k blk }
  | some (m, ws, f) =>
    (s.setBridge { s.bridge with inF := f, wrk := .idle }).answer
      .wrk (.ok (.ofCount (m / s.bridge.nin.toNat)) (.words ws))

/-- Run a write of `k` frames `d` in mode `blk` on OUT (R125): the response, or the hold of R126. -/
def writeStep (s : State) (k : Count) (d : List Word) (blk : Bool) : State :=
  match s.bridge.outF.pushCore d (k.toNat * s.bridge.nout.toNat) blk with
  | none => s.setBridge { s.bridge with wrk := .waitWrite k d blk }
  | some (m, f) =>
    (s.setBridge { s.bridge with outF := f, wrk := .idle }).answer .wrk (.ok (.ofCount (m / s.bridge.nout.toNat)))

/-- The checks of a worker transfer (R124, R125, R138): E_SHUTDOWN, then E_STATE. -/
def workerChecks (s : State) (run : Result) : Result :=
  if s.bridge.bstate = .shutdown then .next (s.fail .shutdown)
  else if s.bridge.bstate ≠ .running then .next (s.fail .state)
  else run

/-- BR_READ_FRAMES (R124): the mode is sampled here. -/
def execBrReadFrames (n : Count) (s : State) : Result :=
  accepting (.brReadFrames n) s <| workerChecks s <| inStorage s s.bridge.inF <|
    .next (readStep s n s.bridge.rdBlock)

/-- BR_WRITE_FRAMES (R125): the mode is sampled here. -/
def execBrWriteFrames (n : Count) (s : State) : Result :=
  accepting (.brWriteFrames n) s <| workerChecks s <| inStorage s s.bridge.outF <|
    .next (writeStep s n s.req.data.wordList s.bridge.wrBlock)

/-- Release a held worker command with ERR(E_SHUTDOWN); nothing moves (R126). -/
def releaseWorker (s : State) : State :=
  (s.setBridge { s.bridge with wrk := .idle }).answer .wrk (.error .shutdown)

/-- `WORKER_COMPLETE` (R126): the release in SHUTDOWN, else the completion, else the hold goes on. -/
def recheckWorker (s : State) : Result :=
  match s.bridge.wrk with
  | .idle => .next s
  | .waitRead k blk =>
    if s.bridge.bstate = .shutdown then .next (releaseWorker s)
    else inStorage s s.bridge.inF <| .next (readStep s k blk)
  | .waitWrite k d blk =>
    if s.bridge.bstate = .shutdown then .next (releaseWorker s)
    else inStorage s s.bridge.outF <| .next (writeStep s k d blk)

end Sys2Proof.Machine
end

