-- ==== Sys2Proof/Machine/FifoControl.lean ====
section
/-! DEFINITION. The commands that configure a standalone instance and read its registers (40_fifo_control.md). -/

namespace Sys2Proof.Machine

/-- FIFO_INIT (R81). -/
def execFifoInit (n : Count) (s : State) : Result :=
  accepting (.fifoInit n) s <| onUnit s fun x u => .next <|
    if u.fifo.constructed = true then s.fail .state
    else if n.toNat = 0 ∨ n.toNat > s.params.depthMax.toNat then s.fail .config
    else (s.setUnit x { u with fifo := u.fifo.construct n }).respond (.ok 0)

/-- FIFO_SETMODE (R82). -/
def execFifoSetMode (m0 m1 : Bool) (s : State) : Result :=
  accepting (.fifoSetMode m0 m1) s <| onUnit s fun x u => .next <|
    (s.setUnit x { u with pushBlock := m0, popBlock := m1 }).respond (.ok 0)

/-- FIFO_SETNAP (R83). -/
def execFifoSetNap (n : Count) (s : State) : Result :=
  accepting (.fifoSetNap n) s <| onUnit s fun x u => .next <|
    (s.setUnit x { u with nap := n }).respond (.ok 0)

/-- The JMFIFO register map (R24, R84); none for a reserved number. -/
def fifoReg (p : Params) (u : Standalone) (reg : BitVec 8) : Option Word :=
  match reg.toNat with
  | 0 => some u.statusWord
  | 1 => some (zext u.fifo.cap)
  | 2 => some (zext u.nap)
  | 3 => some (zext p.depthMax)
  | 4 => some u.fifo.head.word
  | 5 => some u.fifo.tail.word
  | _ => none

/-- FIFO_GETREG (R84). -/
def execFifoGetReg (reg : BitVec 8) (s : State) : Result :=
  accepting (.fifoGetReg reg) s <| onUnit s fun _ u => .next <|
    match fifoReg s.params u reg with
    | some v => s.respond (.ok v)
    | none => s.fail .illegal

/-- FIFO_ISLOCKFREE (R85). -/
def execFifoIsLockFree (s : State) : Result :=
  accepting .fifoIsLockFree s <| onUnit s fun _ _ => .next <| s.respond (.ok Config.lockFree)

end Sys2Proof.Machine
end

