-- ==== Sys2Proof/Machine/FifoTransfer.lean ====
section
/-! DEFINITION. The transfers and queries of a standalone instance, and the completion of a held transfer
(41_fifo_transfer.md). -/

namespace Sys2Proof.Machine

/-- Run a push of `n` words `d` in mode `blk` on instance `x`: the response, or the hold of R93. The acceptance of
FIFO_PUSH and each re-check of a held one run this with the same operands. -/
def pushStep (s : State) (x : Nat) (u : Standalone) (n : Count) (d : List Word) (blk : Bool) : State :=
  match u.fifo.pushCore d n.toNat blk with
  | none => s.setUnit x { u with prd := .waitPush n d blk }
  | some (k, f) => (s.setUnit x { u with fifo := f, prd := .idle }).answer (.prd x) (.ok (.ofCount k))

/-- Run a pop of `n` words in mode `blk` on instance `x`: the response with its data, or the hold of R93. -/
def popStep (s : State) (x : Nat) (u : Standalone) (n : Count) (blk : Bool) : State :=
  match u.fifo.popCore n.toNat blk with
  | none => s.setUnit x { u with con := .waitPop n blk }
  | some (k, out, f) =>
    (s.setUnit x { u with fifo := f, con := .idle }).answer (.con x) (.ok (.ofCount k) (.words out))

/-- FIFO_PUSH (R94): the mode is sampled here. -/
def execFifoPush (n : Count) (s : State) : Result :=
  accepting (.fifoPush n) s <| onUnit s fun x u =>
    if u.fifo.constructed = true then
      inStorage s u.fifo <| .next <| pushStep s x u n s.req.data.wordList u.pushBlock
    else .next (s.fail .state)

/-- FIFO_POP (R95): the mode is sampled here. -/
def execFifoPop (n : Count) (s : State) : Result :=
  accepting (.fifoPop n) s <| onUnit s fun x u =>
    if u.fifo.constructed = true then inStorage s u.fifo <| .next <| popStep s x u n u.popBlock
    else .next (s.fail .state)

/-- What FIFO_AVAIL_WR reports on a port (R96): from the consumer side's view on CON, else the producer side's. -/
def availWr (p : PortKind) (x : Fifo) : Nat := if p = .con then x.conFree else x.prdFree

/-- What FIFO_AVAIL_RD reports on a port (R97). -/
def availRd (p : PortKind) (x : Fifo) : Nat := if p = .con then x.conLevel else x.prdLevel

/-- FIFO_AVAIL_WR (R96). -/
def execFifoAvailWr (s : State) : Result :=
  accepting .fifoAvailWr s <| onUnit s fun _ u => .next <|
    if u.fifo.constructed = true then s.respond (.ok (.ofCount (availWr s.req.port.kind u.fifo))) else s.fail .state

/-- FIFO_AVAIL_RD (R97). -/
def execFifoAvailRd (s : State) : Result :=
  accepting .fifoAvailRd s <| onUnit s fun _ u => .next <|
    if u.fifo.constructed = true then s.respond (.ok (.ofCount (availRd s.req.port.kind u.fifo))) else s.fail .state

/-- A re-check of the push held on PRD of instance `x` (R93), with the kept operands and mode. -/
def recheckPush (x : Nat) (s : State) : Result :=
  match s.fifos[x]? with
  | none => .next s
  | some u =>
    match u.prd with
    | .idle => .next s
    | .waitPush n d blk => inStorage s u.fifo <| .next <| pushStep s x u n d blk

/-- A re-check of the pop held on CON of instance `x` (R93), with the kept operands and mode. -/
def recheckPop (x : Nat) (s : State) : Result :=
  match s.fifos[x]? with
  | none => .next s
  | some u =>
    match u.con with
    | .idle => .next s
    | .waitPop n blk => inStorage s u.fifo <| .next <| popStep s x u n blk

end Sys2Proof.Machine
end

