-- ==== Sys2Proof/Machine/Dispatch.lean ====
section
/-! DEFINITION. The meaning of every command, one arm each. -/

namespace Sys2Proof.Machine

def exec (i : Instr) (s : State) : Host.Outcome State Fault Refusal :=
  match i with
  | .fifoInit n => Sys2Proof.Machine.execFifoInit n s
  | .fifoSetMode m0 m1 => Sys2Proof.Machine.execFifoSetMode m0 m1 s
  | .fifoSetNap n => Sys2Proof.Machine.execFifoSetNap n s
  | .fifoGetReg reg => Sys2Proof.Machine.execFifoGetReg reg s
  | .fifoIsLockFree => Sys2Proof.Machine.execFifoIsLockFree s
  | .fifoPush n => Sys2Proof.Machine.execFifoPush n s
  | .fifoAvailWr => Sys2Proof.Machine.execFifoAvailWr s
  | .fifoAvailRd => Sys2Proof.Machine.execFifoAvailRd s
  | .fifoPop n => Sys2Proof.Machine.execFifoPop n s
  | .brConfigure a b => Sys2Proof.Machine.execBrConfigure a b s
  | .brInitialize => Sys2Proof.Machine.execBrInitialize s
  | .brShutdown => Sys2Proof.Machine.execBrShutdown s
  | .brSetMode m0 m1 => Sys2Proof.Machine.execBrSetMode m0 m1 s
  | .brSetNap n => Sys2Proof.Machine.execBrSetNap n s
  | .brGetReg reg => Sys2Proof.Machine.execBrGetReg reg s
  | .brReadFrames n => Sys2Proof.Machine.execBrReadFrames n s
  | .brWriteFrames n => Sys2Proof.Machine.execBrWriteFrames n s
  | .brAudioReady n => Sys2Proof.Machine.execBrAudioReady n s
  | .brHostShutdown => Sys2Proof.Machine.execBrHostShutdown s

end Sys2Proof.Machine
end

