-- ==== Sys2Proof/Machine/Turns.lean ====
section
/-! DEFINITION. One step of the interleaving (20_memory.md R54): the acceptance of a command on its port, the steps the
block takes on its own, and reset. -/

namespace Sys2Proof.Machine

/-- Whether a port holds a command (R15, R16); none for a port the block does not have. -/
def State.portBusy (s : State) (p : Port) : Option Bool :=
  match p with
  | .cfg x => (s.fifos[x]?).map (fun _ => false)
  | .prd x => (s.fifos[x]?).map (fun u => u.prd != .idle)
  | .con x => (s.fifos[x]?).map (fun u => u.con != .idle)
  | .ctl => some false
  | .aud => some (s.bridge.aud != .idle)
  | .wrk => some (s.bridge.wrk != .idle)

/-- Acceptance of a command (R15, R70): the port must be IDLE; an ILLEGAL word is answered at once. -/
def accept (r : Request) (s : State) : Result :=
  match s.portBusy r.port with
  | none => .refused .noSuchUnit
  | some true => .refused .portBusy
  | some false =>
    match decode r.port.kind r.word with
    | .ok i => exec i (s.latch r)
    | .error _ => .next ((s.latch r).fail .illegal)

/-- A re-check of the command held on a port (R93, R126). A port that holds none takes no step. -/
def recheck (p : Port) (s : State) : Result :=
  match p with
  | .prd x => recheckPush x s
  | .con x => recheckPop x s
  | .wrk => recheckWorker s
  | .cfg _ => .next s
  | .ctl => .next s
  | .aud => .next s

/-- One step of one agent (R54). -/
def perform (e : Event) (s : State) : Result :=
  match e with
  | .issue r => accept r s
  | .recheck p => recheck p s
  | .egress => egressStep s
  | .syncH f j => .next (s.mapFifo f (fun x => x.syncH j))
  | .syncT f j => .next (s.mapFifo f (fun x => x.syncT j))

/-- The next turn. Reset takes precedence over every other step (R156): where RST is asserted the reset step is taken,
and the turn's event is still to come. With no turn to come, the block waits (R159). -/
def takeTurn (s : State) : Result :=
  match s.schedule with
  | [] => .next s
  | t :: ts =>
    if t.rst = true then .next (s.resetBlock ({ t with rst := false } :: ts))
    else
      match t.ev with
      | none => .next (s.setSchedule ts)
      | some e => perform e (s.setSchedule ts)

/-! ## Putting one command before the machine -/

/-- The first port of a kind: instance 0 for the ports of a standalone instance. -/
def firstPort : PortKind → Port
  | .cfg => .cfg 0
  | .prd => .prd 0
  | .con => .con 0
  | .ctl => .ctl
  | .aud => .aud
  | .wrk => .wrk

/-- A data phase of silence words of the length R66 gives the command. -/
def silentData (i : Instr) (nin nout : Channels) : DataPhase :=
  match i with
  | .fifoPush n => .words (List.replicate n.toNat Word.silence)
  | .brWriteFrames n => .words (List.replicate (n.toNat * nout.toNat) Word.silence)
  | .brAudioReady n => .planar (silentBuffers nin.toNat n.toNat)
  | .fifoInit _ => .words []
  | .fifoSetMode _ _ => .words []
  | .fifoSetNap _ => .words []
  | .fifoGetReg _ => .words []
  | .fifoIsLockFree => .words []
  | .fifoAvailWr => .words []
  | .fifoAvailRd => .words []
  | .fifoPop _ => .words []
  | .brConfigure _ _ => .words []
  | .brInitialize => .words []
  | .brShutdown => .words []
  | .brSetMode _ _ => .words []
  | .brSetNap _ => .words []
  | .brGetReg _ => .words []
  | .brReadFrames _ => .words []
  | .brHostShutdown => .words []

/-- The request that issues word `w` on the first port R68 lists for it, with a data phase of the right length. -/
def requestOf (s : State) (w : Word) : Request :=
  { port := firstPort (homePort w)
    word := w
    data :=
      match decode (homePort w) w with
      | .ok i => silentData i s.bridge.nin s.bridge.nout
      | .error _ => .words []
    host := .absent }

/-- The state with port `p` IDLE. -/
def State.freePort (s : State) (p : Port) : State :=
  match p with
  | .cfg _ => s
  | .prd x => { s with fifos := s.fifos.modify x (fun u => { u with prd := .idle }) }
  | .con x => { s with fifos := s.fifos.modify x (fun u => { u with con := .idle }) }
  | .ctl => s
  | .aud => s.setBridge { s.bridge with aud := .idle }
  | .wrk => s.setBridge { s.bridge with wrk := .idle }

end Sys2Proof.Machine
end

