-- ==== Sys2Proof/Machine/Step.lean ====
section
/-! DEFINITION. The step of the machine, and how one command is put before it. -/

namespace Sys2Proof.Machine

/-- One step (R54). -/
def step (s : State) : Host.Outcome State Fault Refusal := takeTurn s

/-- `s` with the command of word `w` as the next turn: its port IDLE, and the request first in the schedule. A command is
one 32-bit word (R64), so `nbits` adds nothing: the bits above it are 0. The block fetches nothing (R62); this stands for
the port's agent issuing the command (log 11). -/
def State.withFetchWord (s : State) (nbits w : Nat) : State :=
  let word : Word := BitVec.ofNat 32 (w % 2 ^ nbits)
  let r := requestOf s word
  (s.freePort r.port).setSchedule ({ rst := false, ev := some (.issue r) } :: s.schedule)

end Sys2Proof.Machine
end

