-- ==== Sys2Proof/Safety.lean ====
section
/-! DEFINITION. What counts as a good state and a good run: the invariants of 10_state.md R23 and of the lifecycle, the
end of a run (70_reset_and_hazards.md R172), the failed run of 60_exceptions.md R140, and the weak fairness of
20_memory.md R51. -/

namespace Sys2Proof.Machine

/-! ## One instance -/

/-- The samples in an instance, oldest first (R56, R58): the words from HEAD onward. -/
def Fifo.contents (x : Fifo) : List Word := x.peek x.level

/-- The index values of an instance: HEAD, TAIL, the views and the channels. -/
def Fifo.indices (x : Fifo) : List Idx := x.head :: x.tail :: x.hview :: x.tview :: (x.qh ++ x.qt)

/-- Every index lies in [0, C) (R17). -/
abbrev Fifo.InRange (x : Fifo) : Prop := ∀ p ∈ x.indices, p.idx.toNat < x.cap.toNat

/-- R23 item 2: HVIEW followed by QH ends in HEAD, and each value is later than the one before: fewer samples lie
between it and TAIL. -/
abbrev Fifo.HeadChain (x : Fifo) : Prop :=
  (x.hview :: x.qh).getLast? = some x.head ∧
    (x.hview :: x.qh).Pairwise (fun p q => occ x.tail q x.cap.toNat < occ x.tail p x.cap.toNat)

/-- R23 item 3: TVIEW followed by QT ends in TAIL, and each value is later than the one before: more samples lie between
HEAD and it. -/
abbrev Fifo.TailChain (x : Fifo) : Prop :=
  (x.tview :: x.qt).getLast? = some x.tail ∧
    (x.tview :: x.qt).Pairwise (fun p q => occ p x.head x.cap.toNat < occ q x.head x.cap.toNat)

/-- Every unread sample lies in a slot written since reset (R56, R158). -/
abbrev Fifo.UnreadWritten (x : Fifo) : Prop :=
  ∀ i < x.level, x.store.written ((x.head.idx.toNat + i) % x.cap.toNat) = true

/-- The invariant of a constructed instance (R23). -/
abbrev Fifo.Live (x : Fifo) : Prop :=
  x.constructed = true ∧ 0 < x.cap.toNat ∧ x.InRange ∧ x.HeadChain ∧ x.TailChain ∧ x.level ≤ x.cap.toNat ∧
    x.prdLevel ≤ x.cap.toNat ∧ x.UnreadWritten

/-- An instance that has not been constructed since reset (R17, R157). -/
abbrev Fifo.Unbuilt (x : Fifo) : Prop :=
  x.constructed = false ∧ x.cap = 0 ∧ x.head = .zero ∧ x.tail = .zero ∧ x.hview = .zero ∧ x.tview = .zero ∧
    x.qh = [] ∧ x.qt = []

/-- A memory in canonical form whose listed slots are below `size`. -/
abbrev Memory.Fits (m : Memory) (size : Nat) : Prop := m.wf ∧ ∀ c ∈ m.cells, c.1 < size

/-- The invariant of any instance: R23, the capacity within DEPTH_MAX (R8, R81), and no slot at or above C ever written
(R42). -/
abbrev Fifo.Inv (p : Params) (x : Fifo) : Prop :=
  x.store.Fits x.cap.toNat ∧ x.cap.toNat ≤ p.depthMax.toNat ∧ (x.Live ∨ x.Unbuilt)

/-- Both channels of an instance are empty (R12: quiescent). -/
abbrev Fifo.Quiet (x : Fifo) : Prop := x.qh = [] ∧ x.qt = []

/-! ## Standalone instances -/

/-- A held push is blocking, of at least one and at most C words, all of them kept (R91, R93, R66). -/
def PrdPort.Inv (x : Fifo) : PrdPort → Prop
  | .idle => True
  | .waitPush n d blk => x.constructed = true ∧ blk = true ∧ 0 < n.toNat ∧ n.toNat ≤ x.cap.toNat ∧ d.length = n.toNat

/-- A held pop is blocking, of at least one and at most C words (R92, R93). -/
def ConPort.Inv (x : Fifo) : ConPort → Prop
  | .idle => True
  | .waitPop n blk => x.constructed = true ∧ blk = true ∧ 0 < n.toNat ∧ n.toNat ≤ x.cap.toNat

/-- The invariant of a standalone instance. -/
def Standalone.Inv (p : Params) (u : Standalone) : Prop :=
  u.fifo.Inv p ∧ u.prd.Inv u.fifo ∧ u.con.Inv u.fifo

/-! ## The bridge -/

/-- A channel count BR_CONFIGURE accepts (R106). -/
abbrev goodChannels (p : Params) (c : Channels) : Prop := 1 ≤ c.toNat ∧ c.toNat ≤ p.maxCh.toNat

/-- IN and OUT as BR_INITIALIZE leaves them (R107, R161): constructed with FRAME_CAP frames each, and a legal period. -/
def Bridge.Built (p : Params) (b : Bridge) : Prop :=
  goodChannels p b.nin ∧ goodChannels p b.nout ∧ 1 ≤ b.period.toNat ∧ b.period.toNat ≤ p.periodMax.toNat ∧
    b.inF.constructed = true ∧ b.outF.constructed = true ∧
    b.inF.cap.toNat = p.frameCap.toNat * b.nin.toNat ∧ b.outF.cap.toNat = p.frameCap.toNat * b.nout.toNat

/-- IN and OUT before BR_INITIALIZE. -/
def Bridge.NotBuilt (b : Bridge) : Prop := b.inF.constructed = false ∧ b.outF.constructed = false

/-- What each lifecycle value implies (R31). -/
def Bridge.LifecycleInv (p : Params) (b : Bridge) : Prop :=
  match b.bstate with
  | .unconfigured => b.NotBuilt ∧ b.nin = 0 ∧ b.nout = 0 ∧ b.hostSd = false
  | .configured => b.NotBuilt ∧ goodChannels p b.nin ∧ goodChannels p b.nout ∧ b.hostSd = false
  | .running => b.Built p ∧ b.hostSd = false
  | .shutdown => b.Built p ∨ (b.NotBuilt ∧ b.hostSd = false)

/-- A pending egress phase is of a callback that was accepted (R121): IN and OUT are built, and F ≤ PERIOD. -/
def Bridge.AudInv (p : Params) (b : Bridge) : Prop :=
  match b.aud with
  | .idle => True
  | .egress frames _ => b.Built p ∧ frames.toNat ≤ b.period.toNat

/-- A held worker transfer is blocking and of 1 to FRAME_CAP frames (R124, R125, R126, R66). -/
def Bridge.WrkInv (p : Params) (b : Bridge) : Prop :=
  match b.wrk with
  | .idle => True
  | .waitRead k blk => b.Built p ∧ blk = true ∧ 0 < k.toNat ∧ k.toNat ≤ p.frameCap.toNat
  | .waitWrite k d blk =>
    b.Built p ∧ blk = true ∧ 0 < k.toNat ∧ k.toNat ≤ p.frameCap.toNat ∧ d.length = k.toNat * b.nout.toNat

/-- The invariant of the bridge. -/
def Bridge.Inv (p : Params) (b : Bridge) : Prop :=
  b.inF.Inv p ∧ b.outF.Inv p ∧ b.scr.Fits p.scratchSize ∧ b.LifecycleInv p ∧ b.AudInv p ∧ b.WrkInv p

/-- Every index of an instance is a whole number of frames of `chans` words (R127). -/
abbrev Fifo.Aligned (x : Fifo) (chans : Nat) : Prop := ∀ p ∈ x.indices, chans ∣ p.idx.toNat

/-- R127: IN is aligned to NIN and OUT to NOUT. -/
def Bridge.Aligned (b : Bridge) : Prop := b.inF.Aligned b.nin.toNat ∧ b.outF.Aligned b.nout.toNat

/-! ## The whole state -/

/-- The invariant of the machine. -/
def State.Inv (s : State) : Prop :=
  s.params.Legal ∧ s.fifos.length = s.params.extraFifos + 1 ∧ (∀ u ∈ s.fifos, u.Inv s.params) ∧ s.bridge.Inv s.params

/-- Every memory of the machine is in canonical form. -/
def State.memoriesWf (s : State) : Prop :=
  (∀ u ∈ s.fifos, u.fifo.store.wf) ∧ s.bridge.inF.store.wf ∧ s.bridge.outF.store.wf ∧ s.bridge.scr.wf

/-- The state is not a failed run: B.FAULT is 0 (R140, 93 U14). -/
def State.faultFree (s : State) : Prop := s.bridge.faultBit = false

/-- The instance of a name. -/
def State.fifo? (s : State) (f : FifoName) : Option Fifo :=
  match f with
  | .unit x => (s.fifos[x]?).map (·.fifo)
  | .input => some s.bridge.inF
  | .output => some s.bridge.outF

/-- Every index channel is empty (R12: quiescent). -/
def State.quiescent (s : State) : Prop :=
  (∀ u ∈ s.fifos, u.fifo.Quiet) ∧ s.bridge.inF.Quiet ∧ s.bridge.outF.Quiet

/-- Every port is IDLE. -/
def State.allIdle (s : State) : Prop :=
  (∀ u ∈ s.fifos, u.prd = .idle ∧ u.con = .idle) ∧ s.bridge.aud = .idle ∧ s.bridge.wrk = .idle

/-- The run is over (R172). -/
def State.runOver (s : State) : Prop := s.allIdle ∧ s.quiescent

/-! ## Runs and weak fairness -/

/-- The state with `t` as its only turn. -/
def State.offer (s : State) (t : Turn) : State := s.setSchedule [t]

/-- An infinite run: at each step the environment brings one turn. -/
structure Run where
  state : Nat → State
  turn : Nat → Turn
  steps : ∀ n, step ((state n).offer (turn n)) = .next (state (n + 1))

/-- The agents whose steps are weakly fair (R51, 92 D37): the synchronisers of an instance, the completion or release of
a held command, and the egress phase. -/
inductive FairAgent where
  | syncH (f : FifoName)
  | syncT (f : FifoName)
  | completion (p : Port)
  | egress
  deriving DecidableEq, Repr

/-- The push held on a port would complete now (R93). -/
def Fifo.pushReady (x : Fifo) (d : List Word) (n : Nat) (blk : Bool) : Bool := (x.pushCore d n blk).isSome

/-- The pop held on a port would complete now (R93). -/
def Fifo.popReady (x : Fifo) (n : Nat) (blk : Bool) : Bool := (x.popCore n blk).isSome

/-- The completion step of the command held on PRD of an instance is enabled (R93). -/
def Standalone.prdReady (u : Standalone) : Bool :=
  match u.prd with
  | .idle => false
  | .waitPush n d blk => u.fifo.pushReady d n.toNat blk

/-- The completion step of the command held on CON of an instance is enabled (R93). -/
def Standalone.conReady (u : Standalone) : Bool :=
  match u.con with
  | .idle => false
  | .waitPop n blk => u.fifo.popReady n.toNat blk

/-- A completion or release step of the command held on WRK is enabled (R126). -/
def Bridge.wrkReady (b : Bridge) : Bool :=
  match b.wrk with
  | .idle => false
  | .waitRead k blk => b.bstate = .shutdown || b.inF.popReady (k.toNat * b.nin.toNat) blk
  | .waitWrite k d blk => b.bstate = .shutdown || b.outF.pushReady d (k.toNat * b.nout.toNat) blk

/-- The completion step of a port is enabled (R93, R126). -/
def State.completionReady (s : State) (p : Port) : Bool :=
  match p with
  | .prd x => ((s.fifos[x]?).map Standalone.prdReady).getD false
  | .con x => ((s.fifos[x]?).map Standalone.conReady).getD false
  | .wrk => s.bridge.wrkReady
  | .cfg _ => false
  | .ctl => false
  | .aud => false

/-- The agent's step is enabled in a state (R49, R50, R93, R122, R126). -/
def FairAgent.Enabled (a : FairAgent) (s : State) : Prop :=
  match a with
  | .syncH f => ∃ x, s.fifo? f = some x ∧ x.qh ≠ []
  | .syncT f => ∃ x, s.fifo? f = some x ∧ x.qt ≠ []
  | .completion p => s.completionReady p = true
  | .egress => s.bridge.aud ≠ .idle

/-- The turn is a step of the agent, with a legal draw (1 ≤ j ≤ the length of the channel). -/
def FairAgent.Taken (a : FairAgent) (s : State) (t : Turn) : Prop :=
  t.rst = false ∧
    match a with
    | .syncH f => ∃ j x, t.ev = some (.syncH f j) ∧ s.fifo? f = some x ∧ 1 ≤ j ∧ j ≤ x.qh.length
    | .syncT f => ∃ j x, t.ev = some (.syncT f j) ∧ s.fifo? f = some x ∧ 1 ≤ j ∧ j ≤ x.qt.length
    | .completion p => t.ev = some (.recheck p)
    | .egress => t.ev = some .egress

/-- Weak fairness (R51): an agent whose step stays enabled takes it eventually. -/
def Run.WeaklyFair (r : Run) : Prop :=
  ∀ (a : FairAgent) (n : Nat), (∀ m ≥ n, a.Enabled (r.state m)) → ∃ m ≥ n, a.Taken (r.state m) (r.turn m)

/-- No reset occurs in the run. -/
def Run.NoReset (r : Run) : Prop := ∀ n, (r.turn n).rst = false

end Sys2Proof.Machine
end

