-- ==== Sys2Proof/WellFormed.lean ====
section
/-! DEFINITION. When a command, as issued, is well formed: its port is one R68 lists for it, and its data phase has the
length R66 gives. The operand fields need no check: their widths are in the types. -/

namespace Sys2Proof

/-- A command as issued (R72): the port's kind, the instruction, and the data phase into the block. -/
structure Command where
  port : PortKind
  instr : Instr
  data : DataPhase
  deriving DecidableEq, Repr

/-- Well formed in a state with B.NIN = `nin` and B.NOUT = `nout` (R66, R68). -/
abbrev Command.WellFormed (c : Command) (nin nout : Channels) : Prop :=
  c.instr.acceptedOn c.port = true ∧ c.instr.dataFits nin nout c.data = true

end Sys2Proof
end

