-- ==== Sys2Proof/Certificates/Slice0/Obligations.lean ====
section
/-! DEFINITION. The statements about the model, one `def Obligations.<Name> : Prop` each, after the words in which they
are written. -/

open Sys2Proof Sys2Proof.Machine

namespace Sys2Proof.Stated

/-! ## The words the statements are written in -/

/-- The latched request is command `i`, on a port R68 lists for it, with a data phase of the length R66 gives. -/
abbrev Issued (i : Instr) (s : State) : Prop :=
  ({ port := s.req.port.kind, instr := i, data := s.req.data } : Command).WellFormed s.bridge.nin s.bridge.nout

/-- As `Issued`, on a port of standalone instance `x`, which is `u`. -/
abbrev IssuedOn (i : Instr) (s : State) (x : Nat) (u : Standalone) : Prop :=
  Issued i s ∧ s.req.port.unitNo = some x ∧ s.fifos[x]? = some u

/-- OK(v) with no data. -/
abbrev ok (v : Word) : Response := { err := false, value := v, data := .words [] }

/-- ERR with this code and no data. -/
abbrev err (code : Word) : Response := { err := true, value := code, data := .words [] }

/-- The step gave exactly one response, on the port of the request. -/
abbrev Answered (s t : State) (r : Response) : Prop := t.replies = ⟨s.req.port, r⟩ :: s.replies

/-- The step changed nothing but the responses given. -/
abbrev OnlyReplies (s t : State) : Prop := { t with replies := s.replies } = s

/-- The step changed nothing but standalone instance `x` and the responses given. -/
abbrev OnlyUnit (s t : State) (x : Nat) : Prop :=
  t.params = s.params ∧ t.bridge = s.bridge ∧ t.schedule = s.schedule ∧ t.req = s.req ∧ t.epoch = s.epoch ∧
    t.fifos.length = s.fifos.length ∧ ∀ y, y ≠ x → t.fifos[y]? = s.fifos[y]?

/-- The step changed nothing but the bridge and the responses given. -/
abbrev OnlyBridge (s t : State) : Prop :=
  t.params = s.params ∧ t.fifos = s.fifos ∧ t.schedule = s.schedule ∧ t.req = s.req ∧ t.epoch = s.epoch

/-- The next turn is this event of an agent, without reset. -/
abbrev NextEvent (s : State) (e : Event) (ts : List Turn) : Prop :=
  s.schedule = { rst := false, ev := some e } :: ts

/-- What a push of the first `k` words of `d` does to an instance, and that it does nothing else (R48, R91): for k = 0
nothing; else TAIL advances and is published once, the slots from TAIL onward hold the words, and every other slot reads
as before. -/
def PushEffect (x y : Fifo) (d : List Word) (k : Nat) : Prop :=
  y.constructed = x.constructed ∧ y.cap = x.cap ∧ y.head = x.head ∧ y.hview = x.hview ∧ y.tview = x.tview ∧
    y.qh = x.qh ∧
    (k = 0 → y.tail = x.tail ∧ y.qt = x.qt) ∧
    (0 < k → y.tail = x.tail.adv k x.cap.toNat ∧ y.qt = x.qt ++ [x.tail.adv k x.cap.toNat]) ∧
    (∀ i < k, d[i]? = some (y.store.read ((x.tail.idx.toNat + i) % x.cap.toNat))) ∧
    (∀ j, (∀ i < k, (x.tail.idx.toNat + i) % x.cap.toNat ≠ j) → y.store.read j = x.store.read j)

/-- What a pop of `k` words returning `out` does to an instance, and that it does nothing else (R48, R92). -/
def PopEffect (x y : Fifo) (k : Nat) (out : List Word) : Prop :=
  y.constructed = x.constructed ∧ y.cap = x.cap ∧ y.tail = x.tail ∧ y.hview = x.hview ∧ y.tview = x.tview ∧
    y.qt = x.qt ∧ (∀ j, y.store.read j = x.store.read j) ∧
    (k = 0 → y.head = x.head ∧ y.qh = x.qh) ∧
    (0 < k → y.head = x.head.adv k x.cap.toNat ∧ y.qh = x.qh ++ [x.head.adv k x.cap.toNat]) ∧
    out.length = k ∧ ∀ i < k, out[i]? = some (x.store.read ((x.head.idx.toNat + i) % x.cap.toNat))

/-- Free slots as the producer side sees them, C − occ(TAIL, HVIEW, C) (R91). -/
abbrev freeSeen (x : Fifo) : Nat := x.cap.toNat - occ x.tail x.hview x.cap.toNat

/-- Samples as the consumer side sees them, occ(TVIEW, HEAD, C) (R92). -/
abbrev availSeen (x : Fifo) : Nat := occ x.tview x.head x.cap.toNat

/-- Planar buffers of `chans` channels and `frames` frames. -/
abbrev Planar (bufs : List (List Word)) (chans frames : Nat) : Prop :=
  bufs.length = chans ∧ ∀ b ∈ bufs, b.length = frames

/-- `d` is the frame-major stream of planar buffers: word f × chans + c is word f of channel c (R12, R121). -/
def FrameMajor (d : List Word) (bufs : List (List Word)) (chans frames : Nat) : Prop :=
  d.length = frames * chans ∧ ∀ f < frames, ∀ c < chans, d[f * chans + c]? = (bufs[c]?).bind (fun b => b[f]?)

/-- The machine's run of a number of steps. -/
abbrev runSteps (n : Nat) (s : State) : Host.Outcome State Fault Refusal := Sys2Proof.core.run n s

/-- A turn in which a port's agent issues command `i` with data `d`. -/
abbrev issues (p : Port) (i : Instr) (d : DataPhase) : Turn :=
  { rst := false, ev := some (.issue { port := p, word := encode i, data := d, host := .absent }) }

/-- A turn of another agent. -/
abbrev turnOf (e : Event) : Turn := { rst := false, ev := some e }

end Sys2Proof.Stated

open Sys2Proof.Stated

/-! ## Encoding -/

/-- Words written out from 30_encoding.md R64, R67 and R68 decode to the commands they stand for. -/
def Obligations.SampleWordsDecode : Prop :=
  decode .cfg 0x0100000A = .ok (.fifoInit 10) ∧ decode .cfg 0x02000002 = .ok (.fifoSetMode false true) ∧
    decode .con 0x0CFFFFFF = .ok (.fifoPop 16777215) ∧ decode .ctl 0x20FFF001 = .ok (.brConfigure 4095 1) ∧
    decode .wrk 0x2500000D = .ok (.brGetReg 13) ∧ decode .aud 0x30000100 = .ok (.brAudioReady 256)

/-- Decoding the word of a command on a port that accepts it gives the command back, for every operand value. -/
def Obligations.DecodeOfEncodedCommand : Prop :=
  ∀ (i : Instr) (p : PortKind), i.acceptedOn p = true → decode p (encode i) = .ok i

/-- A word that decodes on a port is the one word of its command, and the port is one R68 lists for it. -/
def Obligations.EncodeOfDecodedWord : Prop :=
  ∀ (p : PortKind) (w : Word) (i : Instr), decode p w = .ok i → encode i = w ∧ i.acceptedOn p = true

/-- R71: every reserved opcode, and every word with a reserved operand bit set, is illegal on every port. -/
def Obligations.ReservedWordsAreIllegal : Prop :=
  ∀ (p : PortKind) (w : Word),
    ((w.toNat / 2 ^ 24 ∉ [0x01, 0x02, 0x03, 0x04, 0x05, 0x08, 0x09, 0x0A, 0x0C, 0x20, 0x21, 0x22, 0x23, 0x24, 0x25,
        0x28, 0x29, 0x30, 0x31]) ∨
      (w.toNat / 2 ^ 24 ∈ [0x02, 0x23] ∧ w.toNat % 2 ^ 24 / 2 ^ 2 ≠ 0) ∨
      (w.toNat / 2 ^ 24 ∈ [0x05, 0x09, 0x0A, 0x21, 0x22, 0x31] ∧ w.toNat % 2 ^ 24 ≠ 0) ∨
      (w.toNat / 2 ^ 24 ∈ [0x04, 0x25] ∧ w.toNat % 2 ^ 24 / 2 ^ 8 ≠ 0)) →
    ∃ e, decode p w = .error e

/-! ## The step -/

/-- R70: an ILLEGAL command responds ERR(E_ILLEGAL) in its accepting step and changes no state, whatever data its agent
presents with it. -/
def Obligations.IllegalWordAnswered : Prop :=
  ∀ (s : State) (r : Request) (ts : List Turn) (e : DecodeError),
    NextEvent s (.issue r) ts → s.portBusy r.port = some false → decode r.port.kind r.word = .error e →
    step s = .next { s with schedule := ts, req := r, replies := ⟨r.port, err 1⟩ :: s.replies }

/-- A command issued on an IDLE port whose word decodes runs as the decoded command: the turn is taken off the schedule
and the request latched, nothing else stands between `step` and `exec`. -/
def Obligations.StepRunsDecodedCommand : Prop :=
  ∀ (s : State) (r : Request) (ts : List Turn) (i : Instr),
    NextEvent s (.issue r) ts → s.portBusy r.port = some false → decode r.port.kind r.word = .ok i →
    step s = exec i { s with schedule := ts, req := r }

/-- A step is refused only where a command is issued on a port that is not IDLE, on a port the block does not have, or
with a data phase of another length than R66 gives (logs 6, 7, 12); no command is refused otherwise. -/
def Obligations.RefusalsAreOnlyThese : Prop :=
  ∀ (s : State) (q : Refusal), step s = .refused q →
    ∃ r ts, NextEvent s (.issue r) ts ∧
      ((q = .portBusy ∧ s.portBusy r.port = some true) ∨ (q = .noSuchUnit ∧ s.portBusy r.port = none) ∨
        (q = .malformedData ∧ ∃ i, decode r.port.kind r.word = .ok i ∧
          i.dataFits s.bridge.nin s.bridge.nout r.data = false))

/-! ## Reset -/

/-- R157: the values reset leaves, for any parameters. No storage or scratch word is listed: each holds an unspecified
word, the free value of log 5. -/
def Obligations.ResetValues : Prop :=
  ∀ (p : Params) (e : Nat) (s : State), s = State.resetOf p e →
    (∀ u ∈ s.fifos, u.prd = .idle ∧ u.con = .idle ∧ u.pushBlock = false ∧ u.popBlock = false ∧ u.nap = p.napReset) ∧
    (∀ x ∈ s.bridge.inF :: s.bridge.outF :: s.fifos.map (·.fifo),
      x.constructed = false ∧ x.cap = 0 ∧ x.head = ⟨false, 0⟩ ∧ x.tail = ⟨false, 0⟩ ∧ x.hview = ⟨false, 0⟩ ∧
        x.tview = ⟨false, 0⟩ ∧ x.qh = [] ∧ x.qt = [] ∧ x.store.cells = []) ∧
    s.bridge.scr.cells = [] ∧ s.bridge.aud = .idle ∧ s.bridge.wrk = .idle ∧ s.bridge.bstate = .unconfigured ∧ s.bridge.hostSd = false ∧
    s.bridge.faultBit = false ∧ s.bridge.nin = 0 ∧ s.bridge.nout = 0 ∧ s.bridge.period = 0 ∧ s.bridge.srate = 0 ∧
    s.bridge.ovfCnt = 0 ∧ s.bridge.unfCnt = 0 ∧ s.bridge.rdBlock = true ∧ s.bridge.wrBlock = true ∧
    s.bridge.nap = p.napReset

/-- R156: where RST is asserted the reset step is taken whatever event the turn carries and whatever the state: every
port is IDLE, every instance and the bridge have their reset values, no memory word counts as written, no response is
given, and the parameters stay. The turn's event is still to come (log 13). -/
def Obligations.ResetStepTakesPrecedence : Prop :=
  ∀ (s : State) (e : Option Event) (ts : List Turn), s.schedule = { rst := true, ev := e } :: ts →
    ∃ t, step s = .next t ∧ t.params = s.params ∧ t.replies = s.replies ∧
      t.schedule = { rst := false, ev := e } :: ts ∧ t.fifos.length = s.params.extraFifos + 1 ∧ t.allIdle ∧
      t.bridge.bstate = .unconfigured ∧ t.bridge.faultBit = false ∧
      (∃ k, { t with schedule := [], replies := [] } = State.resetOf s.params k) ∧
      (∀ u ∈ t.fifos, u.fifo.store.cells = []) ∧ t.bridge.inF.store.cells = [] ∧ t.bridge.outF.store.cells = [] ∧
      t.bridge.scr.cells = []

/-! ## Index arithmetic -/

/-- R18: ext, and advancing by k with 0 ≤ k ≤ C. -/
def Obligations.AdvanceMovesExtendedIndex : Prop :=
  ∀ (p : Idx) (k c : Nat), p.idx.toNat < c → k ≤ c → c < 2 ^ 24 →
    p.ext c = p.lap.toNat * c + p.idx.toNat ∧ p.ext c < 2 * c ∧
      (c ≤ p.idx.toNat + k → (p.adv k c).lap = !p.lap ∧ (p.adv k c).idx.toNat = p.idx.toNat + k - c) ∧
      (p.idx.toNat + k < c → (p.adv k c).lap = p.lap ∧ (p.adv k c).idx.toNat = p.idx.toNat + k) ∧
      (p.adv k c).ext c = (p.ext c + k) % (2 * c)

/-- R19, R20: the occupancy by laps and indices, and when it is 0 and C. -/
def Obligations.OccupancyByLapAndIndex : Prop :=
  ∀ (t h : Idx) (c : Nat), t.idx.toNat < c → h.idx.toNat < c →
    (t.lap = h.lap → h.idx.toNat ≤ t.idx.toNat → occ t h c = t.idx.toNat - h.idx.toNat) ∧
      (t.lap ≠ h.lap → occ t h c = c - h.idx.toNat + t.idx.toNat) ∧
      (occ t h c = 0 ↔ t = h) ∧ (occ t h c = c ↔ t.lap ≠ h.lap ∧ t.idx = h.idx)

/-! ## FIFO control -/

/-- R81: FIFO_INIT on an unconstructed instance with 1 ≤ N ≤ DEPTH_MAX constructs it, empty; modes, poll interval, ports
and storage are not changed, and nothing outside the instance is. -/
def Obligations.FifoInitConstructs : Prop :=
  ∀ (n : Count) (s : State) (x : Nat) (u : Standalone), IssuedOn (.fifoInit n) s x u →
    u.fifo.constructed = false → 1 ≤ n.toNat → n.toNat ≤ s.params.depthMax.toNat →
    ∃ t, exec (.fifoInit n) s = .next t ∧ OnlyUnit s t x ∧ Answered s t (ok 0) ∧
      t.fifos[x]? = some { u with fifo := { u.fifo with
        constructed := true, cap := n, head := ⟨false, 0⟩, tail := ⟨false, 0⟩, hview := ⟨false, 0⟩,
        tview := ⟨false, 0⟩, qh := [], qt := [] } }

/-- R81, R138: FIFO_INIT on a constructed instance answers E_STATE whatever N is; otherwise N = 0 or N > DEPTH_MAX answers
E_CONFIG; nothing changes. -/
def Obligations.FifoInitErrors : Prop :=
  ∀ (n : Count) (s : State) (x : Nat) (u : Standalone), IssuedOn (.fifoInit n) s x u →
    (u.fifo.constructed = true →
      exec (.fifoInit n) s = .next { s with replies := ⟨s.req.port, err 2⟩ :: s.replies }) ∧
    (u.fifo.constructed = false → n.toNat = 0 ∨ s.params.depthMax.toNat < n.toNat →
      exec (.fifoInit n) s = .next { s with replies := ⟨s.req.port, err 3⟩ :: s.replies })

/-- R82, R83: FIFO_SETMODE writes the two mode bits and FIFO_SETNAP the poll interval, constructed or not, and nothing
else: a held command, its kept mode with it, stays as it is. -/
def Obligations.FifoModeAndNapWritten : Prop :=
  ∀ (s : State) (x : Nat) (u : Standalone),
    (∀ m0 m1, IssuedOn (.fifoSetMode m0 m1) s x u →
      ∃ t, exec (.fifoSetMode m0 m1) s = .next t ∧ OnlyUnit s t x ∧ Answered s t (ok 0) ∧
        t.fifos[x]? = some { u with pushBlock := m0, popBlock := m1 }) ∧
    (∀ n, IssuedOn (.fifoSetNap n) s x u →
      ∃ t, exec (.fifoSetNap n) s = .next t ∧ OnlyUnit s t x ∧ Answered s t (ok 0) ∧
        t.fifos[x]? = some { u with nap := n })

/-- R24, R84: the six registers of a standalone instance, as numbers; 6 to 255 answer E_ILLEGAL; nothing changes. -/
def Obligations.FifoRegistersRead : Prop :=
  ∀ (reg : BitVec 8) (s : State) (x : Nat) (u : Standalone), IssuedOn (.fifoGetReg reg) s x u →
    ∃ t, exec (.fifoGetReg reg) s = .next t ∧ OnlyReplies s t ∧
      (reg.toNat < 6 → ∃ v, Answered s t (ok v) ∧
        [u.fifo.constructed.toNat + 2 * u.pushBlock.toNat + 4 * u.popBlock.toNat, u.fifo.cap.toNat, u.nap.toNat,
          s.params.depthMax.toNat, u.fifo.head.idx.toNat + 2 ^ 24 * u.fifo.head.lap.toNat,
          u.fifo.tail.idx.toNat + 2 ^ 24 * u.fifo.tail.lap.toNat][reg.toNat]? = some v.toNat) ∧
      (6 ≤ reg.toNat → Answered s t (err 1))

/-- R85: FIFO_ISLOCKFREE answers OK(1) on CFG, PRD and CON, constructed or not; nothing changes. -/
def Obligations.LockFreeReportsOne : Prop :=
  ∀ (s : State) (x : Nat) (u : Standalone), s.fifos[x]? = some u →
    s.req.port = .cfg x ∨ s.req.port = .prd x ∨ s.req.port = .con x → s.req.data = .words [] →
    exec .fifoIsLockFree s = .next { s with replies := ⟨s.req.port, ok 1⟩ :: s.replies }

/-! ## FIFO queries and transfers -/

/-- R96, R97: on PRD the queries answer from (TAIL, HVIEW), on CON from (TVIEW, HEAD); nothing changes. -/
def Obligations.FifoQueriesReportOwnView : Prop :=
  ∀ (s : State) (x : Nat) (u : Standalone) (n : Nat), s.fifos[x]? = some u → u.fifo.constructed = true →
    s.req.data = .words [] →
    (s.req.port = .prd x ∧ n = occ u.fifo.tail u.fifo.hview u.fifo.cap.toNat ∨
      s.req.port = .con x ∧ n = occ u.fifo.tview u.fifo.head u.fifo.cap.toNat) →
    exec .fifoAvailRd s = .next { s with replies := ⟨s.req.port, ok (BitVec.ofNat 32 n)⟩ :: s.replies } ∧
      exec .fifoAvailWr s =
        .next { s with replies := ⟨s.req.port, ok (BitVec.ofNat 32 (u.fifo.cap.toNat - n))⟩ :: s.replies }

/-- R98: FIFO_AVAIL_RD and FIFO_AVAIL_WR on one port, in states between which that side's view and index have not
changed, sum to C. The premise `Live` is the invariant of `Obligations.StepKeepsInvariant`. -/
def Obligations.AvailabilitiesSumToCapacity : Prop :=
  ∀ (s s' : State) (x : Nat) (u u' : Standalone), IssuedOn .fifoAvailRd s x u → IssuedOn .fifoAvailWr s' x u' →
    s'.req.port = s.req.port → u.fifo.Live → u'.fifo.constructed = true → u'.fifo.cap = u.fifo.cap →
    (s.req.port = .prd x → u'.fifo.tail = u.fifo.tail ∧ u'.fifo.hview = u.fifo.hview) →
    (s.req.port = .con x → u'.fifo.tview = u.fifo.tview ∧ u'.fifo.head = u.fifo.head) →
    ∃ t t' a b, exec .fifoAvailRd s = .next t ∧ exec .fifoAvailWr s' = .next t' ∧ Answered s t (ok a) ∧
      Answered s' t' (ok b) ∧ a.toNat + b.toNat = u.fifo.cap.toNat

/-- R94 to R97, R138: on an unconstructed instance the transfers and queries answer E_STATE and change nothing. -/
def Obligations.TransfersNeedConstruction : Prop :=
  ∀ (i : Instr) (s : State) (x : Nat) (u : Standalone),
    ((∃ n, i = .fifoPush n) ∨ (∃ n, i = .fifoPop n) ∨ i = .fifoAvailWr ∨ i = .fifoAvailRd) →
    IssuedOn i s x u → u.fifo.constructed = false →
    exec i s = .next { s with replies := ⟨s.req.port, err 2⟩ :: s.replies }

/-- R91, R94, R101: a non-blocking FIFO_PUSH moves min(n, free) words at once and answers that count. -/
def Obligations.FifoPushNonBlockingMoves : Prop :=
  ∀ (n : Count) (s : State) (x : Nat) (u : Standalone) (d : List Word), IssuedOn (.fifoPush n) s x u →
    s.req.data = .words d → u.fifo.constructed = true → u.fifo.cap.toNat ≤ s.params.depthMax.toNat →
    u.pushBlock = false → u.prd = .idle →
    ∃ t y k, exec (.fifoPush n) s = .next t ∧ k = min n.toNat (freeSeen u.fifo) ∧ OnlyUnit s t x ∧
      Answered s t (ok (BitVec.ofNat 32 k)) ∧ t.fifos[x]? = some { u with fifo := y } ∧ PushEffect u.fifo y d k

/-- R91, R93, R94, R101: a blocking FIFO_PUSH answers OK(0) at once for n = 0 or n > C, moves all n words where the
producer side sees room for them, and else holds with its operands and its mode; a hold gives no response and changes
nothing else. -/
def Obligations.FifoPushBlockingMovesOrHolds : Prop :=
  ∀ (n : Count) (s : State) (x : Nat) (u : Standalone) (d : List Word), IssuedOn (.fifoPush n) s x u →
    s.req.data = .words d → u.fifo.constructed = true → u.fifo.cap.toNat ≤ s.params.depthMax.toNat →
    u.pushBlock = true → u.prd = .idle →
    ∃ t, exec (.fifoPush n) s = .next t ∧ OnlyUnit s t x ∧
      if n.toNat = 0 ∨ u.fifo.cap.toNat < n.toNat then t.fifos[x]? = some u ∧ Answered s t (ok 0)
      else if n.toNat ≤ freeSeen u.fifo then
        Answered s t (ok (BitVec.ofNat 32 n.toNat)) ∧
          ∃ y, t.fifos[x]? = some { u with fifo := y } ∧ PushEffect u.fifo y d n.toNat
      else t.replies = s.replies ∧ t.fifos[x]? = some { u with prd := .waitPush n d true }

/-- R92, R95, R101: a non-blocking FIFO_POP moves min(n, avail) words at once and answers that count with the words. -/
def Obligations.FifoPopNonBlockingMoves : Prop :=
  ∀ (n : Count) (s : State) (x : Nat) (u : Standalone), IssuedOn (.fifoPop n) s x u →
    u.fifo.constructed = true → u.fifo.cap.toNat ≤ s.params.depthMax.toNat → u.popBlock = false → u.con = .idle →
    ∃ t y k out, exec (.fifoPop n) s = .next t ∧ k = min n.toNat (availSeen u.fifo) ∧ OnlyUnit s t x ∧
      Answered s t { err := false, value := BitVec.ofNat 32 k, data := .words out } ∧
      t.fifos[x]? = some { u with fifo := y } ∧ PopEffect u.fifo y k out

/-- R92, R93, R95, R101: a blocking FIFO_POP answers OK(0) at once for n = 0 or n > C, moves all n words where the
consumer side sees them, and else holds. -/
def Obligations.FifoPopBlockingMovesOrHolds : Prop :=
  ∀ (n : Count) (s : State) (x : Nat) (u : Standalone), IssuedOn (.fifoPop n) s x u →
    u.fifo.constructed = true → u.fifo.cap.toNat ≤ s.params.depthMax.toNat → u.popBlock = true → u.con = .idle →
    ∃ t, exec (.fifoPop n) s = .next t ∧ OnlyUnit s t x ∧
      if n.toNat = 0 ∨ u.fifo.cap.toNat < n.toNat then t.fifos[x]? = some u ∧ Answered s t (ok 0)
      else if n.toNat ≤ availSeen u.fifo then
        ∃ y out, Answered s t { err := false, value := BitVec.ofNat 32 n.toNat, data := .words out } ∧
          t.fifos[x]? = some { u with fifo := y } ∧ PopEffect u.fifo y n.toNat out
      else t.replies = s.replies ∧ t.fifos[x]? = some { u with con := .waitPop n true }

/-- R93, R167: a re-check of a held push completes it exactly where the producer side now sees room for all n words, with
the kept words and whatever mode PUSH_BLOCK holds by then; else the state stays as it was. -/
def Obligations.HeldPushCompletesOrHolds : Prop :=
  ∀ (s : State) (x : Nat) (u : Standalone) (n : Count) (d : List Word) (ts : List Turn),
    NextEvent s (.recheck (.prd x)) ts → s.fifos[x]? = some u → u.prd = .waitPush n d true → d.length = n.toNat →
    0 < n.toNat → n.toNat ≤ u.fifo.cap.toNat → u.fifo.cap.toNat ≤ s.params.depthMax.toNat →
    ∃ t, step s = .next t ∧
      if n.toNat ≤ freeSeen u.fifo then
        OnlyUnit { s with schedule := ts } t x ∧
          t.replies = ⟨.prd x, ok (BitVec.ofNat 32 n.toNat)⟩ :: s.replies ∧
          ∃ y, t.fifos[x]? = some { u with fifo := y, prd := .idle } ∧ PushEffect u.fifo y d n.toNat
      else t = { s with schedule := ts }

/-- R93, R167: the same of a held pop. -/
def Obligations.HeldPopCompletesOrHolds : Prop :=
  ∀ (s : State) (x : Nat) (u : Standalone) (n : Count) (ts : List Turn),
    NextEvent s (.recheck (.con x)) ts → s.fifos[x]? = some u → u.con = .waitPop n true →
    0 < n.toNat → n.toNat ≤ u.fifo.cap.toNat → u.fifo.cap.toNat ≤ s.params.depthMax.toNat →
    ∃ t, step s = .next t ∧
      if n.toNat ≤ availSeen u.fifo then
        OnlyUnit { s with schedule := ts } t x ∧
          ∃ y out, t.replies =
              ⟨.con x, { err := false, value := BitVec.ofNat 32 n.toNat, data := .words out }⟩ :: s.replies ∧
            t.fifos[x]? = some { u with fifo := y, con := .idle } ∧ PopEffect u.fifo y n.toNat out
      else t = { s with schedule := ts }

/-- R49, R50: SYNC_H (SYNC_T) with draw j, 1 ≤ j ≤ the length of the channel, delivers the j-th published value to the
view and drops it and those before it; no other instance, no port, no register and no memory changes. -/
def Obligations.SyncDeliversDrawnValue : Prop :=
  ∀ (s : State) (f : FifoName) (x : Fifo) (j : Nat) (ts : List Turn), s.fifo? f = some x → 1 ≤ j →
    (NextEvent s (.syncH f j) ts → ∀ h : j - 1 < x.qh.length, ∃ t, step s = .next t ∧
      t.fifo? f = some { x with hview := x.qh[j - 1], qh := x.qh.drop j } ∧ (∀ g, g ≠ f → t.fifo? g = s.fifo? g) ∧
      t.replies = s.replies ∧ t.params = s.params ∧ t.schedule = ts ∧
      { t.bridge with inF := s.bridge.inF, outF := s.bridge.outF } = s.bridge ∧
      ∀ y : Nat, (t.fifos[y]?).map (fun u => (u.pushBlock, u.popBlock, u.nap, u.prd, u.con)) =
        (s.fifos[y]?).map (fun u => (u.pushBlock, u.popBlock, u.nap, u.prd, u.con))) ∧
    (NextEvent s (.syncT f j) ts → ∀ h : j - 1 < x.qt.length, ∃ t, step s = .next t ∧
      t.fifo? f = some { x with tview := x.qt[j - 1], qt := x.qt.drop j } ∧ (∀ g, g ≠ f → t.fifo? g = s.fifo? g) ∧
      t.replies = s.replies ∧ t.params = s.params ∧ t.schedule = ts ∧
      { t.bridge with inF := s.bridge.inF, outF := s.bridge.outF } = s.bridge ∧
      ∀ y : Nat, (t.fifos[y]?).map (fun u => (u.pushBlock, u.popBlock, u.nap, u.prd, u.con)) =
        (s.fifos[y]?).map (fun u => (u.pushBlock, u.popBlock, u.nap, u.prd, u.con)))

/-- R57, R58: in FIFO order, whatever the modes. A FIFO_PUSH that responds OK(k) appends the first k words of its data to
the samples in the instance and changes none of them; a FIFO_POP that responds OK(k) returns the k oldest and leaves the
rest. -/
def Obligations.TransfersKeepFifoOrder : Prop :=
  (∀ (n : Count) (s t : State) (x : Nat) (u v : Standalone) (d : List Word) (k : Word),
    IssuedOn (.fifoPush n) s x u → s.req.data = .words d → u.fifo.Live → exec (.fifoPush n) s = .next t →
    Answered s t (ok k) → t.fifos[x]? = some v → v.fifo.contents = u.fifo.contents ++ d.take k.toNat) ∧
  (∀ (n : Count) (s t : State) (x : Nat) (u v : Standalone) (out : List Word) (k : Word),
    IssuedOn (.fifoPop n) s x u → u.fifo.Live → exec (.fifoPop n) s = .next t →
    Answered s t { err := false, value := k, data := .words out } → t.fifos[x]? = some v →
    out = u.fifo.contents.take k.toNat ∧ out.length = k.toNat ∧ v.fifo.contents = u.fifo.contents.drop k.toNat)

/-- R99: into an empty quiescent non-blocking instance with IDLE ports, pushing a sequence of at most C words, delivering
the tail, and popping as many returns the sequence, wherever TAIL stands. -/
def Obligations.RoundTripReturnsSequence : Prop :=
  ∀ (s : State) (x : Nat) (u : Standalone) (d : List Word) (ts : List Turn), s.fifos[x]? = some u → u.fifo.Live →
    u.fifo.cap.toNat ≤ s.params.depthMax.toNat → u.fifo.level = 0 → u.fifo.Quiet → u.pushBlock = false →
    u.popBlock = false → u.prd = .idle → u.con = .idle → d.length ≤ u.fifo.cap.toNat →
    s.schedule = issues (.prd x) (.fifoPush (BitVec.ofNat 24 d.length)) (.words d) ::
      turnOf (.syncT (.unit x) 1) :: issues (.con x) (.fifoPop (BitVec.ofNat 24 d.length)) (.words []) :: ts →
    ∃ t, runSteps 3 s = .next t ∧ t.schedule = ts ∧ t.replies =
      ⟨.con x, { err := false, value := BitVec.ofNat 32 d.length, data := .words d }⟩ ::
        ⟨.prd x, ok (BitVec.ofNat 32 d.length)⟩ :: s.replies

/-- R100: a non-blocking push of more words than the producer side sees free answers that free count, changes no word
already in the instance, and leaves the producer side's view full: FIFO_AVAIL_WR on PRD right after it answers OK(0). -/
def Obligations.BackpressureLeavesViewFull : Prop :=
  ∀ (n : Count) (s : State) (x : Nat) (u : Standalone) (d : List Word), IssuedOn (.fifoPush n) s x u →
    s.req.data = .words d → u.fifo.Live → u.fifo.cap.toNat ≤ s.params.depthMax.toNat → u.pushBlock = false →
    freeSeen u.fifo < n.toNat →
    ∃ t v q, exec (.fifoPush n) s = .next t ∧ Answered s t (ok (BitVec.ofNat 32 (freeSeen u.fifo))) ∧
      t.fifos[x]? = some v ∧ v.fifo.contents = u.fifo.contents ++ d.take (freeSeen u.fifo) ∧
      exec .fifoAvailWr { t with req := { t.req with data := .words [] } } = .next q ∧
      q.replies = ⟨.prd x, ok 0⟩ :: t.replies

/-! ## Bridge control -/

/-- R106: BR_CONFIGURE in UNCONFIGURED or CONFIGURED with both counts in 1 .. MAX_CH sets them. -/
def Obligations.BrConfigureSetsCounts : Prop :=
  ∀ (a b : Channels) (s : State), Issued (.brConfigure a b) s →
    s.bridge.bstate = .unconfigured ∨ s.bridge.bstate = .configured → 1 ≤ a.toNat → a.toNat ≤ s.params.maxCh.toNat →
    1 ≤ b.toNat → b.toNat ≤ s.params.maxCh.toNat →
    exec (.brConfigure a b) s = .next { s with
      bridge := { s.bridge with nin := a, nout := b, bstate := .configured }
      replies := ⟨s.req.port, ok 0⟩ :: s.replies }

/-- R106, R138: in RUNNING or SHUTDOWN E_STATE, whatever the counts; else a count of 0 or above MAX_CH E_CONFIG; nothing
changes. -/
def Obligations.BrConfigureErrors : Prop :=
  ∀ (a b : Channels) (s : State), Issued (.brConfigure a b) s →
    (s.bridge.bstate = .running ∨ s.bridge.bstate = .shutdown →
      exec (.brConfigure a b) s = .next { s with replies := ⟨s.req.port, err 2⟩ :: s.replies }) ∧
    (s.bridge.bstate = .unconfigured ∨ s.bridge.bstate = .configured →
      (a.toNat = 0 ∨ s.params.maxCh.toNat < a.toNat ∨ b.toNat = 0 ∨ s.params.maxCh.toNat < b.toNat) →
      exec (.brConfigure a b) s = .next { s with replies := ⟨s.req.port, err 3⟩ :: s.replies })

/-- R107: BR_INITIALIZE in CONFIGURED with the host present and a period in 1 .. PERIOD_MAX captures period and rate and
constructs IN and OUT, empty, with FRAME_CAP frames each; their storage is not changed. The premises on the parameters and
the counts are those of `Obligations.StepKeepsInvariant`. -/
def Obligations.BrInitializeStartsBridge : Prop :=
  ∀ (s : State), Issued .brInitialize s → s.bridge.bstate = .configured → s.params.Legal →
    goodChannels s.params s.bridge.nin → goodChannels s.params s.bridge.nout → s.req.host.present = true →
    1 ≤ s.req.host.period → s.req.host.period ≤ s.params.periodMax.toNat →
    ∃ t x y, exec .brInitialize s = .next t ∧ OnlyBridge s t ∧ Answered s t (ok 0) ∧
      t.bridge = { s.bridge with
        bstate := .running, period := BitVec.ofNat 24 s.req.host.period, srate := s.req.host.rate, inF := x,
        outF := y } ∧
      t.bridge.period.toNat = s.req.host.period ∧
      x = { s.bridge.inF with
        constructed := true, cap := x.cap, head := ⟨false, 0⟩, tail := ⟨false, 0⟩, hview := ⟨false, 0⟩,
        tview := ⟨false, 0⟩, qh := [], qt := [] } ∧
      y = { s.bridge.outF with
        constructed := true, cap := y.cap, head := ⟨false, 0⟩, tail := ⟨false, 0⟩, hview := ⟨false, 0⟩,
        tview := ⟨false, 0⟩, qh := [], qt := [] } ∧
      x.cap.toNat = s.params.frameCap.toNat * s.bridge.nin.toNat ∧
      y.cap.toNat = s.params.frameCap.toNat * s.bridge.nout.toNat

/-- R107, R138: outside CONFIGURED E_STATE; else with no host E_HOST_ABSENT; else a period of 0 or above PERIOD_MAX
E_HOST_PERIOD; nothing changes. -/
def Obligations.BrInitializeErrors : Prop :=
  ∀ (s : State), Issued .brInitialize s →
    (s.bridge.bstate ≠ .configured →
      exec .brInitialize s = .next { s with replies := ⟨s.req.port, err 2⟩ :: s.replies }) ∧
    (s.bridge.bstate = .configured → s.req.host.present = false →
      exec .brInitialize s = .next { s with replies := ⟨s.req.port, err 4⟩ :: s.replies }) ∧
    (s.bridge.bstate = .configured → s.req.host.present = true →
      s.req.host.period = 0 ∨ s.params.periodMax.toNat < s.req.host.period →
      exec .brInitialize s = .next { s with replies := ⟨s.req.port, err 5⟩ :: s.replies })

/-- R108, R111: BR_SHUTDOWN reaches SHUTDOWN from every state and leaves HOST_SD; BR_HOST_SHUTDOWN reaches it from RUNNING
and sets HOST_SD, is a no-op in SHUTDOWN, and answers E_STATE before initialisation. Nothing else changes. -/
def Obligations.ShutdownCommandsStopBridge : Prop :=
  ∀ (s : State),
    (Issued .brShutdown s → exec .brShutdown s = .next { s with
      bridge := { s.bridge with bstate := .shutdown }, replies := ⟨s.req.port, ok 0⟩ :: s.replies }) ∧
    (Issued .brHostShutdown s → s.bridge.bstate = .running → exec .brHostShutdown s = .next { s with
      bridge := { s.bridge with bstate := .shutdown, hostSd := true }
      replies := ⟨s.req.port, ok 0⟩ :: s.replies }) ∧
    (Issued .brHostShutdown s → s.bridge.bstate = .shutdown →
      exec .brHostShutdown s = .next { s with replies := ⟨s.req.port, ok 0⟩ :: s.replies }) ∧
    (Issued .brHostShutdown s → s.bridge.bstate = .unconfigured ∨ s.bridge.bstate = .configured →
      exec .brHostShutdown s = .next { s with replies := ⟨s.req.port, err 2⟩ :: s.replies })

/-- R109, R112: BR_SETMODE writes RD_BLOCK and WR_BLOCK and BR_SETNAP writes NAP, in every state, and nothing else. -/
def Obligations.BridgeModeAndNapWritten : Prop :=
  ∀ (s : State),
    (∀ m0 m1, Issued (.brSetMode m0 m1) s → exec (.brSetMode m0 m1) s = .next { s with
      bridge := { s.bridge with rdBlock := m0, wrBlock := m1 }, replies := ⟨s.req.port, ok 0⟩ :: s.replies }) ∧
    (∀ n, Issued (.brSetNap n) s → exec (.brSetNap n) s = .next { s with
      bridge := { s.bridge with nap := n }, replies := ⟨s.req.port, ok 0⟩ :: s.replies })

/-- R34, R110: the fourteen registers of the bridge, as numbers, on CTL and WRK and in every BSTATE; 14 to 255 answer
E_ILLEGAL; nothing changes. -/
def Obligations.BridgeRegistersRead : Prop :=
  ∀ (reg : BitVec 8) (s : State), Issued (.brGetReg reg) s →
    ∃ t, exec (.brGetReg reg) s = .next t ∧ OnlyReplies s t ∧
      (reg.toNat < 14 → ∃ v, Answered s t (ok v) ∧
        [(match s.bridge.bstate with
            | .unconfigured => 0
            | .configured => 1
            | .running => 2
            | .shutdown => 3) + 4 * s.bridge.hostSd.toNat + 8 * s.bridge.faultBit.toNat,
          s.bridge.nin.toNat, s.bridge.nout.toNat, s.bridge.period.toNat, s.bridge.srate.toNat,
          s.bridge.ovfCnt.toNat, s.bridge.unfCnt.toNat, s.bridge.rdBlock.toNat + 2 * s.bridge.wrBlock.toNat,
          s.bridge.nap.toNat, s.params.frameCap.toNat, s.params.maxCh.toNat, s.params.periodMax.toNat,
          if s.bridge.inF.constructed = true then
            occ s.bridge.inF.tail s.bridge.inF.head s.bridge.inF.cap.toNat else 0,
          if s.bridge.outF.constructed = true then
            occ s.bridge.outF.tail s.bridge.outF.head s.bridge.outF.cap.toNat else 0][reg.toNat]? = some v.toNat) ∧
      (14 ≤ reg.toNat → Answered s t (err 1))

/-- R113: what each command does to BSTATE and HOST_SD; no other command, no synchroniser, completion or egress step
changes them. -/
def Obligations.LifecycleTransitions : Prop :=
  (∀ (i : Instr) (s t : State), Issued i s → exec i s = .next t →
    (t.bridge.bstate, t.bridge.hostSd) =
      match i with
      | .brConfigure a b =>
        if (s.bridge.bstate = .unconfigured ∨ s.bridge.bstate = .configured) ∧ goodChannels s.params a ∧
          goodChannels s.params b then (.configured, s.bridge.hostSd) else (s.bridge.bstate, s.bridge.hostSd)
      | .brInitialize =>
        if s.bridge.bstate = .configured ∧ s.req.host.present = true ∧ 1 ≤ s.req.host.period ∧
          s.req.host.period ≤ s.params.periodMax.toNat then (.running, s.bridge.hostSd)
        else (s.bridge.bstate, s.bridge.hostSd)
      | .brShutdown => (.shutdown, s.bridge.hostSd)
      | .brHostShutdown =>
        if s.bridge.bstate = .running then (.shutdown, true) else (s.bridge.bstate, s.bridge.hostSd)
      | _ => (s.bridge.bstate, s.bridge.hostSd)) ∧
  (∀ (e : Event) (s t : State), (∀ r, e ≠ .issue r) → perform e s = .next t →
    t.bridge.bstate = s.bridge.bstate ∧ t.bridge.hostSd = s.bridge.hostSd)

/-! ## Bridge stream -/

/-- R121, R138: BR_AUDIO_READY outside RUNNING answers E_STATE and changes nothing; in RUNNING with F > PERIOD it answers
E_PERIOD and sets FAULT, and nothing else. Both output silence: NOUT buffers of F zero words. -/
def Obligations.AudioReadyErrors : Prop :=
  ∀ (n : Count) (s : State), Issued (.brAudioReady n) s →
    ∃ out, Planar out s.bridge.nout.toNat n.toNat ∧ (∀ b ∈ out, ∀ w ∈ b, w = 0) ∧
      (s.bridge.bstate ≠ .running → exec (.brAudioReady n) s = .next { s with
        replies := ⟨s.req.port, { err := true, value := 2, data := .planar out }⟩ :: s.replies }) ∧
      (s.bridge.bstate = .running → s.bridge.period.toNat < n.toNat → exec (.brAudioReady n) s = .next { s with
        bridge := { s.bridge with faultBit := true }
        replies := ⟨s.req.port, { err := true, value := 6, data := .planar out }⟩ :: s.replies })

/-- R121, R129, R130: the accepting step of a callback with F ≤ PERIOD in RUNNING. The planar input becomes the
frame-major stream, in the scratch buffer; its first min(F × NIN, free) words enter IN and the newest are dropped; OVF_CNT
counts a short push, modulo 2^32; AUD is in EGRESS with the overrun bit; no response yet. Every other scratch position
reads as before, and no other field of the bridge changes. -/
def Obligations.AudioReadyIngests : Prop :=
  ∀ (n : Count) (s : State) (bufs : List (List Word)), Issued (.brAudioReady n) s → s.req.data = .planar bufs →
    s.bridge.bstate = .running → n.toNat ≤ s.bridge.period.toNat →
    s.bridge.inF.cap.toNat ≤ s.params.depthMax.toNat → n.toNat * s.bridge.nin.toNat ≤ s.params.scratchSize →
    ∃ t d k, exec (.brAudioReady n) s = .next t ∧ OnlyBridge s t ∧ t.replies = s.replies ∧
      FrameMajor d bufs s.bridge.nin.toNat n.toNat ∧ k = min (n.toNat * s.bridge.nin.toNat) (freeSeen s.bridge.inF) ∧
      PushEffect s.bridge.inF t.bridge.inF d k ∧
      t.bridge.aud = .egress n (decide (k < n.toNat * s.bridge.nin.toNat)) ∧
      t.bridge.ovfCnt = (if k < n.toNat * s.bridge.nin.toNat then s.bridge.ovfCnt + 1 else s.bridge.ovfCnt) ∧
      (∀ j, (h : j < d.length) → t.bridge.scr.read j = d[j]) ∧
      (∀ j, d.length ≤ j → t.bridge.scr.read j = s.bridge.scr.read j) ∧
      { t.bridge with
        inF := s.bridge.inF, aud := s.bridge.aud, ovfCnt := s.bridge.ovfCnt, scr := s.bridge.scr } = s.bridge

/-- R122, R128, R130: the egress step of a pending callback, in every BSTATE. It pops k = min(F × NOUT, avail) words from
OUT; word f of channel c of the output is the (f × NOUT + c)-th word popped, or the silence word where fewer were popped;
UNF_CNT counts a short pop; the response is OK(sin + 2 × sout); AUD is IDLE. -/
def Obligations.EgressAnswersCallback : Prop :=
  ∀ (s : State) (n : Count) (sin : Bool) (ts : List Turn), NextEvent s .egress ts → s.bridge.aud = .egress n sin →
    s.bridge.outF.cap.toNat ≤ s.params.depthMax.toNat → n.toNat * s.bridge.nout.toNat ≤ s.params.scratchSize →
    ∃ t out ws k v, step s = .next t ∧ OnlyBridge { s with schedule := ts } t ∧
      k = min (n.toNat * s.bridge.nout.toNat) (availSeen s.bridge.outF) ∧
      PopEffect s.bridge.outF t.bridge.outF k ws ∧ Planar out s.bridge.nout.toNat n.toNat ∧
      (∀ f < n.toNat, ∀ c < s.bridge.nout.toNat, (out[c]?).bind (fun b => b[f]?) =
        some (ws.getD (f * s.bridge.nout.toNat + c) 0)) ∧
      v.toNat = sin.toNat + 2 * (decide (k < n.toNat * s.bridge.nout.toNat)).toNat ∧
      t.replies = ⟨.aud, { err := false, value := v, data := .planar out }⟩ :: s.replies ∧
      t.bridge.unfCnt = (if k < n.toNat * s.bridge.nout.toNat then s.bridge.unfCnt + 1 else s.bridge.unfCnt) ∧
      t.bridge.aud = .idle ∧
      (∀ j, n.toNat * s.bridge.nout.toNat ≤ j → t.bridge.scr.read j = s.bridge.scr.read j) ∧
      { t.bridge with
        outF := s.bridge.outF, aud := s.bridge.aud, unfCnt := s.bridge.unfCnt, scr := s.bridge.scr } = s.bridge

/-- R124, R138, R126: BR_READ_FRAMES in RUNNING. Non-blocking, it pops what the worker side sees, up to k × NIN words;
blocking, it answers OK(0) at once where k × NIN is 0 or above C, pops all of it where the worker side sees it, and else
holds. The response is the words moved div NIN, with the words. -/
def Obligations.ReadFramesMovesOrHolds : Prop :=
  ∀ (n : Count) (s : State), Issued (.brReadFrames n) s → s.bridge.bstate = .running → s.bridge.wrk = .idle →
    s.bridge.inF.cap.toNat ≤ s.params.depthMax.toNat →
    ∃ t, exec (.brReadFrames n) s = .next t ∧ OnlyBridge s t ∧
      if s.bridge.rdBlock = true ∧ 0 < n.toNat * s.bridge.nin.toNat ∧
        n.toNat * s.bridge.nin.toNat ≤ s.bridge.inF.cap.toNat ∧
        availSeen s.bridge.inF < n.toNat * s.bridge.nin.toNat then
        t.replies = s.replies ∧ t.bridge = { s.bridge with wrk := .waitRead n true }
      else
        ∃ y k out, PopEffect s.bridge.inF y k out ∧ t.bridge = { s.bridge with inF := y } ∧
          k = (if s.bridge.rdBlock = true ∧ s.bridge.inF.cap.toNat < n.toNat * s.bridge.nin.toNat then 0
            else min (n.toNat * s.bridge.nin.toNat) (availSeen s.bridge.inF)) ∧
          Answered s t { err := false, value := BitVec.ofNat 32 (k / s.bridge.nin.toNat), data := .words out }

/-- R125, R138, R126: BR_WRITE_FRAMES in RUNNING, the same with free space and OUT. -/
def Obligations.WriteFramesMovesOrHolds : Prop :=
  ∀ (n : Count) (s : State) (d : List Word), Issued (.brWriteFrames n) s → s.req.data = .words d →
    s.bridge.bstate = .running → s.bridge.wrk = .idle → s.bridge.outF.cap.toNat ≤ s.params.depthMax.toNat →
    ∃ t, exec (.brWriteFrames n) s = .next t ∧ OnlyBridge s t ∧
      if s.bridge.wrBlock = true ∧ 0 < n.toNat * s.bridge.nout.toNat ∧
        n.toNat * s.bridge.nout.toNat ≤ s.bridge.outF.cap.toNat ∧
        freeSeen s.bridge.outF < n.toNat * s.bridge.nout.toNat then
        t.replies = s.replies ∧ t.bridge = { s.bridge with wrk := .waitWrite n d true }
      else
        ∃ y k, PushEffect s.bridge.outF y d k ∧ t.bridge = { s.bridge with outF := y } ∧
          k = (if s.bridge.wrBlock = true ∧ s.bridge.outF.cap.toNat < n.toNat * s.bridge.nout.toNat then 0
            else min (n.toNat * s.bridge.nout.toNat) (freeSeen s.bridge.outF)) ∧
          Answered s t (ok (BitVec.ofNat 32 (k / s.bridge.nout.toNat)))

/-- R124, R125, R138: a worker transfer answers E_SHUTDOWN in SHUTDOWN and E_STATE before initialisation; nothing
changes. -/
def Obligations.WorkerTransferErrors : Prop :=
  ∀ (i : Instr) (n : Count) (s : State), i = .brReadFrames n ∨ i = .brWriteFrames n → Issued i s →
    (s.bridge.bstate = .shutdown → exec i s = .next { s with replies := ⟨s.req.port, err 7⟩ :: s.replies }) ∧
    (s.bridge.bstate = .unconfigured ∨ s.bridge.bstate = .configured →
      exec i s = .next { s with replies := ⟨s.req.port, err 2⟩ :: s.replies })

/-- R126: a re-check of a held worker command. In SHUTDOWN it is released with ERR(E_SHUTDOWN) and nothing moves; else it
completes exactly where the worker side now sees all of it, with the kept operands; else the state stays as it was. -/
def Obligations.HeldWorkerCompletesOrReleased : Prop :=
  ∀ (s : State) (n : Count) (d : List Word) (ts : List Turn), NextEvent s (.recheck .wrk) ts →
    (s.bridge.wrk = .waitRead n true ∨ s.bridge.wrk = .waitWrite n d true) →
    (s.bridge.bstate = .shutdown → step s = .next { s with
      schedule := ts, bridge := { s.bridge with wrk := .idle }, replies := ⟨.wrk, err 7⟩ :: s.replies }) ∧
    (s.bridge.bstate ≠ .shutdown → s.bridge.wrk = .waitRead n true → 0 < n.toNat * s.bridge.nin.toNat →
      n.toNat * s.bridge.nin.toNat ≤ s.bridge.inF.cap.toNat → s.bridge.inF.cap.toNat ≤ s.params.depthMax.toNat →
      ∃ t, step s = .next t ∧
        if n.toNat * s.bridge.nin.toNat ≤ availSeen s.bridge.inF then
          OnlyBridge { s with schedule := ts } t ∧
            ∃ y out, PopEffect s.bridge.inF y (n.toNat * s.bridge.nin.toNat) out ∧
              t.bridge = { s.bridge with inF := y, wrk := .idle } ∧
              t.replies = ⟨.wrk, { err := false, value := BitVec.ofNat 32 n.toNat, data := .words out }⟩ :: s.replies
        else t = { s with schedule := ts }) ∧
    (s.bridge.bstate ≠ .shutdown → s.bridge.wrk = .waitWrite n d true → d.length = n.toNat * s.bridge.nout.toNat →
      0 < n.toNat * s.bridge.nout.toNat → n.toNat * s.bridge.nout.toNat ≤ s.bridge.outF.cap.toNat →
      s.bridge.outF.cap.toNat ≤ s.params.depthMax.toNat →
      ∃ t, step s = .next t ∧
        if n.toNat * s.bridge.nout.toNat ≤ freeSeen s.bridge.outF then
          OnlyBridge { s with schedule := ts } t ∧
            ∃ y, PushEffect s.bridge.outF y d (n.toNat * s.bridge.nout.toNat) ∧
              t.bridge = { s.bridge with outF := y, wrk := .idle } ∧
              t.replies = ⟨.wrk, ok (BitVec.ofNat 32 n.toNat)⟩ :: s.replies
        else t = { s with schedule := ts })

/-! ## Whole-machine rules -/

/-- R35, R140: a step without reset never clears FAULT, and sets it only by a BR_AUDIO_READY with F > PERIOD in RUNNING,
which is answered E_PERIOD. -/
def Obligations.FaultIsSticky : Prop :=
  ∀ (s t : State) (e : Option Event) (ts : List Turn), s.schedule = { rst := false, ev := e } :: ts →
    step s = .next t →
    (s.bridge.faultBit = true → t.bridge.faultBit = true) ∧
    (s.bridge.faultBit = false → t.bridge.faultBit = true →
      ∃ r n o, e = some (.issue r) ∧ decode r.port.kind r.word = .ok (.brAudioReady n) ∧ s.bridge.bstate = .running ∧
        s.bridge.period.toNat < n.toNat ∧ t.replies = ⟨r.port, { err := true, value := 6, data := o }⟩ :: s.replies)

/-- R137: the command that gets an error response changes no state, except E_PERIOD, which sets FAULT and nothing
else. -/
def Obligations.ErrorsChangeNothing : Prop :=
  ∀ (i : Instr) (s t : State) (p : Port) (r : Response), exec i s = .next t → t.replies = ⟨p, r⟩ :: s.replies →
    r.err = true → p = s.req.port ∧
      ((r.value ≠ 6 ∧ { t with replies := s.replies } = s) ∨
        (r.value = 6 ∧ { t with replies := s.replies } = { s with bridge := { s.bridge with faultBit := true } }))

/-- R47: the five reads have no side effect, and two of them with no step of another agent between return the same. -/
def Obligations.ReadsHaveNoSideEffect : Prop :=
  ∀ (i : Instr) (s t : State),
    ((∃ g, i = .fifoGetReg g) ∨ i = .fifoAvailWr ∨ i = .fifoAvailRd ∨ i = .fifoIsLockFree ∨ (∃ g, i = .brGetReg g)) →
    exec i s = .next t →
    ∃ r, t = { s with replies := r :: s.replies } ∧ exec i t = .next { t with replies := r :: t.replies }

/-- R15, R65: a command taken up on an IDLE port either gives exactly one response, on its port, and leaves the port
IDLE, or gives none and leaves the port holding. -/
def Obligations.OneResponseOrHold : Prop :=
  ∀ (i : Instr) (s t : State), s.portBusy s.req.port = some false → exec i s = .next t →
    (∃ r, Answered s t r ∧ t.portBusy s.req.port = some false) ∨
      (t.replies = s.replies ∧ t.portBusy s.req.port = some true)

/-- R8, R24, R34: no step, reset included, changes a parameter or the number of standalone instances of a state that has
the number the parameters give. -/
def Obligations.ParametersAreHardwired : Prop :=
  ∀ (s t : State), step s = .next t →
    t.params = s.params ∧
      (s.fifos.length = s.params.extraFifos + 1 → t.fifos.length = t.params.extraFifos + 1)

/-- Every memory operation keeps the canonical form (log 5): whatever the state, a step takes memories in canonical form
to memories in canonical form. -/
def Obligations.MemoriesStayCanonical : Prop :=
  ∀ (s t : State), s.memoriesWf → step s = .next t → t.memoriesWf

/-! ## The invariant -/

/-- The machine has the invariant after reset, with any legal parameters. -/
def Obligations.ResetHasInvariant : Prop :=
  (∀ (p : Params) (e : Nat), p.Legal → (State.resetOf p e).Inv) ∧ State.reset.Inv

/-- Every step keeps the invariant: R23 of every instance, the storage and scratch bounds (R8, R33, R42), what each
lifecycle value implies (R31), and what a held command has kept (R93, R126). -/
def Obligations.StepKeepsInvariant : Prop :=
  ∀ (s t : State), s.Inv → step s = .next t → t.Inv

/-- R23, items 1 to 6, for a constructed instance, standalone or in the bridge, in a state with the invariant. -/
def Obligations.InvariantBoundsViews : Prop :=
  ∀ (s : State) (f : FifoName) (x : Fifo), s.Inv → s.fifo? f = some x → x.constructed = true →
    occ x.tail x.head x.cap.toNat ≤ x.cap.toNat ∧
      (x.qh = [] → x.hview = x.head) ∧ (x.qh ≠ [] → x.qh.getLast? = some x.head) ∧
      (x.qt = [] → x.tview = x.tail) ∧ (x.qt ≠ [] → x.qt.getLast? = some x.tail) ∧
      occ x.tail x.head x.cap.toNat ≤ occ x.tail x.hview x.cap.toNat ∧
      occ x.tail x.hview x.cap.toNat ≤ x.cap.toNat ∧
      occ x.tview x.head x.cap.toNat ≤ occ x.tail x.head x.cap.toNat

/-- R33, R42, R56, R158: in a state with the invariant no step reaches a storage slot or a scratch position that does not
exist, and every sample a pop can reach lies in a slot written since reset. -/
def Obligations.NoStepFaults : Prop :=
  ∀ (s : State), s.Inv → (∀ q, step s ≠ .fault q) ∧
    ∀ (f : FifoName) (x : Fifo) (i : Nat), s.fifo? f = some x → i < availSeen x →
      x.store.written ((x.head.idx.toNat + i) % x.cap.toNat) = true

/-- R127: in a state with the invariant, a step keeps IN's indices whole frames of NIN words and OUT's of NOUT words. -/
def Obligations.FrameAlignmentKept : Prop :=
  ∀ (s t : State), s.Inv → s.bridge.Aligned → step s = .next t → t.bridge.Aligned

/-- R127: with IN and OUT built and aligned, the free space and the samples each side sees are whole frames, so every
short count is. -/
def Obligations.SeenCountsAreWholeFrames : Prop :=
  ∀ (s : State), s.Inv → s.bridge.Built s.params → s.bridge.Aligned →
    s.bridge.nin.toNat ∣ freeSeen s.bridge.inF ∧ s.bridge.nin.toNat ∣ availSeen s.bridge.inF ∧
      s.bridge.nout.toNat ∣ freeSeen s.bridge.outF ∧ s.bridge.nout.toNat ∣ availSeen s.bridge.outF

/-- R128: with NIN = NOUT and IN and OUT empty and quiescent, a callback's input, read by the worker as frames and written
back, is the next callback's output, channel by channel. -/
def Obligations.CallbackRoundTripReshapes : Prop :=
  ∀ (s : State) (n : Count) (bufs bufs' : List (List Word)) (d : List Word) (ts : List Turn), s.Inv →
    s.bridge.bstate = .running → s.bridge.nin = s.bridge.nout → s.bridge.inF.level = 0 → s.bridge.outF.level = 0 →
    s.bridge.inF.Quiet → s.bridge.outF.Quiet → s.bridge.aud = .idle → s.bridge.wrk = .idle →
    n.toNat ≤ s.bridge.period.toNat → n.toNat ≤ s.params.frameCap.toNat →
    Planar bufs s.bridge.nin.toNat n.toNat → Planar bufs' s.bridge.nin.toNat n.toNat →
    FrameMajor d bufs s.bridge.nin.toNat n.toNat →
    s.schedule = issues .aud (.brAudioReady n) (.planar bufs) :: turnOf .egress :: turnOf (.syncT .input 1) ::
      issues .wrk (.brReadFrames n) (.words []) :: issues .wrk (.brWriteFrames n) (.words d) ::
      turnOf (.syncT .output 1) :: issues .aud (.brAudioReady n) (.planar bufs') :: turnOf .egress :: ts →
    ∃ t v v' out, runSteps 8 s = .next t ∧ t.replies =
      ⟨.aud, { err := false, value := v, data := .planar bufs }⟩ :: ⟨.wrk, ok (BitVec.ofNat 32 n.toNat)⟩ ::
        ⟨.wrk, { err := false, value := BitVec.ofNat 32 n.toNat, data := .words d }⟩ ::
        ⟨.aud, { err := false, value := v', data := .planar out }⟩ :: s.replies

/-! ## Progress -/

/-- R93, R126: once the completion or release of a held command is enabled it stays enabled until it is taken: no other
step but reset disables it. -/
def Obligations.CompletionStaysEnabled : Prop :=
  ∀ (s t : State) (p : Port) (e : Option Event) (ts : List Turn), s.Inv → s.completionReady p = true →
    s.schedule = { rst := false, ev := e } :: ts → e ≠ some (.recheck p) → step s = .next t →
    t.completionReady p = true

/-- R51: in a weakly fair run without reset, from a state with the invariant, the first value in an index channel is
eventually delivered or passed over: a SYNC step removes it, the values published before then still in order behind it. -/
def Obligations.FairRunDeliversPublished : Prop :=
  ∀ (r : Run) (n : Nat) (f : FifoName) (x : Fifo), r.WeaklyFair → r.NoReset → (r.state n).Inv →
    (r.state n).fifo? f = some x →
    (x.qh ≠ [] → ∃ m ≥ n, ∃ y z j, (r.state m).fifo? f = some y ∧ (r.state (m + 1)).fifo? f = some z ∧
      x.qh <+: y.qh ∧ 1 ≤ j ∧ y.qh[j - 1]? = some z.hview ∧ z.qh = y.qh.drop j) ∧
    (x.qt ≠ [] → ∃ m ≥ n, ∃ y z j, (r.state m).fifo? f = some y ∧ (r.state (m + 1)).fifo? f = some z ∧
      x.qt <+: y.qt ∧ 1 ≤ j ∧ y.qt[j - 1]? = some z.tview ∧ z.qt = y.qt.drop j)

/-- R126, R93: in a weakly fair run without reset, from a state with the invariant, a worker command held in SHUTDOWN is
eventually released with ERR(E_SHUTDOWN). -/
def Obligations.FairRunReleasesHeldWorker : Prop :=
  ∀ (r : Run) (n : Nat), r.WeaklyFair → r.NoReset → (r.state n).Inv → (r.state n).bridge.bstate = .shutdown →
    (r.state n).bridge.wrk ≠ .idle →
    ∃ m ≥ n, (r.state (m + 1)).replies = ⟨.wrk, err 7⟩ :: (r.state m).replies ∧
      (r.state (m + 1)).bridge.wrk = .idle
end

