-- ==== Sys2Proof/Laws/State.lean ====
section
/-! SUPPORT. One lemma per field per update of State, and of an instance, true by unfolding; and what an update of an
instance does to the list of instances. -/

namespace Sys2Proof.Machine

/-! ### State.setUnit -/

@[simp] theorem State.setUnit_params (s : State) (x : Nat) (u : Standalone) : (s.setUnit x u).params = s.params := rfl
@[simp] theorem State.setUnit_fifos (s : State) (x : Nat) (u : Standalone) : (s.setUnit x u).fifos = s.fifos.set x u := rfl
@[simp] theorem State.setUnit_bridge (s : State) (x : Nat) (u : Standalone) : (s.setUnit x u).bridge = s.bridge := rfl
@[simp] theorem State.setUnit_schedule (s : State) (x : Nat) (u : Standalone) : (s.setUnit x u).schedule = s.schedule := rfl
@[simp] theorem State.setUnit_req (s : State) (x : Nat) (u : Standalone) : (s.setUnit x u).req = s.req := rfl
@[simp] theorem State.setUnit_replies (s : State) (x : Nat) (u : Standalone) : (s.setUnit x u).replies = s.replies := rfl
@[simp] theorem State.setUnit_epoch (s : State) (x : Nat) (u : Standalone) : (s.setUnit x u).epoch = s.epoch := rfl

/-! ### State.setBridge -/

@[simp] theorem State.setBridge_params (s : State) (b : Bridge) : (s.setBridge b).params = s.params := rfl
@[simp] theorem State.setBridge_fifos (s : State) (b : Bridge) : (s.setBridge b).fifos = s.fifos := rfl
@[simp] theorem State.setBridge_bridge (s : State) (b : Bridge) : (s.setBridge b).bridge = b := rfl
@[simp] theorem State.setBridge_schedule (s : State) (b : Bridge) : (s.setBridge b).schedule = s.schedule := rfl
@[simp] theorem State.setBridge_req (s : State) (b : Bridge) : (s.setBridge b).req = s.req := rfl
@[simp] theorem State.setBridge_replies (s : State) (b : Bridge) : (s.setBridge b).replies = s.replies := rfl
@[simp] theorem State.setBridge_epoch (s : State) (b : Bridge) : (s.setBridge b).epoch = s.epoch := rfl

/-! ### State.setSchedule -/

@[simp] theorem State.setSchedule_params (s : State) (ts : List Turn) : (s.setSchedule ts).params = s.params := rfl
@[simp] theorem State.setSchedule_fifos (s : State) (ts : List Turn) : (s.setSchedule ts).fifos = s.fifos := rfl
@[simp] theorem State.setSchedule_bridge (s : State) (ts : List Turn) : (s.setSchedule ts).bridge = s.bridge := rfl
@[simp] theorem State.setSchedule_schedule (s : State) (ts : List Turn) : (s.setSchedule ts).schedule = ts := rfl
@[simp] theorem State.setSchedule_req (s : State) (ts : List Turn) : (s.setSchedule ts).req = s.req := rfl
@[simp] theorem State.setSchedule_replies (s : State) (ts : List Turn) : (s.setSchedule ts).replies = s.replies := rfl
@[simp] theorem State.setSchedule_epoch (s : State) (ts : List Turn) : (s.setSchedule ts).epoch = s.epoch := rfl

/-! ### State.latch -/

@[simp] theorem State.latch_params (s : State) (r : Request) : (s.latch r).params = s.params := rfl
@[simp] theorem State.latch_fifos (s : State) (r : Request) : (s.latch r).fifos = s.fifos := rfl
@[simp] theorem State.latch_bridge (s : State) (r : Request) : (s.latch r).bridge = s.bridge := rfl
@[simp] theorem State.latch_schedule (s : State) (r : Request) : (s.latch r).schedule = s.schedule := rfl
@[simp] theorem State.latch_req (s : State) (r : Request) : (s.latch r).req = r := rfl
@[simp] theorem State.latch_replies (s : State) (r : Request) : (s.latch r).replies = s.replies := rfl
@[simp] theorem State.latch_epoch (s : State) (r : Request) : (s.latch r).epoch = s.epoch := rfl

/-! ### State.answer -/

@[simp] theorem State.answer_params (s : State) (p : Port) (r : Response) : (s.answer p r).params = s.params := rfl
@[simp] theorem State.answer_fifos (s : State) (p : Port) (r : Response) : (s.answer p r).fifos = s.fifos := rfl
@[simp] theorem State.answer_bridge (s : State) (p : Port) (r : Response) : (s.answer p r).bridge = s.bridge := rfl
@[simp] theorem State.answer_schedule (s : State) (p : Port) (r : Response) : (s.answer p r).schedule = s.schedule := rfl
@[simp] theorem State.answer_req (s : State) (p : Port) (r : Response) : (s.answer p r).req = s.req := rfl
@[simp] theorem State.answer_replies (s : State) (p : Port) (r : Response) : (s.answer p r).replies = ⟨p, r⟩ :: s.replies := rfl
@[simp] theorem State.answer_epoch (s : State) (p : Port) (r : Response) : (s.answer p r).epoch = s.epoch := rfl

/-! ### State.respond -/

@[simp] theorem State.respond_params (s : State) (r : Response) : (s.respond r).params = s.params := rfl
@[simp] theorem State.respond_fifos (s : State) (r : Response) : (s.respond r).fifos = s.fifos := rfl
@[simp] theorem State.respond_bridge (s : State) (r : Response) : (s.respond r).bridge = s.bridge := rfl
@[simp] theorem State.respond_schedule (s : State) (r : Response) : (s.respond r).schedule = s.schedule := rfl
@[simp] theorem State.respond_req (s : State) (r : Response) : (s.respond r).req = s.req := rfl
@[simp] theorem State.respond_replies (s : State) (r : Response) : (s.respond r).replies = ⟨s.req.port, r⟩ :: s.replies := rfl
@[simp] theorem State.respond_epoch (s : State) (r : Response) : (s.respond r).epoch = s.epoch := rfl

/-! ### State.fail -/

@[simp] theorem State.fail_params (s : State) (e : ErrCode) : (s.fail e).params = s.params := rfl
@[simp] theorem State.fail_fifos (s : State) (e : ErrCode) : (s.fail e).fifos = s.fifos := rfl
@[simp] theorem State.fail_bridge (s : State) (e : ErrCode) : (s.fail e).bridge = s.bridge := rfl
@[simp] theorem State.fail_schedule (s : State) (e : ErrCode) : (s.fail e).schedule = s.schedule := rfl
@[simp] theorem State.fail_req (s : State) (e : ErrCode) : (s.fail e).req = s.req := rfl
@[simp] theorem State.fail_replies (s : State) (e : ErrCode) : (s.fail e).replies = ⟨s.req.port, .error e⟩ :: s.replies := rfl
@[simp] theorem State.fail_epoch (s : State) (e : ErrCode) : (s.fail e).epoch = s.epoch := rfl

/-! ### Fifo.pushMove -/

@[simp] theorem Fifo.pushMove_constructed (x : Fifo) (d : List Word) (k : Nat) : (x.pushMove d k).constructed = x.constructed := by
  unfold pushMove; split <;> rfl
@[simp] theorem Fifo.pushMove_cap (x : Fifo) (d : List Word) (k : Nat) : (x.pushMove d k).cap = x.cap := by
  unfold pushMove; split <;> rfl
@[simp] theorem Fifo.pushMove_head (x : Fifo) (d : List Word) (k : Nat) : (x.pushMove d k).head = x.head := by
  unfold pushMove; split <;> rfl
@[simp] theorem Fifo.pushMove_hview (x : Fifo) (d : List Word) (k : Nat) : (x.pushMove d k).hview = x.hview := by
  unfold pushMove; split <;> rfl
@[simp] theorem Fifo.pushMove_tview (x : Fifo) (d : List Word) (k : Nat) : (x.pushMove d k).tview = x.tview := by
  unfold pushMove; split <;> rfl
@[simp] theorem Fifo.pushMove_qh (x : Fifo) (d : List Word) (k : Nat) : (x.pushMove d k).qh = x.qh := by
  unfold pushMove; split <;> rfl

/-! ### Fifo.popMove -/

@[simp] theorem Fifo.popMove_constructed (x : Fifo) (k : Nat) : (x.popMove k).constructed = x.constructed := by
  unfold popMove; split <;> rfl
@[simp] theorem Fifo.popMove_cap (x : Fifo) (k : Nat) : (x.popMove k).cap = x.cap := by
  unfold popMove; split <;> rfl
@[simp] theorem Fifo.popMove_store (x : Fifo) (k : Nat) : (x.popMove k).store = x.store := by
  unfold popMove; split <;> rfl
@[simp] theorem Fifo.popMove_tail (x : Fifo) (k : Nat) : (x.popMove k).tail = x.tail := by
  unfold popMove; split <;> rfl
@[simp] theorem Fifo.popMove_hview (x : Fifo) (k : Nat) : (x.popMove k).hview = x.hview := by
  unfold popMove; split <;> rfl
@[simp] theorem Fifo.popMove_tview (x : Fifo) (k : Nat) : (x.popMove k).tview = x.tview := by
  unfold popMove; split <;> rfl
@[simp] theorem Fifo.popMove_qt (x : Fifo) (k : Nat) : (x.popMove k).qt = x.qt := by
  unfold popMove; split <;> rfl

/-! ### Fifo.syncH -/

@[simp] theorem Fifo.syncH_constructed (x : Fifo) (j : Nat) : (x.syncH j).constructed = x.constructed := by
  unfold syncH; split
  · rfl
  · split <;> rfl
@[simp] theorem Fifo.syncH_cap (x : Fifo) (j : Nat) : (x.syncH j).cap = x.cap := by
  unfold syncH; split
  · rfl
  · split <;> rfl
@[simp] theorem Fifo.syncH_store (x : Fifo) (j : Nat) : (x.syncH j).store = x.store := by
  unfold syncH; split
  · rfl
  · split <;> rfl
@[simp] theorem Fifo.syncH_head (x : Fifo) (j : Nat) : (x.syncH j).head = x.head := by
  unfold syncH; split
  · rfl
  · split <;> rfl
@[simp] theorem Fifo.syncH_tail (x : Fifo) (j : Nat) : (x.syncH j).tail = x.tail := by
  unfold syncH; split
  · rfl
  · split <;> rfl
@[simp] theorem Fifo.syncH_tview (x : Fifo) (j : Nat) : (x.syncH j).tview = x.tview := by
  unfold syncH; split
  · rfl
  · split <;> rfl
@[simp] theorem Fifo.syncH_qt (x : Fifo) (j : Nat) : (x.syncH j).qt = x.qt := by
  unfold syncH; split
  · rfl
  · split <;> rfl

/-! ### Fifo.syncT -/

@[simp] theorem Fifo.syncT_constructed (x : Fifo) (j : Nat) : (x.syncT j).constructed = x.constructed := by
  unfold syncT; split
  · rfl
  · split <;> rfl
@[simp] theorem Fifo.syncT_cap (x : Fifo) (j : Nat) : (x.syncT j).cap = x.cap := by
  unfold syncT; split
  · rfl
  · split <;> rfl
@[simp] theorem Fifo.syncT_store (x : Fifo) (j : Nat) : (x.syncT j).store = x.store := by
  unfold syncT; split
  · rfl
  · split <;> rfl
@[simp] theorem Fifo.syncT_head (x : Fifo) (j : Nat) : (x.syncT j).head = x.head := by
  unfold syncT; split
  · rfl
  · split <;> rfl
@[simp] theorem Fifo.syncT_tail (x : Fifo) (j : Nat) : (x.syncT j).tail = x.tail := by
  unfold syncT; split
  · rfl
  · split <;> rfl
@[simp] theorem Fifo.syncT_hview (x : Fifo) (j : Nat) : (x.syncT j).hview = x.hview := by
  unfold syncT; split
  · rfl
  · split <;> rfl
@[simp] theorem Fifo.syncT_qh (x : Fifo) (j : Nat) : (x.syncT j).qh = x.qh := by
  unfold syncT; split
  · rfl
  · split <;> rfl

/-! ### Fifo.construct -/

@[simp] theorem Fifo.construct_constructed (x : Fifo) (c : Count) : (x.construct c).constructed = true := rfl
@[simp] theorem Fifo.construct_cap (x : Fifo) (c : Count) : (x.construct c).cap = c := rfl
@[simp] theorem Fifo.construct_store (x : Fifo) (c : Count) : (x.construct c).store = x.store := rfl
@[simp] theorem Fifo.construct_head (x : Fifo) (c : Count) : (x.construct c).head = .zero := rfl
@[simp] theorem Fifo.construct_tail (x : Fifo) (c : Count) : (x.construct c).tail = .zero := rfl
@[simp] theorem Fifo.construct_hview (x : Fifo) (c : Count) : (x.construct c).hview = .zero := rfl
@[simp] theorem Fifo.construct_tview (x : Fifo) (c : Count) : (x.construct c).tview = .zero := rfl
@[simp] theorem Fifo.construct_qh (x : Fifo) (c : Count) : (x.construct c).qh = [] := rfl
@[simp] theorem Fifo.construct_qt (x : Fifo) (c : Count) : (x.construct c).qt = [] := rfl

/-! ### The list of instances -/

theorem State.setUnit_get_self {s : State} {x : Nat} {u v : Standalone} (h : s.fifos[x]? = some u) :
    (s.setUnit x v).fifos[x]? = some v := by
  have := (List.getElem?_eq_some_iff.1 h).1
  simp [this]

theorem State.setUnit_get_ne (s : State) {x y : Nat} (u : Standalone) (h : y ≠ x) :
    (s.setUnit x u).fifos[y]? = s.fifos[y]? := by
  simp [List.getElem?_set_ne (Ne.symm h)]

theorem State.setUnit_same {s : State} {x : Nat} {u : Standalone} (h : s.fifos[x]? = some u) : s.setUnit x u = s := by
  obtain ⟨hx, rfl⟩ := List.getElem?_eq_some_iff.1 h
  simp [State.setUnit]

@[simp] theorem State.setUnit_setUnit (s : State) (x : Nat) (u v : Standalone) :
    (s.setUnit x u).setUnit x v = s.setUnit x v := by
  simp [State.setUnit]

/-- A property of every instance is kept by replacing one with an instance that has it. -/
theorem State.setUnit_forall {s : State} {x : Nat} {u : Standalone} {P : Standalone → Prop} (h : ∀ v ∈ s.fifos, P v)
    (hu : P u) : ∀ v ∈ (s.setUnit x u).fifos, P v := by
  intro v hv
  rcases List.mem_or_eq_of_mem_set hv with hv | rfl
  · exact h v hv
  · exact hu

end Sys2Proof.Machine
end

