-- ==== Sys2Proof/Laws/Ops.lean ====
section
/-! SUPPORT. What each shared operation of the acceptance of a command can answer. -/

namespace Sys2Proof.Machine

/-- Everything `accepting` can answer. -/
theorem accepting_cases (i : Instr) (s : State) (run : Result) :
    (i.acceptedOn s.req.port.kind = true ∧ i.dataFits s.bridge.nin s.bridge.nout s.req.data = true ∧
        accepting i s run = run) ∨
      (i.acceptedOn s.req.port.kind = true ∧ i.dataFits s.bridge.nin s.bridge.nout s.req.data = false ∧
        accepting i s run = .refused .malformedData) ∨
      (i.acceptedOn s.req.port.kind = false ∧ accepting i s run = .next (s.fail .illegal)) := by
  unfold accepting
  cases h1 : i.acceptedOn s.req.port.kind <;>
    cases h2 : i.dataFits s.bridge.nin s.bridge.nout s.req.data <;> simp

/-- `accepting` runs a well-formed command. -/
theorem accepting_run {i : Instr} {s : State} {run : Result} (h1 : i.acceptedOn s.req.port.kind = true)
    (h2 : i.dataFits s.bridge.nin s.bridge.nout s.req.data = true) : accepting i s run = run := by
  simp [accepting, h1, h2]

/-- If a command is taken up and answers a next state, either it ran, or it was illegal on its port. -/
theorem accepting_next {i : Instr} {s t : State} {run : Result} (h : accepting i s run = .next t) :
    run = .next t ∨ t = s.fail .illegal := by
  rcases accepting_cases i s run with ⟨-, -, e⟩ | ⟨-, -, e⟩ | ⟨-, e⟩ <;> rw [e] at h
  · exact .inl h
  · cases h
  · injection h with h
    exact .inr h.symm

/-- `onUnit` runs on the instance of the request's port. -/
theorem onUnit_run {s : State} {run : Nat → Standalone → Result} {x : Nat} {u : Standalone}
    (hp : s.req.port.unitNo = some x) (hu : s.fifos[x]? = some u) : onUnit s run = run x u := by
  simp [onUnit, hp, hu]

/-- If `onUnit` answers a next state, either it ran on an instance, or the port belongs to none. -/
theorem onUnit_next {s t : State} {run : Nat → Standalone → Result} (h : onUnit s run = .next t) :
    (∃ x u, s.req.port.unitNo = some x ∧ s.fifos[x]? = some u ∧ run x u = .next t) ∨ t = s.fail .illegal := by
  unfold onUnit at h
  split at h
  · injection h with h
    exact .inr h.symm
  · rename_i x hx
    split at h
    · cases h
    · rename_i u hu
      exact .inl ⟨x, u, hx, hu, h⟩

theorem inStorage_run {s : State} {x : Fifo} {run : Result} (h : x.cap.toNat ≤ s.params.depthMax.toNat) :
    inStorage s x run = run := if_pos h

theorem inStorage_next {s t : State} {x : Fifo} {run : Result} (h : inStorage s x run = .next t) :
    x.cap.toNat ≤ s.params.depthMax.toNat ∧ run = .next t := by
  unfold inStorage at h
  split at h
  · exact ⟨‹_›, h⟩
  · cases h

theorem inScratch_run {s : State} {n : Nat} {run : Result} (h : n ≤ s.params.scratchSize) : inScratch s n run = run :=
  if_pos h

theorem inScratch_next {s t : State} {n : Nat} {run : Result} (h : inScratch s n run = .next t) :
    n ≤ s.params.scratchSize ∧ run = .next t := by
  unfold inScratch at h
  split at h
  · exact ⟨‹_›, h⟩
  · cases h

/-- A worker transfer that answers a next state ran, or was refused with an error (R138). -/
theorem workerChecks_next {s t : State} {run : Result} (h : workerChecks s run = .next t) :
    (s.bridge.bstate = .running ∧ run = .next t) ∨ (s.bridge.bstate = .shutdown ∧ t = s.fail .shutdown) ∨
      (s.bridge.bstate ≠ .shutdown ∧ s.bridge.bstate ≠ .running ∧ t = s.fail .state) := by
  unfold workerChecks at h
  split at h
  · injection h with h
    exact .inr (.inl ⟨‹_›, h.symm⟩)
  · split at h
    · injection h with h
      exact .inr (.inr ⟨‹_›, ‹_›, h.symm⟩)
    · rename_i h1 h2
      exact .inl ⟨not_not.1 h2, h⟩

theorem workerChecks_run {s : State} {run : Result} (h : s.bridge.bstate = .running) : workerChecks s run = run := by
  simp [workerChecks, h]

end Sys2Proof.Machine
end

