-- ==== Sys2Proof/Laws/Exec.lean ====
section
/-! SUPPORT. Everything a command, an event of an agent, and a step can do, guards included, said once: later proofs
cite these case lists and do not unfold the meanings. -/

namespace Sys2Proof.Machine

/-- The commands that only read (20_memory.md R47). -/
def isRead (i : Instr) : Prop :=
  (∃ g, i = .fifoGetReg g) ∨ i = .fifoAvailWr ∨ i = .fifoAvailRd ∨ i = .fifoIsLockFree ∨ (∃ g, i = .brGetReg g)

/-- The next states of the commands. -/
inductive ExecCase (s : State) : Instr → State → Prop where
  | error (i : Instr) (e : ErrCode) (he : e ≠ .period) : ExecCase s i (s.fail e)
  | read (i : Instr) (v : Word) (hi : isRead i) : ExecCase s i (s.respond (.ok v))
  | fifoInit (n : Count) (x : Nat) (u : Standalone) (hp : s.req.port = .cfg x) (hu : s.fifos[x]? = some u)
      (hc : u.fifo.constructed = false) (h1 : 0 < n.toNat) (h2 : n.toNat ≤ s.params.depthMax.toNat) :
      ExecCase s (.fifoInit n) ((s.setUnit x { u with fifo := u.fifo.construct n }).respond (.ok 0))
  | fifoSetMode (m0 m1 : Bool) (x : Nat) (u : Standalone) (hp : s.req.port = .cfg x) (hu : s.fifos[x]? = some u) :
      ExecCase s (.fifoSetMode m0 m1) ((s.setUnit x { u with pushBlock := m0, popBlock := m1 }).respond (.ok 0))
  | fifoSetNap (n : Count) (x : Nat) (u : Standalone) (hp : s.req.port = .cfg x) (hu : s.fifos[x]? = some u) :
      ExecCase s (.fifoSetNap n) ((s.setUnit x { u with nap := n }).respond (.ok 0))
  | fifoPush (n : Count) (d : List Word) (x : Nat) (u : Standalone) (hp : s.req.port = .prd x)
      (hu : s.fifos[x]? = some u) (hd : s.req.data = .words d) (hl : d.length = n.toNat)
      (hc : u.fifo.constructed = true) (hs : u.fifo.cap.toNat ≤ s.params.depthMax.toNat) :
      ExecCase s (.fifoPush n) (pushStep s x u n d u.pushBlock)
  | fifoPop (n : Count) (x : Nat) (u : Standalone) (hp : s.req.port = .con x) (hu : s.fifos[x]? = some u)
      (hc : u.fifo.constructed = true) (hs : u.fifo.cap.toNat ≤ s.params.depthMax.toNat) :
      ExecCase s (.fifoPop n) (popStep s x u n u.popBlock)
  | brConfigure (a b : Channels) (hp : s.req.port = .ctl)
      (hb : s.bridge.bstate = .unconfigured ∨ s.bridge.bstate = .configured) (ha : ¬badChannels s.params a)
      (hb' : ¬badChannels s.params b) :
      ExecCase s (.brConfigure a b)
        ((s.setBridge { s.bridge with nin := a, nout := b, bstate := .configured }).respond (.ok 0))
  | brInitialize (hp : s.req.port = .ctl) (hb : s.bridge.bstate = .configured) (hh : s.req.host.present = true)
      (h1 : 0 < s.req.host.period) (h2 : s.req.host.period ≤ s.params.periodMax.toNat) :
      ExecCase s .brInitialize ((s.setBridge (s.bridge.start s.params s.req.host)).respond (.ok 0))
  | brShutdown (hp : s.req.port = .ctl) :
      ExecCase s .brShutdown ((s.setBridge { s.bridge with bstate := .shutdown }).respond (.ok 0))
  | brSetMode (m0 m1 : Bool) (hp : s.req.port = .ctl) :
      ExecCase s (.brSetMode m0 m1) ((s.setBridge { s.bridge with rdBlock := m0, wrBlock := m1 }).respond (.ok 0))
  | brSetNap (n : Count) (hp : s.req.port = .ctl) :
      ExecCase s (.brSetNap n) ((s.setBridge { s.bridge with nap := n }).respond (.ok 0))
  | brHostShutdown (hp : s.req.port = .aud) (hb : s.bridge.bstate = .running) :
      ExecCase s .brHostShutdown
        ((s.setBridge { s.bridge with bstate := .shutdown, hostSd := true }).respond (.ok 0))
  | brHostShutdownAgain (hp : s.req.port = .aud) (hb : s.bridge.bstate = .shutdown) :
      ExecCase s .brHostShutdown (s.respond (.ok 0))
  | audioStopped (n : Count) (hp : s.req.port = .aud) (hb : s.bridge.bstate ≠ .running) :
      ExecCase s (.brAudioReady n)
        (s.respond (.error .state (.planar (silentBuffers s.bridge.nout.toNat n.toNat))))
  | audioTooLong (n : Count) (hp : s.req.port = .aud) (hb : s.bridge.bstate = .running)
      (hn : s.bridge.period.toNat < n.toNat) :
      ExecCase s (.brAudioReady n) ((s.setBridge { s.bridge with faultBit := true }).respond
        (.error .period (.planar (silentBuffers s.bridge.nout.toNat n.toNat))))
  | audioReady (n : Count) (bufs : List (List Word)) (hp : s.req.port = .aud) (hb : s.bridge.bstate = .running)
      (hn : n.toNat ≤ s.bridge.period.toNat) (hd : s.req.data = .planar bufs) (hl : bufs.length = s.bridge.nin.toNat)
      (hf : ∀ b ∈ bufs, b.length = n.toNat) (hw : n.toNat * s.bridge.nin.toNat ≤ s.params.scratchSize)
      (hs : s.bridge.inF.cap.toNat ≤ s.params.depthMax.toNat) :
      ExecCase s (.brAudioReady n) (s.setBridge (ingest s.bridge n bufs))
  | brReadFrames (n : Count) (hp : s.req.port = .wrk) (hb : s.bridge.bstate = .running)
      (hs : s.bridge.inF.cap.toNat ≤ s.params.depthMax.toNat) :
      ExecCase s (.brReadFrames n) (readStep s n s.bridge.rdBlock)
  | brWriteFrames (n : Count) (d : List Word) (hp : s.req.port = .wrk) (hb : s.bridge.bstate = .running)
      (hd : s.req.data = .words d) (hl : d.length = n.toNat * s.bridge.nout.toNat)
      (hs : s.bridge.outF.cap.toNat ≤ s.params.depthMax.toNat) :
      ExecCase s (.brWriteFrames n) (writeStep s n d s.bridge.wrBlock)

theorem words_of_fits {n : Nat} {d : DataPhase} (h : d.isWords n = true) :
    ∃ ws, d = .words ws ∧ ws.length = n := by
  cases d with
  | words ws => exact ⟨ws, rfl, by simpa [DataPhase.isWords] using h⟩
  | planar bs => cases h

theorem planar_of_fits {chans frames : Nat} {d : DataPhase} (h : d.isPlanar chans frames = true) :
    ∃ bs, d = .planar bs ∧ bs.length = chans ∧ ∀ b ∈ bs, b.length = frames := by
  cases d with
  | words ws => cases h
  | planar bs =>
    simp only [DataPhase.isPlanar, Bool.and_eq_true, beq_iff_eq, List.all_eq_true] at h
    exact ⟨bs, rfl, h⟩

/-- If a command answers a next state, it was illegal on its port, or it ran on a port it lists with data that fits. -/
theorem accepting_inv {i : Instr} {s t : State} {run : Result} (h : accepting i s run = .next t) :
    t = s.fail .illegal ∨
      (i.acceptedOn s.req.port.kind = true ∧ i.dataFits s.bridge.nin s.bridge.nout s.req.data = true ∧
        run = .next t) := by
  rcases accepting_cases i s run with ⟨h1, h2, e⟩ | ⟨-, -, e⟩ | ⟨-, e⟩ <;> rw [e] at h
  · exact .inr ⟨h1, h2, h⟩
  · cases h
  · injection h with h
    exact .inl h.symm

/-- If a command on an instance answers a next state, it was illegal, or it ran on the instance of the port. -/
theorem unit_inv {i : Instr} {s t : State} {run : Nat → Standalone → Result}
    (h : accepting i s (onUnit s run) = .next t) :
    t = s.fail .illegal ∨
      ∃ x u, i.acceptedOn s.req.port.kind = true ∧ i.dataFits s.bridge.nin s.bridge.nout s.req.data = true ∧
        s.req.port.unitNo = some x ∧ s.fifos[x]? = some u ∧ run x u = .next t := by
  rcases accepting_inv h with rfl | ⟨h1, h2, h⟩
  · exact .inl rfl
  rcases onUnit_next h with ⟨x, u, h3, h4, h⟩ | rfl
  · exact .inr ⟨x, u, h1, h2, h3, h4, h⟩
  · exact .inl rfl

theorem cfg_port {p : Port} {x : Nat} (h : [PortKind.cfg].contains p.kind = true) (hx : p.unitNo = some x) :
    p = .cfg x := by cases p <;> simp_all [Port.kind, Port.unitNo]
theorem prd_port {p : Port} {x : Nat} (h : [PortKind.prd].contains p.kind = true) (hx : p.unitNo = some x) :
    p = .prd x := by cases p <;> simp_all [Port.kind, Port.unitNo]
theorem con_port {p : Port} {x : Nat} (h : [PortKind.con].contains p.kind = true) (hx : p.unitNo = some x) :
    p = .con x := by cases p <;> simp_all [Port.kind, Port.unitNo]
theorem ctl_port {p : Port} (h : [PortKind.ctl].contains p.kind = true) : p = .ctl := by
  cases p <;> simp_all [Port.kind]
theorem aud_port {p : Port} (h : [PortKind.aud].contains p.kind = true) : p = .aud := by
  cases p <;> simp_all [Port.kind]
theorem wrk_port {p : Port} (h : [PortKind.wrk].contains p.kind = true) : p = .wrk := by
  cases p <;> simp_all [Port.kind]

/-! ## One lemma per command -/

section
variable {s t : State}

theorem execFifoInit_cases {n : Count} (h : execFifoInit n s = .next t) : ExecCase s (.fifoInit n) t := by
  rcases unit_inv h with rfl | ⟨x, u, h1, -, h3, h4, h⟩
  · exact .error _ _ (by decide)
  injection h with h
  subst h
  split
  · exact .error _ _ (by decide)
  · split
    · exact .error _ _ (by decide)
    · exact .fifoInit n x u (cfg_port h1 h3) h4 (by simp_all) (by omega) (by omega)

theorem execFifoSetMode_cases {m0 m1 : Bool} (h : execFifoSetMode m0 m1 s = .next t) :
    ExecCase s (.fifoSetMode m0 m1) t := by
  rcases unit_inv h with rfl | ⟨x, u, h1, -, h3, h4, h⟩
  · exact .error _ _ (by decide)
  · injection h with h
    subst h
    exact .fifoSetMode m0 m1 x u (cfg_port h1 h3) h4

theorem execFifoSetNap_cases {n : Count} (h : execFifoSetNap n s = .next t) : ExecCase s (.fifoSetNap n) t := by
  rcases unit_inv h with rfl | ⟨x, u, h1, -, h3, h4, h⟩
  · exact .error _ _ (by decide)
  · injection h with h
    subst h
    exact .fifoSetNap n x u (cfg_port h1 h3) h4

theorem execFifoGetReg_cases {g : BitVec 8} (h : execFifoGetReg g s = .next t) : ExecCase s (.fifoGetReg g) t := by
  rcases unit_inv h with rfl | ⟨x, u, -, -, -, -, h⟩
  · exact .error _ _ (by decide)
  · injection h with h
    subst h
    split
    · exact .read _ _ (.inl ⟨g, rfl⟩)
    · exact .error _ _ (by decide)

theorem execFifoIsLockFree_cases (h : execFifoIsLockFree s = .next t) : ExecCase s .fifoIsLockFree t := by
  rcases unit_inv h with rfl | ⟨x, u, -, -, -, -, h⟩
  · exact .error _ _ (by decide)
  · injection h with h
    subst h
    exact .read _ _ (.inr (.inr (.inr (.inl rfl))))

theorem execFifoPush_cases {n : Count} (h : execFifoPush n s = .next t) : ExecCase s (.fifoPush n) t := by
  rcases unit_inv h with rfl | ⟨x, u, h1, h2, h3, h4, h⟩
  · exact .error _ _ (by decide)
  split at h
  · obtain ⟨hs, h⟩ := inStorage_next h
    injection h with h
    subst h
    obtain ⟨d, hd, hl⟩ := words_of_fits h2
    rw [hd]
    exact .fifoPush n d x u (prd_port h1 h3) h4 hd hl ‹_› hs
  · injection h with h
    subst h
    exact .error _ _ (by decide)

theorem execFifoPop_cases {n : Count} (h : execFifoPop n s = .next t) : ExecCase s (.fifoPop n) t := by
  rcases unit_inv h with rfl | ⟨x, u, h1, -, h3, h4, h⟩
  · exact .error _ _ (by decide)
  split at h
  · obtain ⟨hs, h⟩ := inStorage_next h
    injection h with h
    subst h
    exact .fifoPop n x u (con_port h1 h3) h4 ‹_› hs
  · injection h with h
    subst h
    exact .error _ _ (by decide)

theorem execFifoAvailWr_cases (h : execFifoAvailWr s = .next t) : ExecCase s .fifoAvailWr t := by
  rcases unit_inv h with rfl | ⟨x, u, -, -, -, -, h⟩
  · exact .error _ _ (by decide)
  · injection h with h
    subst h
    split
    · exact .read _ _ (.inr (.inl rfl))
    · exact .error _ _ (by decide)

theorem execFifoAvailRd_cases (h : execFifoAvailRd s = .next t) : ExecCase s .fifoAvailRd t := by
  rcases unit_inv h with rfl | ⟨x, u, -, -, -, -, h⟩
  · exact .error _ _ (by decide)
  · injection h with h
    subst h
    split
    · exact .read _ _ (.inr (.inr (.inl rfl)))
    · exact .error _ _ (by decide)

theorem execBrConfigure_cases {a b : Channels} (h : execBrConfigure a b s = .next t) :
    ExecCase s (.brConfigure a b) t := by
  rcases accepting_inv h with rfl | ⟨h1, -, h⟩
  · exact .error _ _ (by decide)
  injection h with h
  subst h
  split
  · exact .error _ _ (by decide)
  · split
    · exact .error _ _ (by decide)
    · exact .brConfigure a b (ctl_port h1) (by tauto) (by tauto) (by tauto)

theorem execBrInitialize_cases (h : execBrInitialize s = .next t) : ExecCase s .brInitialize t := by
  rcases accepting_inv h with rfl | ⟨h1, -, h⟩
  · exact .error _ _ (by decide)
  injection h with h
  subst h
  split
  · exact .error _ _ (by decide)
  · split
    · exact .error _ _ (by decide)
    · split
      · exact .error _ _ (by decide)
      · exact .brInitialize (ctl_port h1) (by tauto) (by simp_all) (by omega) (by omega)

theorem execBrShutdown_cases (h : execBrShutdown s = .next t) : ExecCase s .brShutdown t := by
  rcases accepting_inv h with rfl | ⟨h1, -, h⟩
  · exact .error _ _ (by decide)
  · injection h with h
    subst h
    exact .brShutdown (ctl_port h1)

theorem execBrSetMode_cases {m0 m1 : Bool} (h : execBrSetMode m0 m1 s = .next t) :
    ExecCase s (.brSetMode m0 m1) t := by
  rcases accepting_inv h with rfl | ⟨h1, -, h⟩
  · exact .error _ _ (by decide)
  · injection h with h
    subst h
    exact .brSetMode m0 m1 (ctl_port h1)

theorem execBrSetNap_cases {n : Count} (h : execBrSetNap n s = .next t) : ExecCase s (.brSetNap n) t := by
  rcases accepting_inv h with rfl | ⟨h1, -, h⟩
  · exact .error _ _ (by decide)
  · injection h with h
    subst h
    exact .brSetNap n (ctl_port h1)

theorem execBrGetReg_cases {g : BitVec 8} (h : execBrGetReg g s = .next t) : ExecCase s (.brGetReg g) t := by
  rcases accepting_inv h with rfl | ⟨-, -, h⟩
  · exact .error _ _ (by decide)
  · injection h with h
    subst h
    split
    · exact .read _ _ (.inr (.inr (.inr (.inr ⟨g, rfl⟩))))
    · exact .error _ _ (by decide)

theorem execBrHostShutdown_cases (h : execBrHostShutdown s = .next t) : ExecCase s .brHostShutdown t := by
  rcases accepting_inv h with rfl | ⟨h1, -, h⟩
  · exact .error _ _ (by decide)
  · injection h with h
    subst h
    split
    · exact .brHostShutdown (aud_port h1) ‹_›
    · exact .brHostShutdownAgain (aud_port h1) ‹_›
    · exact .error _ _ (by decide)
    · exact .error _ _ (by decide)

theorem execBrAudioReady_cases {n : Count} (h : execBrAudioReady n s = .next t) : ExecCase s (.brAudioReady n) t := by
  rcases accepting_inv h with rfl | ⟨h1, h2, h⟩
  · exact .error _ _ (by decide)
  split at h
  · injection h with h
    subst h
    exact .audioStopped n (aud_port h1) ‹_›
  · split at h
    · injection h with h
      subst h
      exact .audioTooLong n (aud_port h1) (by tauto) ‹_›
    · obtain ⟨hw, h⟩ := inScratch_next h
      obtain ⟨hs, h⟩ := inStorage_next h
      injection h with h
      subst h
      obtain ⟨bs, hd, hl, hf⟩ := planar_of_fits h2
      rw [hd]
      exact .audioReady n bs (aud_port h1) (by tauto) (by omega) hd hl hf hw hs

theorem execBrReadFrames_cases {n : Count} (h : execBrReadFrames n s = .next t) : ExecCase s (.brReadFrames n) t := by
  rcases accepting_inv h with rfl | ⟨h1, -, h⟩
  · exact .error _ _ (by decide)
  rcases workerChecks_next h with ⟨hb, h⟩ | ⟨-, rfl⟩ | ⟨-, -, rfl⟩
  · obtain ⟨hs, h⟩ := inStorage_next h
    injection h with h
    subst h
    exact .brReadFrames n (wrk_port h1) hb hs
  · exact .error _ _ (by decide)
  · exact .error _ _ (by decide)

theorem execBrWriteFrames_cases {n : Count} (h : execBrWriteFrames n s = .next t) :
    ExecCase s (.brWriteFrames n) t := by
  rcases accepting_inv h with rfl | ⟨h1, h2, h⟩
  · exact .error _ _ (by decide)
  rcases workerChecks_next h with ⟨hb, h⟩ | ⟨-, rfl⟩ | ⟨-, -, rfl⟩
  · obtain ⟨hs, h⟩ := inStorage_next h
    injection h with h
    subst h
    obtain ⟨d, hd, hl⟩ := words_of_fits h2
    rw [hd]
    exact .brWriteFrames n d (wrk_port h1) hb hd hl hs
  · exact .error _ _ (by decide)
  · exact .error _ _ (by decide)

end

/-- Everything a command can do. -/
theorem exec_cases {i : Instr} {s t : State} (h : exec i s = .next t) : ExecCase s i t := by
  cases i with
  | fifoInit n => exact execFifoInit_cases h
  | fifoSetMode m0 m1 => exact execFifoSetMode_cases h
  | fifoSetNap n => exact execFifoSetNap_cases h
  | fifoGetReg g => exact execFifoGetReg_cases h
  | fifoIsLockFree => exact execFifoIsLockFree_cases h
  | fifoPush n => exact execFifoPush_cases h
  | fifoAvailWr => exact execFifoAvailWr_cases h
  | fifoAvailRd => exact execFifoAvailRd_cases h
  | fifoPop n => exact execFifoPop_cases h
  | brConfigure a b => exact execBrConfigure_cases h
  | brInitialize => exact execBrInitialize_cases h
  | brShutdown => exact execBrShutdown_cases h
  | brSetMode m0 m1 => exact execBrSetMode_cases h
  | brSetNap n => exact execBrSetNap_cases h
  | brGetReg g => exact execBrGetReg_cases h
  | brReadFrames n => exact execBrReadFrames_cases h
  | brWriteFrames n => exact execBrWriteFrames_cases h
  | brAudioReady n => exact execBrAudioReady_cases h
  | brHostShutdown => exact execBrHostShutdown_cases h

/-! ## Events and steps -/

/-- The next states of an event of an agent. -/
inductive EventCase (s : State) : Event → State → Prop where
  | illegal (r : Request) (e : DecodeError) (hb : s.portBusy r.port = some false)
      (hd : decode r.port.kind r.word = .error e) : EventCase s (.issue r) ((s.latch r).fail .illegal)
  | command (r : Request) (i : Instr) (t : State) (hb : s.portBusy r.port = some false)
      (hd : decode r.port.kind r.word = .ok i) (h : ExecCase (s.latch r) i t) : EventCase s (.issue r) t
  | disabled (e : Event) (hr : ∀ r, e ≠ .issue r) : EventCase s e s
  | push (x : Nat) (u : Standalone) (n : Count) (d : List Word) (blk : Bool) (hu : s.fifos[x]? = some u)
      (hw : u.prd = .waitPush n d blk) (hs : u.fifo.cap.toNat ≤ s.params.depthMax.toNat) :
      EventCase s (.recheck (.prd x)) (pushStep s x u n d blk)
  | pop (x : Nat) (u : Standalone) (n : Count) (blk : Bool) (hu : s.fifos[x]? = some u)
      (hw : u.con = .waitPop n blk) (hs : u.fifo.cap.toNat ≤ s.params.depthMax.toNat) :
      EventCase s (.recheck (.con x)) (popStep s x u n blk)
  | release (hw : s.bridge.wrk ≠ .idle) (hb : s.bridge.bstate = .shutdown) :
      EventCase s (.recheck .wrk) (releaseWorker s)
  | readFrames (n : Count) (blk : Bool) (hw : s.bridge.wrk = .waitRead n blk) (hb : s.bridge.bstate ≠ .shutdown)
      (hs : s.bridge.inF.cap.toNat ≤ s.params.depthMax.toNat) : EventCase s (.recheck .wrk) (readStep s n blk)
  | writeFrames (n : Count) (d : List Word) (blk : Bool) (hw : s.bridge.wrk = .waitWrite n d blk)
      (hb : s.bridge.bstate ≠ .shutdown) (hs : s.bridge.outF.cap.toNat ≤ s.params.depthMax.toNat) :
      EventCase s (.recheck .wrk) (writeStep s n d blk)
  | egress (n : Count) (sin : Bool) (ha : s.bridge.aud = .egress n sin)
      (hw : n.toNat * s.bridge.nout.toNat ≤ s.params.scratchSize)
      (hs : s.bridge.outF.cap.toNat ≤ s.params.depthMax.toNat) : EventCase s .egress (egressOf s n sin)
  | syncH (f : FifoName) (j : Nat) : EventCase s (.syncH f j) (s.mapFifo f (fun x => x.syncH j))
  | syncT (f : FifoName) (j : Nat) : EventCase s (.syncT f j) (s.mapFifo f (fun x => x.syncT j))

theorem perform_cases {e : Event} {s t : State} (h : perform e s = .next t) : EventCase s e t := by
  cases e with
  | issue r =>
    simp only [perform, accept] at h
    split at h
    · cases h
    · cases h
    · split at h
      · exact .command r _ t ‹_› ‹_› (exec_cases h)
      · injection h with h
        subst h
        exact .illegal r _ ‹_› ‹_›
  | recheck p =>
    cases p with
    | prd x =>
      simp only [perform, recheck, recheckPush] at h
      split at h
      · injection h with h; subst h; exact .disabled _ (by simp)
      · split at h
        · injection h with h; subst h; exact .disabled _ (by simp)
        · obtain ⟨hs, h⟩ := inStorage_next h
          injection h with h
          subst h
          exact .push x _ _ _ _ ‹_› ‹_› hs
    | con x =>
      simp only [perform, recheck, recheckPop] at h
      split at h
      · injection h with h; subst h; exact .disabled _ (by simp)
      · split at h
        · injection h with h; subst h; exact .disabled _ (by simp)
        · obtain ⟨hs, h⟩ := inStorage_next h
          injection h with h
          subst h
          exact .pop x _ _ _ ‹_› ‹_› hs
    | wrk =>
      simp only [perform, recheck, recheckWorker] at h
      split at h
      · injection h with h; subst h; exact .disabled _ (by simp)
      · rename_i n blk hw
        split at h
        · injection h with h; subst h; exact .release (by simp [hw]) ‹_›
        · obtain ⟨hs, h⟩ := inStorage_next h
          injection h with h
          subst h
          exact .readFrames _ _ hw ‹_› hs
      · rename_i n d blk hw
        split at h
        · injection h with h; subst h; exact .release (by simp [hw]) ‹_›
        · obtain ⟨hs, h⟩ := inStorage_next h
          injection h with h
          subst h
          exact .writeFrames _ _ _ hw ‹_› hs
    | cfg x => injection h with h; subst h; exact .disabled _ (by simp)
    | ctl => injection h with h; subst h; exact .disabled _ (by simp)
    | aud => injection h with h; subst h; exact .disabled _ (by simp)
  | egress =>
    simp only [perform, egressStep] at h
    split at h
    · injection h with h; subst h; exact .disabled _ (by simp)
    · obtain ⟨hw, h⟩ := inScratch_next h
      obtain ⟨hs, h⟩ := inStorage_next h
      injection h with h
      subst h
      exact .egress _ _ ‹_› hw hs
  | syncH f j => injection h with h; subst h; exact .syncH f j
  | syncT f j => injection h with h; subst h; exact .syncT f j

/-- Everything a step can do. -/
theorem step_cases {s t : State} (h : step s = .next t) :
    (s.schedule = [] ∧ t = s) ∨
      (∃ e ts, s.schedule = { rst := true, ev := e } :: ts ∧
        t = s.resetBlock ({ rst := false, ev := e } :: ts)) ∨
      (∃ ts, s.schedule = { rst := false, ev := none } :: ts ∧ t = s.setSchedule ts) ∨
      ∃ e ts, s.schedule = { rst := false, ev := some e } :: ts ∧ perform e (s.setSchedule ts) = .next t ∧
        EventCase (s.setSchedule ts) e t := by
  unfold step takeTurn at h
  split at h
  · injection h with h
    exact .inl ⟨‹_›, h.symm⟩
  · rename_i r ts hs
    obtain ⟨rst, ev⟩ := r
    split at h
    · rename_i hr
      obtain rfl : rst = true := hr
      injection h with h
      exact .inr (.inl ⟨ev, ts, hs, h.symm⟩)
    · rename_i hr
      obtain rfl : rst = false := by simpa using hr
      cases ev with
      | none =>
        injection h with h
        exact .inr (.inr (.inl ⟨ts, hs, h.symm⟩))
      | some e => exact .inr (.inr (.inr ⟨e, ts, hs, h, perform_cases h⟩))

end Sys2Proof.Machine
end

