-- ==== Sys2Proof/Laws/Index.lean ====
section
/-! SUPPORT. Index arithmetic: what `ext`, `adv` and `occ` are for indices below C (10_state.md R18, R19, R20). -/

namespace Sys2Proof.Machine

theorem Idx.ext_lt {p : Idx} {c : Nat} (hp : p.idx.toNat < c) : p.ext c < 2 * c := by
  rcases p with ⟨l, i⟩
  cases l <;> simp_all [Idx.ext] <;> omega

@[simp] theorem Idx.zero_idx : Idx.zero.idx.toNat = 0 := rfl

@[simp] theorem Idx.ext_zero (c : Nat) : Idx.zero.ext c = 0 := by simp [Idx.ext, Idx.zero]

/-- `occ` without the remainder, for indices below C. -/
theorem occ_eq {t h : Idx} {c : Nat} (ht : t.idx.toNat < c) (hh : h.idx.toNat < c) :
    occ t h c = if h.ext c ≤ t.ext c then t.ext c - h.ext c else 2 * c + t.ext c - h.ext c := by
  have h1 := Idx.ext_lt ht
  have h2 := Idx.ext_lt hh
  unfold occ
  split
  · rw [Int.emod_eq_of_lt (by omega) (by omega)]
    omega
  · have : ((t.ext c : Int) - h.ext c) % (2 * (c : Int)) = (t.ext c : Int) - h.ext c + 2 * c := by
      rw [← Int.add_emod_right, Int.emod_eq_of_lt (by omega) (by omega)]
    rw [this]
    omega

theorem occ_lt {t h : Idx} {c : Nat} (ht : t.idx.toNat < c) (hh : h.idx.toNat < c) : occ t h c < 2 * c := by
  have h1 := Idx.ext_lt ht
  have h2 := Idx.ext_lt hh
  rw [occ_eq ht hh]
  split <;> omega

theorem occ_self {t : Idx} {c : Nat} : occ t t c = 0 := by simp [occ]

/-- Advancing keeps the index part in [0, C). -/
theorem Idx.adv_idx_lt {p : Idx} {k c : Nat} (hp : p.idx.toNat < c) (hk : k ≤ c) (hc : c < 2 ^ 24) :
    (p.adv k c).idx.toNat < c := by
  unfold Idx.adv
  split <;> simp only [BitVec.toNat_ofNat] <;> rw [Nat.mod_eq_of_lt (by omega)] <;> omega

/-- The index part after advancing. -/
theorem Idx.adv_idx {p : Idx} {k c : Nat} (hp : p.idx.toNat < c) (hk : k ≤ c) (hc : c < 2 ^ 24) :
    (p.adv k c).idx.toNat = (p.idx.toNat + k) % c := by
  unfold Idx.adv
  split <;> simp only [BitVec.toNat_ofNat] <;> rw [Nat.mod_eq_of_lt (by omega)]
  · rw [Nat.mod_eq_sub_mod (by omega), Nat.mod_eq_of_lt (by omega)]
  · rw [Nat.mod_eq_of_lt (by omega)]

/-- `ext` after advancing, without the remainder. -/
theorem Idx.ext_adv {p : Idx} {k c : Nat} (hp : p.idx.toNat < c) (hk : k ≤ c) (hc : c < 2 ^ 24) :
    (p.adv k c).ext c = if p.ext c + k < 2 * c then p.ext c + k else p.ext c + k - 2 * c := by
  rcases p with ⟨l, i⟩
  have hi : i.toNat < c := hp
  cases l <;> simp only [Idx.adv, Idx.ext] <;> split <;> simp [BitVec.toNat_ofNat] <;>
    rw [Nat.mod_eq_of_lt (by omega)] <;> (try split) <;> omega

/-- A push of k samples raises the occupancy by k. -/
theorem occ_adv_tail {t h : Idx} {k c : Nat} (ht : t.idx.toNat < c) (hh : h.idx.toNat < c) (hc : c < 2 ^ 24)
    (hk : occ t h c + k ≤ c) : occ (t.adv k c) h c = occ t h c + k := by
  have h1 := Idx.ext_lt ht
  have h2 := Idx.ext_lt hh
  have hkc : k ≤ c := by omega
  rw [occ_eq ht hh] at hk ⊢
  rw [occ_eq (Idx.adv_idx_lt ht hkc hc) hh, Idx.ext_adv ht hkc hc]
  split_ifs at * <;> omega

/-- A pop of k samples lowers the occupancy by k. -/
theorem occ_adv_head {t h : Idx} {k c : Nat} (ht : t.idx.toNat < c) (hh : h.idx.toNat < c) (hc : c < 2 ^ 24)
    (hk : k ≤ occ t h c) (hkc : k ≤ c) : occ t (h.adv k c) c = occ t h c - k := by
  have h1 := Idx.ext_lt ht
  have h2 := Idx.ext_lt hh
  rw [occ_eq ht hh] at hk ⊢
  rw [occ_eq ht (Idx.adv_idx_lt hh hkc hc), Idx.ext_adv hh hkc hc]
  split_ifs at * <;> omega

/-- The slot of the tail lies `occ` slots after the head's. -/
theorem occ_slot {t h : Idx} {c : Nat} (ht : t.idx.toNat < c) (hh : h.idx.toNat < c) :
    (h.idx.toNat + occ t h c) % c = t.idx.toNat := by
  have key : h.idx.toNat + occ t h c = t.idx.toNat ∨ h.idx.toNat + occ t h c = t.idx.toNat + c ∨
      h.idx.toNat + occ t h c = t.idx.toNat + 2 * c := by
    rw [occ_eq ht hh]
    rcases t with ⟨lt, it⟩
    rcases h with ⟨lh, ih⟩
    have ht' : it.toNat < c := ht
    have hh' : ih.toNat < c := hh
    split_ifs with e <;> cases lt <;> cases lh <;>
      simp only [Idx.ext, Bool.toNat_true, Bool.toNat_false] at e ⊢ <;> omega
  rcases key with e | e | e <;> rw [e]
  · exact Nat.mod_eq_of_lt ht
  · rw [Nat.add_mod_right, Nat.mod_eq_of_lt ht]
  · rw [Nat.add_mul_mod_self_right, Nat.mod_eq_of_lt ht]

end Sys2Proof.Machine
end

