-- ==== Sys2Proof/Laws/Memory.lean ====
section
/-! SUPPORT. Memories of words: the canonical form is kept, a read after a write, and runs of words (20_memory.md R41,
R45, R46). -/

namespace Sys2Proof.Machine

theorem findCell_putCell_self (l : List (Nat × Word)) (i : Nat) (v : Word) : findCell (putCell l i v) i = some v := by
  induction l with
  | nil => simp [putCell, findCell]
  | cons c rest ih =>
    obtain ⟨j, u⟩ := c
    simp only [putCell]
    split
    · simp [findCell]
    · split
      · simp [findCell]
      · rename_i h; simp [findCell, h, ih]

theorem findCell_putCell_ne (l : List (Nat × Word)) {i j : Nat} (v : Word) (h : j ≠ i) :
    findCell (putCell l i v) j = findCell l j := by
  induction l with
  | nil => simp [putCell, findCell, h]
  | cons c rest ih =>
    obtain ⟨a, u⟩ := c
    simp only [putCell]
    split
    · simp [findCell, h]
    · split
      · rename_i e; subst e; simp [findCell, h]
      · simp [findCell, ih]

theorem mem_putCell {l : List (Nat × Word)} {i : Nat} {v : Word} {c : Nat × Word} (h : c ∈ putCell l i v) :
    c.1 = i ∨ c ∈ l := by
  induction l with
  | nil => simp [putCell] at h; simp [h]
  | cons a rest ih =>
    obtain ⟨j, u⟩ := a
    simp only [putCell] at h
    split at h
    · rcases List.mem_cons.1 h with rfl | h
      · exact .inl rfl
      · exact .inr h
    · split at h
      · rcases List.mem_cons.1 h with rfl | h
        · exact .inl rfl
        · exact .inr (List.mem_cons_of_mem _ h)
      · rcases List.mem_cons.1 h with rfl | h
        · exact .inr List.mem_cons_self
        · rcases ih h with h | h
          · exact .inl h
          · exact .inr (List.mem_cons_of_mem _ h)

theorem pairwise_putCell {l : List (Nat × Word)} (h : l.Pairwise (fun a b => a.1 < b.1)) (i : Nat) (v : Word) :
    (putCell l i v).Pairwise (fun a b => a.1 < b.1) := by
  induction l with
  | nil => simp [putCell]
  | cons a rest ih =>
    obtain ⟨j, u⟩ := a
    simp only [putCell]
    have hr := List.pairwise_cons.1 h
    split
    · rename_i hij
      refine List.pairwise_cons.2 ⟨fun b hb => ?_, h⟩
      rcases List.mem_cons.1 hb with rfl | hb
      · exact hij
      · exact Nat.lt_trans hij (hr.1 b hb)
    · split
      · rename_i e; subst e
        exact List.pairwise_cons.2 ⟨hr.1, hr.2⟩
      · refine List.pairwise_cons.2 ⟨fun b hb => ?_, ih hr.2⟩
        rcases mem_putCell hb with e | hb
        · simp only [e]; omega
        · exact hr.1 b hb

/-- Writing keeps the canonical form. -/
theorem Memory.wf_write {m : Memory} (h : m.wf) (i : Nat) (v : Word) : (m.write i v).wf := pairwise_putCell h i v

@[simp] theorem Memory.read_write_self (m : Memory) (i : Nat) (v : Word) : (m.write i v).read i = v := by
  simp [Memory.read, Memory.write, findCell_putCell_self]

theorem Memory.read_write_ne (m : Memory) {i j : Nat} (v : Word) (h : j ≠ i) : (m.write i v).read j = m.read j := by
  simp [Memory.read, Memory.write, findCell_putCell_ne _ _ h]

theorem Memory.written_write (m : Memory) (i j : Nat) (v : Word) :
    (m.write i v).written j = (decide (j = i) || m.written j) := by
  by_cases h : j = i
  · subst h; simp [Memory.written, Memory.write, findCell_putCell_self]
  · simp [Memory.written, Memory.write, findCell_putCell_ne _ _ h, h]

/-! ## Rings -/

theorem Memory.wf_writeRing {m : Memory} (h : m.wf) (c b : Nat) (ws : List Word) : (m.writeRing c b ws).wf := by
  induction ws generalizing m b with
  | nil => exact h
  | cons w ws ih => exact ih (wf_write h _ _) _

theorem Memory.mem_writeRing {m : Memory} {c b : Nat} {ws : List Word} {x : Nat × Word} (hc : 0 < c)
    (h : x ∈ (m.writeRing c b ws).cells) : x.1 < c ∨ x ∈ m.cells := by
  induction ws generalizing m b with
  | nil => exact .inr h
  | cons w ws ih =>
    rcases ih h with h | h
    · exact .inl h
    · rcases mem_putCell h with e | h
      · exact .inl (e ▸ Nat.mod_lt _ hc)
      · exact .inr h

/-- A ring write leaves every slot it does not reach alone. -/
theorem Memory.read_writeRing_other (m : Memory) (c b : Nat) (ws : List Word) (j : Nat)
    (h : ∀ i < ws.length, (b + i) % c ≠ j) : (m.writeRing c b ws).read j = m.read j := by
  induction ws generalizing m b with
  | nil => rfl
  | cons w ws ih =>
    have h0 := h 0 (by simp)
    rw [writeRing, ih _ _ (fun i hi => by have := h (i + 1) (by simpa using hi); rwa [show b + 1 + i = b + (i + 1) by omega]),
      read_write_ne _ _ (Ne.symm (by simpa using h0))]

theorem Memory.written_writeRing_mono (m : Memory) (c b : Nat) (ws : List Word) (j : Nat) (h : m.written j = true) :
    (m.writeRing c b ws).written j = true := by
  induction ws generalizing m b with
  | nil => exact h
  | cons w ws ih => exact ih _ _ (by simp [written_write, h])

theorem ring_slot_ne {c b i j : Nat} (hij : i < j) (hj : j - i < c) : (b + j) % c ≠ (b + i) % c := by
  intro h
  have : c ∣ (b + j) - (b + i) := (Nat.modEq_iff_dvd' (by omega)).1 (Eq.symm h)
  have := Nat.le_of_dvd (by omega) this
  omega

/-- The i-th word of a ring write of at most c words is in the i-th slot. -/
theorem Memory.read_writeRing (m : Memory) {c b : Nat} {ws : List Word} (hc : ws.length ≤ c) {i : Nat}
    (hi : i < ws.length) : (m.writeRing c b ws).read ((b + i) % c) = ws[i] := by
  induction ws generalizing m b i with
  | nil => simp at hi
  | cons w ws ih =>
    simp only [List.length_cons] at hc hi
    cases i with
    | zero =>
      rw [writeRing, read_writeRing_other]
      · simp
      · intro i hi
        have := @ring_slot_ne c b 0 (i + 1) (by omega) (by omega)
        rwa [show b + 1 + i = b + (i + 1) by omega]
    | succ i =>
      rw [writeRing, show b + (i + 1) = b + 1 + i by omega, ih _ (by omega) (by omega)]
      simp

theorem Memory.written_writeRing (m : Memory) {c b : Nat} {ws : List Word} {i : Nat} (hi : i < ws.length) :
    (m.writeRing c b ws).written ((b + i) % c) = true := by
  induction ws generalizing m b i with
  | nil => simp at hi
  | cons w ws ih =>
    cases i with
    | zero =>
      rw [writeRing]
      exact written_writeRing_mono _ _ _ _ _ (by simp [written_write])
    | succ i =>
      rw [writeRing, show b + (i + 1) = b + 1 + i by omega]
      exact ih _ (by simpa using hi)

@[simp] theorem Memory.length_readRing (m : Memory) (c b k : Nat) : (m.readRing c b k).length = k := by
  induction k generalizing b with
  | zero => rfl
  | succ k ih => simp [readRing, ih]

theorem Memory.getElem_readRing (m : Memory) (c b k i : Nat) (h : i < (m.readRing c b k).length) :
    (m.readRing c b k)[i] = m.read ((b + i) % c) := by
  induction k generalizing b i with
  | zero => simp [readRing] at h
  | succ k ih =>
    cases i with
    | zero => simp [readRing]
    | succ i =>
      simp only [readRing, List.getElem_cons_succ]
      rw [ih (b + 1) i (by simpa [readRing] using h), show b + 1 + i = b + (i + 1) by omega]

/-! ## Scratch runs -/

theorem Memory.wf_writeRun {m : Memory} (h : m.wf) (j : Nat) (ws : List Word) : (m.writeRun j ws).wf := by
  induction ws generalizing m j with
  | nil => exact h
  | cons w ws ih => exact ih (wf_write h _ _) _

theorem Memory.mem_writeRun {m : Memory} {j : Nat} {ws : List Word} {x : Nat × Word}
    (h : x ∈ (m.writeRun j ws).cells) : x.1 < j + ws.length ∨ x ∈ m.cells := by
  induction ws generalizing m j with
  | nil => exact .inr h
  | cons w ws ih =>
    rcases ih h with h | h
    · exact .inl (by simp only [List.length_cons]; omega)
    · rcases mem_putCell h with e | h
      · exact .inl (by simp only [List.length_cons]; omega)
      · exact .inr h

theorem Memory.read_writeRun_other (m : Memory) (j : Nat) (ws : List Word) (i : Nat)
    (h : i < j ∨ j + ws.length ≤ i) : (m.writeRun j ws).read i = m.read i := by
  induction ws generalizing m j with
  | nil => rfl
  | cons w ws ih =>
    simp only [List.length_cons] at h
    rw [writeRun, ih _ _ (by omega), read_write_ne _ _ (by omega)]

theorem Memory.read_writeRun (m : Memory) (j : Nat) {ws : List Word} {i : Nat} (hi : i < ws.length) :
    (m.writeRun j ws).read (j + i) = ws[i] := by
  induction ws generalizing m j i with
  | nil => simp at hi
  | cons w ws ih =>
    cases i with
    | zero => rw [writeRun, read_writeRun_other _ _ _ _ (by omega)]; simp
    | succ i =>
      rw [writeRun, show j + (i + 1) = j + 1 + i by omega, ih _ _ (by simpa using hi)]
      simp

@[simp] theorem Memory.length_readRun (m : Memory) (j k : Nat) : (m.readRun j k).length = k := by
  induction k generalizing j with
  | zero => rfl
  | succ k ih => simp [readRun, ih]

theorem Memory.getElem_readRun (m : Memory) (j k i : Nat) (h : i < (m.readRun j k).length) :
    (m.readRun j k)[i] = m.read (j + i) := by
  induction k generalizing j i with
  | zero => simp [readRun] at h
  | succ k ih =>
    cases i with
    | zero => simp [readRun]
    | succ i =>
      simp only [readRun, List.getElem_cons_succ]
      rw [ih (j + 1) i (by simpa [readRun] using h), show j + 1 + i = j + (i + 1) by omega]

/-- Reading back a run gives the words written. -/
theorem Memory.readRun_writeRun (m : Memory) (j : Nat) (ws : List Word) :
    (m.writeRun j ws).readRun j ws.length = ws := by
  apply List.ext_getElem (by simp)
  intro i h1 h2
  rw [getElem_readRun, read_writeRun _ _ h2]

/-! ## Reshapes -/

@[simp] theorem length_frameWords (bs : List (List Word)) (n f : Nat) : (frameWords bs n f).length = n := by
  simp [frameWords]

@[simp] theorem length_interleave (bs : List (List Word)) (n frames : Nat) :
    (interleave bs n frames).length = frames * n := by
  simp [interleave, List.length_flatMap]

theorem interleave_succ (bs : List (List Word)) (n frames : Nat) :
    interleave bs n (frames + 1) = interleave bs n frames ++ frameWords bs n frames := by
  simp [interleave, List.range_succ]

/-- Frame-major order: word f × N + c of the stream is word f of channel c (R121, R128). -/
theorem getElem?_interleave (bs : List (List Word)) {n frames c f : Nat} (hc : c < n) (hf : f < frames) :
    (interleave bs n frames)[f * n + c]? = some (sampleAt bs c f) := by
  induction frames with
  | zero => omega
  | succ k ih =>
    rw [interleave_succ]
    by_cases h : f < k
    · have : f * n + c < k * n := by nlinarith
      rw [List.getElem?_append_left (by simpa using this), ih h]
    · obtain rfl : f = k := by omega
      rw [List.getElem?_append_right (by simp), length_interleave, Nat.add_sub_cancel_left]
      simp [frameWords, hc]

end Sys2Proof.Machine
end

