-- ==== Sys2Proof/Laws/Fifo.lean ====
section
/-! SUPPORT. What the transfer primitives and the synchroniser steps can do, and that they keep the invariant of an
instance (10_state.md R23, 20_memory.md R48 to R50, 41_fifo_transfer.md R91, R92). -/

namespace Sys2Proof.Machine

/-! ## What push_core and pop_core answer -/

@[simp] theorem Fifo.pushMove_zero (x : Fifo) (d : List Word) : x.pushMove d 0 = x := by simp [Fifo.pushMove]

@[simp] theorem Fifo.popMove_zero (x : Fifo) : x.popMove 0 = x := by simp [Fifo.popMove]

/-- push_core holds exactly for a blocking request of 1 to C words that the producer side sees no room for. -/
theorem pushCore_none {x : Fifo} {d : List Word} {n : Nat} {blk : Bool} :
    x.pushCore d n blk = none ↔ blk = true ∧ 0 < n ∧ n ≤ x.cap.toNat ∧ x.prdFree < n := by
  unfold Fifo.pushCore
  cases blk <;> split_ifs <;> (simp_all; try omega)

/-- Everything push_core can answer when it does not hold. -/
theorem pushCore_some {x f : Fifo} {d : List Word} {n k : Nat} {blk : Bool} (h : x.pushCore d n blk = some (k, f)) :
    f = x.pushMove d k ∧ k ≤ n ∧ k ≤ x.prdFree ∧ (blk = false → k = min n x.prdFree) ∧
      (blk = true → (k = n ∧ n ≤ x.cap.toNat) ∨ (k = 0 ∧ x.cap.toNat < n)) := by
  unfold Fifo.pushCore at h
  cases blk <;> split_ifs at h <;> simp_all <;> obtain ⟨rfl, rfl⟩ := h <;> simp_all

/-- pop_core holds exactly for a blocking request of 1 to C words that the consumer side does not see. -/
theorem popCore_none {x : Fifo} {n : Nat} {blk : Bool} :
    x.popCore n blk = none ↔ blk = true ∧ 0 < n ∧ n ≤ x.cap.toNat ∧ x.conLevel < n := by
  unfold Fifo.popCore
  cases blk <;> split_ifs <;> (simp_all; try omega)

theorem Fifo.length_peek (x : Fifo) (k : Nat) : (x.peek k).length = k := by simp [Fifo.peek]

/-- Everything pop_core can answer when it does not hold. -/
theorem popCore_some {x f : Fifo} {n k : Nat} {blk : Bool} {out : List Word}
    (h : x.popCore n blk = some (k, out, f)) :
    f = x.popMove k ∧ out = x.peek k ∧ k ≤ n ∧ k ≤ x.conLevel ∧ (blk = false → k = min n x.conLevel) ∧
      (blk = true → (k = n ∧ n ≤ x.cap.toNat) ∨ (k = 0 ∧ x.cap.toNat < n)) := by
  unfold Fifo.popCore at h
  cases blk <;> split_ifs at h <;> simp_all <;> obtain ⟨rfl, rfl, rfl⟩ := h <;>
    simp_all [Fifo.peek, Memory.readRing]

/-! ## Chains of index values -/

/-- In a chain that falls, the first value is the largest. -/
theorem chain_le_first {α : Type} {f : α → Nat} {a : α} {l : List α}
    (h : (a :: l).Pairwise (fun p q => f q < f p)) : ∀ p ∈ a :: l, f p ≤ f a := by
  intro p hp
  rcases List.mem_cons.1 hp with rfl | hp
  · exact Nat.le_refl _
  · exact Nat.le_of_lt ((List.pairwise_cons.1 h).1 p hp)

/-- In a chain that rises, the first value is the smallest. -/
theorem chain_first_le {α : Type} {f : α → Nat} {a : α} {l : List α}
    (h : (a :: l).Pairwise (fun p q => f p < f q)) : ∀ p ∈ a :: l, f a ≤ f p := by
  intro p hp
  rcases List.mem_cons.1 hp with rfl | hp
  · exact Nat.le_refl _
  · exact Nat.le_of_lt ((List.pairwise_cons.1 h).1 p hp)

theorem chain_last {α : Type} {R : α → α → Prop} {l : List α} {z : α} (hz : l.getLast? = some z)
    (h : l.Pairwise R) : ∀ p ∈ l, p = z ∨ R p z := by
  intro p hp
  obtain ⟨l', rfl⟩ := List.getLast?_eq_some_iff.1 hz
  rcases List.mem_append.1 hp with hp | hp
  · exact .inr ((List.pairwise_append.1 h).2.2 p hp z (by simp))
  · exact .inl (by simpa using hp)

/-- A chain is extended at its end by a value beyond the last. -/
theorem chain_snoc {α : Type} {R : α → α → Prop} {a z : α} {l : List α} (h : (a :: l).Pairwise R)
    (hz : ∀ p ∈ a :: l, R p z) : (a :: (l ++ [z])).Pairwise R ∧ (a :: (l ++ [z])).getLast? = some z := by
  refine ⟨?_, by rw [← List.cons_append, List.getLast?_concat]⟩
  rw [← List.cons_append]
  exact List.pairwise_append.2 ⟨h, by simp, fun p hp q hq => by simp at hq; exact hq ▸ hz p hp⟩

/-- A delivery: the chain from its j-th channel element on. -/
theorem chain_drop {α : Type} {R : α → α → Prop} {a v z : α} {l : List α} {j : Nat} (hj : j ≠ 0)
    (hv : l[j - 1]? = some v) (hl : (a :: l).getLast? = some z) (hR : (a :: l).Pairwise R) :
    (v :: l.drop j).getLast? = some z ∧ (v :: l.drop j).Pairwise R ∧ ∀ p ∈ v :: l.drop j, p ∈ a :: l := by
  obtain ⟨i, rfl⟩ : ∃ i, j = i + 1 := ⟨j - 1, by omega⟩
  simp only [Nat.add_sub_cancel] at hv
  obtain ⟨hi, rfl⟩ := List.getElem?_eq_some_iff.1 hv
  have hsub : l[i] :: l.drop (i + 1) = (a :: l).drop (i + 1) := by
    rw [List.drop_succ_cons, List.getElem_cons_drop]
  rw [hsub]
  refine ⟨?_, List.Pairwise.sublist (List.drop_sublist _ _) hR, fun p hp => List.mem_of_mem_drop hp⟩
  rw [List.getLast?_drop, if_neg (by rw [List.length_cons]; omega), hl]

/-! ## What the invariant gives (R23) -/

theorem Fifo.cap_lt (x : Fifo) : x.cap.toNat < 2 ^ 24 := x.cap.isLt

section
variable {x : Fifo} (h : x.Live)
include h

theorem Fifo.Live.head_mem : x.head.idx.toNat < x.cap.toNat := h.2.2.1 _ (by simp [Fifo.indices])
theorem Fifo.Live.tail_mem : x.tail.idx.toNat < x.cap.toNat := h.2.2.1 _ (by simp [Fifo.indices])
theorem Fifo.Live.headChain_mem {p : Idx} (hp : p ∈ x.hview :: x.qh) : p.idx.toNat < x.cap.toNat :=
  h.2.2.1 _ (by simp only [Fifo.indices, List.mem_cons, List.mem_append] at *; tauto)
theorem Fifo.Live.tailChain_mem {p : Idx} (hp : p ∈ x.tview :: x.qt) : p.idx.toNat < x.cap.toNat :=
  h.2.2.1 _ (by simp only [Fifo.indices, List.mem_cons, List.mem_append] at *; tauto)

/-- Every value in the head chain is at least as far from TAIL as HEAD is, and at most as far as HVIEW. -/
theorem Fifo.Live.headChain_bounds {p : Idx} (hp : p ∈ x.hview :: x.qh) :
    x.level ≤ occ x.tail p x.cap.toNat ∧ occ x.tail p x.cap.toNat ≤ x.prdLevel := by
  obtain ⟨hl, hw⟩ := h.2.2.2.1
  refine ⟨?_, chain_le_first hw p hp⟩
  rcases chain_last hl hw p hp with rfl | hr
  · exact Nat.le_refl _
  · exact Nat.le_of_lt hr

/-- Every value in the tail chain is at most as far from HEAD as TAIL is, and at least as far as TVIEW. -/
theorem Fifo.Live.tailChain_bounds {p : Idx} (hp : p ∈ x.tview :: x.qt) :
    x.conLevel ≤ occ p x.head x.cap.toNat ∧ occ p x.head x.cap.toNat ≤ x.level := by
  obtain ⟨hl, hw⟩ := h.2.2.2.2.1
  refine ⟨chain_first_le hw p hp, ?_⟩
  rcases chain_last hl hw p hp with rfl | hr
  · exact Nat.le_refl _
  · exact Nat.le_of_lt hr

/-- The slot `level` beyond HEAD is TAIL's. -/
theorem Fifo.Live.slot_level (i : Nat) :
    (x.head.idx.toNat + (x.level + i)) % x.cap.toNat = (x.tail.idx.toNat + i) % x.cap.toNat := by
  rw [← Nat.add_assoc, ← Nat.mod_add_mod, show x.level = occ x.tail x.head x.cap.toNat from rfl,
    occ_slot h.tail_mem h.head_mem]

/-! ## The transfers keep the invariant -/

/-- The new occupancies after a push of k samples. -/
theorem Fifo.Live.occ_push {k : Nat} (hk : k ≤ x.prdFree) {p : Idx} (hp : p ∈ x.hview :: x.qh) :
    occ (x.tail.adv k x.cap.toNat) p x.cap.toNat = occ x.tail p x.cap.toNat + k := by
  have hb := (h.headChain_bounds hp).2
  have hC := h.2.2.2.2.2.2.1
  have : k ≤ x.cap.toNat - x.prdLevel := hk
  exact occ_adv_tail h.tail_mem (h.headChain_mem hp) x.cap_lt (by omega)

theorem Fifo.Live.head_mem_chain : x.head ∈ x.hview :: x.qh := List.mem_of_getLast? h.2.2.2.1.1

theorem Fifo.Live.tail_mem_chain : x.tail ∈ x.tview :: x.qt := List.mem_of_getLast? h.2.2.2.2.1.1

theorem Fifo.Live.pushMove {d : List Word} {k : Nat} (hk : k ≤ x.prdFree) (hd : k ≤ d.length) :
    (x.pushMove d k).Live := by
  rcases Nat.eq_zero_or_pos k with rfl | hk0
  · simpa using h
  have hk' : k ≤ x.cap.toNat - x.prdLevel := hk
  have hC := h.2.2.2.2.2.2.1
  have hlev : x.level ≤ x.prdLevel := (h.headChain_bounds (p := x.hview) (by simp)).1
  have hT' : (x.tail.adv k x.cap.toNat).idx.toNat < x.cap.toNat := Idx.adv_idx_lt h.tail_mem (by omega) x.cap_lt
  have hlev' : occ (x.tail.adv k x.cap.toNat) x.head x.cap.toNat = x.level + k := h.occ_push hk h.head_mem_chain
  have e : x.pushMove d k = { x with
      store := x.store.writeRing x.cap.toNat x.tail.idx.toNat (d.take k), tail := x.tail.adv k x.cap.toNat,
      qt := x.qt ++ [x.tail.adv k x.cap.toNat] } := if_neg (by omega)
  rw [e]
  refine ⟨h.1, h.2.1, ?_, ⟨h.2.2.2.1.1, ?_⟩, ?_, ?_, ?_, ?_⟩
  · intro p hp
    simp only [Fifo.indices, List.mem_cons, List.mem_append, List.not_mem_nil, or_false] at hp
    have hr := h.2.2.1 p
    simp only [Fifo.indices, List.mem_cons, List.mem_append] at hr
    rcases hp with rfl | rfl | rfl | rfl | hp | hp | rfl
    · exact hr (.inl rfl)
    · exact hT'
    · exact hr (.inr (.inr (.inl rfl)))
    · exact hr (.inr (.inr (.inr (.inl rfl))))
    · exact hr (.inr (.inr (.inr (.inr (.inl hp)))))
    · exact hr (.inr (.inr (.inr (.inr (.inr hp)))))
    · exact hT'
  · refine List.Pairwise.imp_of_mem (fun {p q} hp hq hlt => ?_) h.2.2.2.1.2
    show occ _ q _ < occ _ p _
    rw [h.occ_push hk hp, h.occ_push hk hq]
    omega
  · refine And.symm (chain_snoc h.2.2.2.2.1.2 fun p hp => ?_)
    show occ p x.head x.cap.toNat < occ (x.tail.adv k x.cap.toNat) x.head x.cap.toNat
    have := (h.tailChain_bounds hp).2
    omega
  · show occ (x.tail.adv k x.cap.toNat) x.head x.cap.toNat ≤ x.cap.toNat
    omega
  · show occ (x.tail.adv k x.cap.toNat) x.hview x.cap.toNat ≤ x.cap.toNat
    rw [h.occ_push hk (by simp)]
    have : occ x.tail x.hview x.cap.toNat = x.prdLevel := rfl
    omega
  · intro i hi
    have hi : i < occ (x.tail.adv k x.cap.toNat) x.head x.cap.toNat := hi
    show (x.store.writeRing _ _ _).written _ = true
    by_cases hlt : i < x.level
    · exact Memory.written_writeRing_mono _ _ _ _ _ (h.2.2.2.2.2.2.2 i hlt)
    · have hs := h.slot_level (i - x.level)
      rw [show x.level + (i - x.level) = i by omega] at hs
      rw [hs]
      exact Memory.written_writeRing _ (by rw [List.length_take]; omega)

theorem Fifo.Live.popMove {k : Nat} (hk : k ≤ x.conLevel) : (x.popMove k).Live := by
  rcases Nat.eq_zero_or_pos k with rfl | hk0
  · simpa using h
  have hlv : x.conLevel ≤ x.level := (h.tailChain_bounds (p := x.tview) (by simp)).2
  have hlC := h.2.2.2.2.2.1
  have hkC : k ≤ x.cap.toNat := by omega
  have hH' : (x.head.adv k x.cap.toNat).idx.toNat < x.cap.toNat := Idx.adv_idx_lt h.head_mem hkC x.cap_lt
  have hocc : ∀ p ∈ x.tview :: x.qt,
      occ p (x.head.adv k x.cap.toNat) x.cap.toNat = occ p x.head x.cap.toNat - k := fun p hp =>
    occ_adv_head (h.tailChain_mem hp) h.head_mem x.cap_lt (by have := (h.tailChain_bounds hp).1; omega) hkC
  have hlev' : occ x.tail (x.head.adv k x.cap.toNat) x.cap.toNat = x.level - k := hocc _ h.tail_mem_chain
  have e : x.popMove k = { x with
      head := x.head.adv k x.cap.toNat, qh := x.qh ++ [x.head.adv k x.cap.toNat] } := if_neg (by omega)
  rw [e]
  refine ⟨h.1, h.2.1, ?_, ?_, ⟨h.2.2.2.2.1.1, ?_⟩, ?_, h.2.2.2.2.2.2.1, ?_⟩
  · intro p hp
    simp only [Fifo.indices, List.mem_cons, List.mem_append, List.not_mem_nil, or_false] at hp
    have hr := h.2.2.1 p
    simp only [Fifo.indices, List.mem_cons, List.mem_append] at hr
    rcases hp with rfl | rfl | rfl | rfl | (hp | rfl) | hp
    · exact hH'
    · exact hr (.inr (.inl rfl))
    · exact hr (.inr (.inr (.inl rfl)))
    · exact hr (.inr (.inr (.inr (.inl rfl))))
    · exact hr (.inr (.inr (.inr (.inr (.inl hp)))))
    · exact hH'
    · exact hr (.inr (.inr (.inr (.inr (.inr hp)))))
  · refine And.symm (chain_snoc h.2.2.2.1.2 fun p hp => ?_)
    show occ x.tail (x.head.adv k x.cap.toNat) x.cap.toNat < occ x.tail p x.cap.toNat
    have := (h.headChain_bounds hp).1
    omega
  · refine List.Pairwise.imp_of_mem (fun {p q} hp hq hlt => ?_) h.2.2.2.2.1.2
    show occ p _ _ < occ q _ _
    have hb := (h.tailChain_bounds hp).1
    rw [hocc p hp, hocc q hq]
    omega
  · show occ x.tail (x.head.adv k x.cap.toNat) x.cap.toNat ≤ x.cap.toNat
    omega
  · intro i hi
    have hi : i < occ x.tail (x.head.adv k x.cap.toNat) x.cap.toNat := hi
    show x.store.written (((x.head.adv k x.cap.toNat).idx.toNat + i) % x.cap.toNat) = true
    rw [Idx.adv_idx h.head_mem hkC x.cap_lt, Nat.mod_add_mod, Nat.add_assoc]
    exact h.2.2.2.2.2.2.2 (k + i) (by omega)

theorem Fifo.Live.syncH (j : Nat) : (x.syncH j).Live := by
  unfold Fifo.syncH
  split
  · exact h
  rename_i hj
  split
  · rename_i v hv
    obtain ⟨hl, hw, hmem⟩ := chain_drop hj hv h.2.2.2.1.1 h.2.2.2.1.2
    refine ⟨h.1, h.2.1, ?_, ⟨hl, hw⟩, h.2.2.2.2.1, h.2.2.2.2.2.1, ?_, h.2.2.2.2.2.2.2⟩
    · intro p hp
      simp only [Fifo.indices, List.mem_cons, List.mem_append] at hp
      rcases hp with rfl | rfl | rfl | rfl | hp | hp
      · exact h.head_mem
      · exact h.tail_mem
      · exact h.headChain_mem (hmem _ List.mem_cons_self)
      · exact h.tailChain_mem List.mem_cons_self
      · exact h.headChain_mem (hmem _ (List.mem_cons_of_mem _ hp))
      · exact h.tailChain_mem (List.mem_cons_of_mem _ hp)
    · have h1 := (h.headChain_bounds (hmem v List.mem_cons_self)).2
      have h2 := h.2.2.2.2.2.2.1
      show occ x.tail v x.cap.toNat ≤ x.cap.toNat
      omega
  · exact h

theorem Fifo.Live.syncT (j : Nat) : (x.syncT j).Live := by
  unfold Fifo.syncT
  split
  · exact h
  rename_i hj
  split
  · rename_i v hv
    obtain ⟨hl, hw, hmem⟩ := chain_drop hj hv h.2.2.2.2.1.1 h.2.2.2.2.1.2
    refine ⟨h.1, h.2.1, ?_, h.2.2.2.1, ⟨hl, hw⟩, h.2.2.2.2.2.1, h.2.2.2.2.2.2.1, h.2.2.2.2.2.2.2⟩
    · intro p hp
      simp only [Fifo.indices, List.mem_cons, List.mem_append] at hp
      rcases hp with rfl | rfl | rfl | rfl | hp | hp
      · exact h.head_mem
      · exact h.tail_mem
      · exact h.headChain_mem List.mem_cons_self
      · exact h.tailChain_mem (hmem _ List.mem_cons_self)
      · exact h.headChain_mem (List.mem_cons_of_mem _ hp)
      · exact h.tailChain_mem (hmem _ (List.mem_cons_of_mem _ hp))
  · exact h

end

theorem Fifo.Live.construct (x : Fifo) {c : Count} (hc : 0 < c.toNat) : (x.construct c).Live := by
  refine ⟨rfl, hc, ?_, ⟨rfl, by simp⟩, ⟨rfl, by simp⟩, ?_, ?_, ?_⟩
  · intro p hp
    simp only [Fifo.indices, Fifo.construct, List.append_nil, List.mem_cons, List.not_mem_nil, or_false] at hp
    rcases hp with rfl | rfl | rfl | rfl <;> simpa using hc
  · simp [Fifo.level, occ_self]
  · simp [Fifo.prdLevel, occ_self]
  · intro i hi
    simp [Fifo.level, occ_self] at hi

/-! ## The invariant of any instance -/

theorem Fifo.Unbuilt.prdFree {x : Fifo} (h : x.Unbuilt) : x.prdFree = 0 := by simp [Fifo.prdFree, h.2.1]

theorem Fifo.Unbuilt.conLevel {x : Fifo} (h : x.Unbuilt) : x.conLevel = 0 := by
  obtain ⟨-, -, h1, -, -, h2, -⟩ := h
  simp [Fifo.conLevel, h1, h2, occ_self]

theorem Memory.Fits.writeRing {m : Memory} {c b : Nat} {ws : List Word} (hc : 0 < c) (h : m.Fits c) :
    (m.writeRing c b ws).Fits c :=
  ⟨Memory.wf_writeRing h.1 _ _ _, fun x hx => (Memory.mem_writeRing hc hx).elim id (h.2 x)⟩

theorem Memory.Fits.writeRun {m : Memory} {size j : Nat} {ws : List Word} (hj : j + ws.length ≤ size)
    (h : m.Fits size) : (m.writeRun j ws).Fits size :=
  ⟨Memory.wf_writeRun h.1 _ _, fun x hx => (Memory.mem_writeRun hx).elim (fun hlt => by omega) (h.2 x)⟩

/-- A memory with no listed slot fits any size. -/
theorem Memory.Fits.of_zero {m : Memory} (h : m.Fits 0) (size : Nat) : m.Fits size :=
  ⟨h.1, fun c hc => absurd (h.2 c hc) (Nat.not_lt_zero _)⟩

theorem Fifo.Inv.pushMove {p : Params} {x : Fifo} {d : List Word} {k : Nat} (h : x.Inv p) (hk : k ≤ x.prdFree)
    (hd : k ≤ d.length) : (x.pushMove d k).Inv p := by
  obtain ⟨hs, hc, hl | hu⟩ := h
  · refine ⟨?_, by simpa using hc, .inl (hl.pushMove hk hd)⟩
    unfold Fifo.pushMove
    split
    · exact hs
    · exact hs.writeRing hl.2.1
  · obtain rfl : k = 0 := by have := hu.prdFree; omega
    simpa using ⟨hs, hc, .inr hu⟩

theorem Fifo.Inv.popMove {p : Params} {x : Fifo} {k : Nat} (h : x.Inv p) (hk : k ≤ x.conLevel) :
    (x.popMove k).Inv p := by
  obtain ⟨hs, hc, hl | hu⟩ := h
  · exact ⟨by simpa using hs, by simpa using hc, .inl (hl.popMove hk)⟩
  · obtain rfl : k = 0 := by have := hu.conLevel; omega
    simpa using ⟨hs, hc, .inr hu⟩

theorem Fifo.Unbuilt.syncH {x : Fifo} (h : x.Unbuilt) (j : Nat) : x.syncH j = x := by
  unfold Fifo.syncH
  split
  · rfl
  · simp [h.2.2.2.2.2.2.1]

theorem Fifo.Unbuilt.syncT {x : Fifo} (h : x.Unbuilt) (j : Nat) : x.syncT j = x := by
  unfold Fifo.syncT
  split
  · rfl
  · simp [h.2.2.2.2.2.2.2]

theorem Fifo.Inv.syncH {p : Params} {x : Fifo} (h : x.Inv p) (j : Nat) : (x.syncH j).Inv p := by
  obtain ⟨hs, hc, hl | hu⟩ := h
  · exact ⟨by simpa using hs, by simpa using hc, .inl (hl.syncH j)⟩
  · rw [hu.syncH]; exact ⟨hs, hc, .inr hu⟩

theorem Fifo.Inv.syncT {p : Params} {x : Fifo} (h : x.Inv p) (j : Nat) : (x.syncT j).Inv p := by
  obtain ⟨hs, hc, hl | hu⟩ := h
  · exact ⟨by simpa using hs, by simpa using hc, .inl (hl.syncT j)⟩
  · rw [hu.syncT]; exact ⟨hs, hc, .inr hu⟩

/-- Construction of an instance that was not constructed. -/
theorem Fifo.Inv.construct {p : Params} {x : Fifo} {c : Count} (h : x.Inv p) (hx : x.constructed = false)
    (hc : 0 < c.toNat) (hd : c.toNat ≤ p.depthMax.toNat) : (x.construct c).Inv p := by
  obtain ⟨hs, -, hl | hu⟩ := h
  · rw [hl.1] at hx; cases hx
  · rw [hu.2.1] at hs
    exact ⟨hs.of_zero _, hd, .inl (Fifo.Live.construct x hc)⟩

theorem Fifo.Inv.reset (p : Params) (epoch part : Nat) : (Fifo.reset epoch part).Inv p := by
  refine ⟨⟨List.Pairwise.nil, by simp [Fifo.reset, Memory.blank]⟩, Nat.zero_le _, .inr ?_⟩
  exact ⟨rfl, rfl, rfl, rfl, rfl, rfl, rfl, rfl⟩

/-! ## The samples in an instance -/

/-- A push appends the words it transfers and changes no word already there (R57, R58). -/
theorem Fifo.Live.contents_pushMove {x : Fifo} {d : List Word} {k : Nat} (h : x.Live) (hk : k ≤ x.prdFree)
    (hd : k ≤ d.length) : (x.pushMove d k).contents = x.contents ++ d.take k := by
  rcases Nat.eq_zero_or_pos k with rfl | hk0
  · simp
  have hk' : k ≤ x.cap.toNat - x.prdLevel := hk
  have hC := h.2.2.2.2.2.2.1
  have hlp : x.level ≤ x.prdLevel := (h.headChain_bounds (p := x.hview) List.mem_cons_self).1
  have hlev : (x.pushMove d k).level = x.level + k := by
    unfold Fifo.level Fifo.pushMove
    rw [if_neg (by omega)]
    exact h.occ_push hk h.head_mem_chain
  have hst : (x.pushMove d k).store = x.store.writeRing x.cap.toNat x.tail.idx.toNat (d.take k) := by
    unfold Fifo.pushMove; rw [if_neg (by omega)]
  unfold Fifo.contents Fifo.peek
  rw [hlev, hst, pushMove_cap, pushMove_head]
  apply List.ext_getElem (by simp; omega)
  intro i h1 h2
  rw [Memory.getElem_readRing]
  simp only [Memory.length_readRing] at h1
  by_cases hi : i < x.level
  · rw [List.getElem_append_left (by simpa using hi), Memory.getElem_readRing, Memory.read_writeRing_other]
    intro m hm
    have hm : m < k := by rw [List.length_take] at hm; omega
    rw [← h.slot_level m]
    exact ring_slot_ne (by omega) (by omega)
  · rw [List.getElem_append_right (by simpa using hi)]
    have hs := h.slot_level (i - x.level)
    rw [show x.level + (i - x.level) = i by omega] at hs
    rw [hs, Memory.read_writeRing _ (by rw [List.length_take]; omega) (by rw [List.length_take]; omega)]
    simp

/-- The words a pop returns are the oldest. -/
theorem Fifo.peek_eq_take {x : Fifo} {k : Nat} (hk : k ≤ x.level) : x.peek k = x.contents.take k := by
  apply List.ext_getElem (by simp [Fifo.peek, Fifo.contents]; omega)
  intro i h1 h2
  simp [Fifo.peek, Fifo.contents, Memory.getElem_readRing]

/-- A pop removes the oldest words and changes no other (R58). -/
theorem Fifo.Live.contents_popMove {x : Fifo} {k : Nat} (h : x.Live) (hk : k ≤ x.conLevel) :
    (x.popMove k).contents = x.contents.drop k := by
  rcases Nat.eq_zero_or_pos k with rfl | hk0
  · simp
  have hlv : x.conLevel ≤ x.level := (h.tailChain_bounds (p := x.tview) List.mem_cons_self).2
  have hlC := h.2.2.2.2.2.1
  have hhead : (x.popMove k).head = x.head.adv k x.cap.toNat := by
    unfold Fifo.popMove; rw [if_neg (by omega)]
  have hlev : (x.popMove k).level = x.level - k := by
    unfold Fifo.level
    rw [hhead, popMove_tail, popMove_cap]
    exact occ_adv_head h.tail_mem h.head_mem x.cap_lt (by show k ≤ x.level; omega) (by omega)
  unfold Fifo.contents Fifo.peek
  rw [hlev, hhead, popMove_store, popMove_cap, Idx.adv_idx h.head_mem (by omega) x.cap_lt]
  apply List.ext_getElem (by simp)
  intro i h1 h2
  rw [Memory.getElem_readRing, List.getElem_drop, Memory.getElem_readRing, Nat.mod_add_mod, Nat.add_assoc]

end Sys2Proof.Machine
end

