-- ==== Sys2Proof/Laws/PerInstr.lean ====
section
/-! SUPPORT. One lemma per command: its word falls in its own row of the opcode map (30_encoding.md R68, R70). -/

namespace Sys2Proof.Laws.OwnRow

open Sys2Proof

/-- The word of `i` has the opcode of a row of R68, matches the row's mask, and the row rebuilds `i` from it. -/
def Statement (i : Instr) : Prop :=
  ∃ r, rowOf (fieldOpc (encode i)) = some r ∧ encode i &&& r.format.mask = r.pattern ∧ r.build (encode i) = i

theorem fieldOpc_append (o : BitVec 8) (n : BitVec 24) : fieldOpc (o ++ n) = o := BitVec.extractLsb'_append_eq_left

theorem fieldN_append (o : BitVec 8) (n : BitVec 24) : fieldN (o ++ n) = n := BitVec.extractLsb'_append_eq_right

theorem mask_append (o : BitVec 8) (n : BitVec 24) : (o ++ n) &&& 0xFF000000#32 = o ++ 0#24 := by
  rw [show (0xFF000000#32 : BitVec 32) = (BitVec.allOnes 8 ++ 0#24) from by decide, BitVec.and_append, BitVec.and_allOnes, BitVec.and_zero]

/-- The shape of every lemma below: a word `o ++ n` of a row with opcode `o`. -/
theorem of_row {i : Instr} {o : BitVec 8} {n : BitVec 24} {r : OpRow} (he : encode i = o ++ n)
    (hr : rowOf o = some r) (hm : (o ++ n) &&& r.format.mask = r.pattern) (hb : r.build (o ++ n) = i) :
    Statement i :=
  ⟨r, by rw [he, fieldOpc_append, hr], by rw [he, hm], by rw [he, hb]⟩

theorem maskR (o : BitVec 8) (reg : BitVec 8) : (o ++ (0#16 ++ reg)) &&& 0xFFFFFF00#32 = o ++ 0#24 := by
  rw [show (0xFFFFFF00#32 : BitVec 32) = (BitVec.allOnes 8 ++ (BitVec.allOnes 16 ++ 0#8)) from by decide,
    BitVec.and_append, BitVec.and_append, BitVec.and_allOnes, BitVec.and_zero, BitVec.and_allOnes]
  rfl

/-- A field of the operand bits is a field of N. -/
theorem extract_operand {k len : Nat} (h : k + len ≤ 24) (w : Word) :
    w.extractLsb' k len = (fieldN w).extractLsb' k len := by
  unfold fieldN
  apply BitVec.eq_of_getLsbD_eq
  intro i hi
  simp [BitVec.getLsbD_extractLsb', hi, show k + i < 24 by omega]

theorem fieldReg_append (o : BitVec 8) (reg : BitVec 8) : fieldReg (o ++ (0#16 ++ reg)) = reg := by
  unfold fieldReg
  rw [extract_operand (by decide), fieldN_append]
  exact BitVec.extractLsb'_append_eq_right

theorem fieldA_append (o : BitVec 8) (a b : Channels) : fieldA (o ++ (a ++ b)) = a := by
  unfold fieldA
  rw [extract_operand (by decide), fieldN_append]
  exact BitVec.extractLsb'_append_eq_left

theorem fieldB_append (o : BitVec 8) (a b : Channels) : fieldB (o ++ (a ++ b)) = b := by
  unfold fieldB
  rw [extract_operand (by decide), fieldN_append]
  exact BitVec.extractLsb'_append_eq_right

theorem fifoInit (n : Count) : Statement (.fifoInit n) :=
  of_row rfl rfl (mask_append _ _) (congrArg Instr.fifoInit (fieldN_append _ _))

theorem fifoSetMode (m0 m1 : Bool) : Statement (.fifoSetMode m0 m1) := by
  cases m0 <;> cases m1 <;> exact of_row rfl rfl (by decide) (by decide)

theorem fifoSetNap (n : Count) : Statement (.fifoSetNap n) :=
  of_row rfl rfl (mask_append _ _) (congrArg Instr.fifoSetNap (fieldN_append _ _))

theorem fifoGetReg (reg : BitVec 8) : Statement (.fifoGetReg reg) :=
  of_row rfl rfl (maskR _ _) (congrArg Instr.fifoGetReg (fieldReg_append _ _))

theorem fifoIsLockFree : Statement .fifoIsLockFree := of_row rfl rfl (by decide) rfl

theorem fifoPush (n : Count) : Statement (.fifoPush n) :=
  of_row rfl rfl (mask_append _ _) (congrArg Instr.fifoPush (fieldN_append _ _))

theorem fifoAvailWr : Statement .fifoAvailWr := of_row rfl rfl (by decide) rfl

theorem fifoAvailRd : Statement .fifoAvailRd := of_row rfl rfl (by decide) rfl

theorem fifoPop (n : Count) : Statement (.fifoPop n) :=
  of_row rfl rfl (mask_append _ _) (congrArg Instr.fifoPop (fieldN_append _ _))

theorem brConfigure (a b : Channels) : Statement (.brConfigure a b) :=
  of_row rfl rfl (mask_append _ _) (congrArg₂ Instr.brConfigure (fieldA_append _ _ _) (fieldB_append _ _ _))

theorem brInitialize : Statement .brInitialize := of_row rfl rfl (by decide) rfl

theorem brShutdown : Statement .brShutdown := of_row rfl rfl (by decide) rfl

theorem brSetMode (m0 m1 : Bool) : Statement (.brSetMode m0 m1) := by
  cases m0 <;> cases m1 <;> exact of_row rfl rfl (by decide) (by decide)

theorem brSetNap (n : Count) : Statement (.brSetNap n) :=
  of_row rfl rfl (mask_append _ _) (congrArg Instr.brSetNap (fieldN_append _ _))

theorem brGetReg (reg : BitVec 8) : Statement (.brGetReg reg) :=
  of_row rfl rfl (maskR _ _) (congrArg Instr.brGetReg (fieldReg_append _ _))

theorem brReadFrames (n : Count) : Statement (.brReadFrames n) :=
  of_row rfl rfl (mask_append _ _) (congrArg Instr.brReadFrames (fieldN_append _ _))

theorem brWriteFrames (n : Count) : Statement (.brWriteFrames n) :=
  of_row rfl rfl (mask_append _ _) (congrArg Instr.brWriteFrames (fieldN_append _ _))

theorem brAudioReady (n : Count) : Statement (.brAudioReady n) :=
  of_row rfl rfl (mask_append _ _) (congrArg Instr.brAudioReady (fieldN_append _ _))

theorem brHostShutdown : Statement .brHostShutdown := of_row rfl rfl (by decide) rfl

end Sys2Proof.Laws.OwnRow
end

