-- ==== Sys2Proof/Laws/Reset.lean ====
section
/-! SUPPORT. The state after reset (70_reset_and_hazards.md R156, R157). -/

namespace Sys2Proof.Machine

theorem unitsFrom_length (p : Params) (epoch part count : Nat) : (unitsFrom p epoch part count).length = count := by
  induction count generalizing part with
  | zero => rfl
  | succ k ih => simp [unitsFrom, ih]

theorem mem_unitsFrom {p : Params} {epoch part count : Nat} {u : Standalone} (h : u ∈ unitsFrom p epoch part count) :
    ∃ q, u = Standalone.reset p epoch q := by
  induction count generalizing part with
  | zero => simp [unitsFrom] at h
  | succ k ih =>
    rcases List.mem_cons.1 h with rfl | h
    · exact ⟨_, rfl⟩
    · exact ih h

theorem resetOf_length (p : Params) (epoch : Nat) : (State.resetOf p epoch).fifos.length = p.extraFifos + 1 := by
  simp [State.resetOf, unitsFrom_length]

/-- Every standalone instance is at its reset value. -/
theorem mem_resetOf {p : Params} {epoch : Nat} {u : Standalone} (h : u ∈ (State.resetOf p epoch).fifos) :
    ∃ q, u = Standalone.reset p epoch q := by
  rcases List.mem_cons.1 h with rfl | h
  · exact ⟨_, rfl⟩
  · exact mem_unitsFrom h

/-- The memories of the reset state are in canonical form: they list nothing. -/
theorem memoriesWf_resetOf (p : Params) (epoch : Nat) : (State.resetOf p epoch).memoriesWf := by
  refine ⟨fun u hu => ?_, List.Pairwise.nil, List.Pairwise.nil, List.Pairwise.nil⟩
  obtain ⟨q, rfl⟩ := mem_resetOf hu
  exact List.Pairwise.nil

theorem memoriesWf_reset : State.reset.memoriesWf := memoriesWf_resetOf _ _

/-- The parameters of the reset state are legal (R8). -/
theorem params_legal : Config.params.Legal := by
  unfold Config.params
  split
  · assumption
  · decide

end Sys2Proof.Machine
end

