-- ==== Sys2Proof/Laws/Stream.lean ====
section
/-! SUPPORT. The two phases of a callback without their case splits (43_bridge_stream.md R121, R122, R129), and what a
transfer leaves alone. -/

namespace Sys2Proof.Machine

/-- The words the ingest pushes are the words it wrote to the scratch buffer. -/
theorem scratch_words (scr : Memory) {d : List Word} {n : Nat} (h : d.length = n) :
    (scr.writeRun 0 d).readRun 0 n = d := by
  subst h
  exact Memory.readRun_writeRun _ _ _

/-- The ingest phase never holds (R129): it pushes min(F × NIN, free) words. -/
theorem ingest_eq (b : Bridge) (n : Count) (bufs : List (List Word)) :
    let d := interleave bufs b.nin.toNat n.toNat
    let words := n.toNat * b.nin.toNat
    let k := min words b.inF.prdFree
    ingest b n bufs = { b with
      scr := b.scr.writeRun 0 d
      inF := b.inF.pushMove d k
      ovfCnt := if k < words then b.ovfCnt + 1 else b.ovfCnt
      aud := .egress n (k < words) } := by
  intro d words k
  unfold ingest
  simp only
  rw [scratch_words _ (by simp)]
  cases hcore : b.inF.pushCore (interleave bufs b.nin.toNat n.toNat) (n.toNat * b.nin.toNat) false with
  | none =>
    rw [pushCore_none] at hcore
    simp at hcore
  | some kf =>
    obtain ⟨k', f⟩ := kf
    obtain ⟨rfl, -, -, h, -⟩ := pushCore_some hcore
    obtain rfl : k' = k := h rfl
    rfl

/-- The egress phase never holds (R129): it pops min(F × NOUT, avail) words. -/
theorem egressOf_eq (s : State) (n : Count) (sin : Bool) :
    let b := s.bridge
    let words := n.toNat * b.nout.toNat
    let k := min words b.outF.conLevel
    let scr := (b.scr.writeRun 0 (b.outF.peek k)).writeRun k (List.replicate (words - k) Word.silence)
    egressOf s n sin = (s.setBridge { b with
      scr := scr
      outF := b.outF.popMove k
      unfCnt := if k < words then b.unfCnt + 1 else b.unfCnt
      aud := .idle }).answer .aud
        (.ok (callbackFlags sin (k < words)) (.planar (planarOut scr b.nout.toNat n.toNat))) := by
  intro b words k scr
  unfold egressOf
  simp only
  cases hcore : s.bridge.outF.popCore (n.toNat * s.bridge.nout.toNat) false with
  | none =>
    rw [popCore_none] at hcore
    simp at hcore
  | some kf =>
    obtain ⟨k', o, f⟩ := kf
    obtain ⟨rfl, rfl, -, -, h, -⟩ := popCore_some hcore
    obtain rfl : k' = k := h rfl
    rfl

/-! ## What a transfer leaves alone -/

theorem pushStep_frame (s : State) (x : Nat) (u : Standalone) (n : Count) (d : List Word) (blk : Bool) :
    (pushStep s x u n d blk).params = s.params ∧ (pushStep s x u n d blk).bridge = s.bridge ∧
      (pushStep s x u n d blk).schedule = s.schedule ∧
      (pushStep s x u n d blk).fifos.length = s.fifos.length := by
  unfold pushStep
  split <;> simp

theorem popStep_frame (s : State) (x : Nat) (u : Standalone) (n : Count) (blk : Bool) :
    (popStep s x u n blk).params = s.params ∧ (popStep s x u n blk).bridge = s.bridge ∧
      (popStep s x u n blk).schedule = s.schedule ∧ (popStep s x u n blk).fifos.length = s.fifos.length := by
  unfold popStep
  split <;> simp

theorem readStep_frame (s : State) (n : Count) (blk : Bool) :
    (readStep s n blk).params = s.params ∧ (readStep s n blk).fifos = s.fifos ∧
      (readStep s n blk).schedule = s.schedule := by
  unfold readStep
  split <;> exact ⟨rfl, rfl, rfl⟩

theorem writeStep_frame (s : State) (n : Count) (d : List Word) (blk : Bool) :
    (writeStep s n d blk).params = s.params ∧ (writeStep s n d blk).fifos = s.fifos ∧
      (writeStep s n d blk).schedule = s.schedule := by
  unfold writeStep
  split <;> exact ⟨rfl, rfl, rfl⟩

/-- A re-check that holds again leaves the state as it was (R93). -/
theorem pushStep_hold {s : State} {x : Nat} {u : Standalone} {n : Count} {d : List Word} {blk : Bool}
    (hu : s.fifos[x]? = some u) (hw : u.prd = .waitPush n d blk) (h : u.fifo.pushCore d n.toNat blk = none) :
    pushStep s x u n d blk = s := by
  simp only [pushStep, h, ← hw]
  exact State.setUnit_same hu

theorem popStep_hold {s : State} {x : Nat} {u : Standalone} {n : Count} {blk : Bool}
    (hu : s.fifos[x]? = some u) (hw : u.con = .waitPop n blk) (h : u.fifo.popCore n.toNat blk = none) :
    popStep s x u n blk = s := by
  simp only [popStep, h, ← hw]
  exact State.setUnit_same hu

theorem readStep_hold {s : State} {n : Count} {blk : Bool} (hw : s.bridge.wrk = .waitRead n blk)
    (h : s.bridge.inF.popCore (n.toNat * s.bridge.nin.toNat) blk = none) : readStep s n blk = s := by
  simp only [readStep, h, ← hw]
  rfl

theorem writeStep_hold {s : State} {n : Count} {d : List Word} {blk : Bool}
    (hw : s.bridge.wrk = .waitWrite n d blk)
    (h : s.bridge.outF.pushCore d (n.toNat * s.bridge.nout.toNat) blk = none) : writeStep s n d blk = s := by
  simp only [writeStep, h, ← hw]
  rfl

end Sys2Proof.Machine
end

