-- ==== Sys2Proof/Tests/Slice0.lean ====
section
/-! SUPPORT. The model's own tests. Expected results come from 95_test_vectors.md (its section is named in each
docstring) or from the numbered rules. -/

open Sys2Proof Sys2Proof.Machine Sys2Proof.Stated

namespace Sys2Proof.Tests

/-! ## Small states -/

/-- The example parameters of 95, with one further standalone instance. -/
def params : Params :=
  { depthMax := 64, maxCh := 8, frameCap := 4, periodMax := 8, napReset := 100, extraFifos := 1 }

/-- The block with the example parameters, after reset. -/
def fresh : State := State.resetOf params 0

/-- A quiescent constructed instance. -/
def ring (cap : Count) (head tail : Idx) (cells : List (Nat × Word)) : Fifo :=
  { constructed := true, cap := cap, store := { epoch := 0, part := 3, cells := cells }, head := head, tail := tail,
    hview := head, tview := tail, qh := [], qt := [] }

/-- A non-blocking standalone instance with IDLE ports. -/
def alone (x : Fifo) : Standalone :=
  { fifo := x, pushBlock := false, popBlock := false, nap := 100, prd := .idle, con := .idle }

/-- The fresh block with this as standalone instance 0. -/
def withUnit (u : Standalone) : State := { fresh with fifos := [u, Standalone.reset params 0 4] }

/-- The bridge of 95 section 2.6: RUNNING, two channels each way, PERIOD 2, IN and OUT empty with C = 8. -/
def bridge22 : Bridge :=
  { Bridge.reset params 0 with
    bstate := .running, nin := 2, nout := 2, period := 2, srate := 48000
    inF := { ring 8 .zero .zero [] with store := Memory.blank 0 0 }
    outF := { ring 8 .zero .zero [] with store := Memory.blank 0 1 } }

/-- The fresh block with this bridge. -/
def withBridge (b : Bridge) : State := { fresh with bridge := b }

/-- A host that answers a period, at 48000 Hz. -/
def hostOf (period : Nat) : HostAnswer := { present := true, period := period, rate := 48000 }

/-- A request for a word. -/
def ask (p : Port) (w : Word) (d : DataPhase := .words []) (h : HostAnswer := .absent) : Request :=
  { port := p, word := w, data := d, host := h }

/-- The state after one step, where there is one. -/
def after (s : State) (t : Turn) : Option State :=
  match step (s.offer t) with
  | .next s' => some s'
  | .fault _ => none
  | .refused _ => none

/-- The state after a command is issued. -/
def issue (s : State) (r : Request) : Option State := after s { rst := false, ev := some (.issue r) }

/-- Whether a step is refused, and why. -/
def refusal (s : State) (r : Request) : Option Refusal :=
  match step (s.offer { rst := false, ev := some (.issue r) }) with
  | .next _ => none
  | .fault _ => none
  | .refused q => some q

/-- The response OK(v) on a port. -/
def okOn (p : Port) (v : Word) (d : DataPhase := .words []) : Reply := ⟨p, { err := false, value := v, data := d }⟩

/-- The response ERR(code) on a port. -/
def errOn (p : Port) (v : Word) (d : DataPhase := .words []) : Reply := ⟨p, { err := true, value := v, data := d }⟩

/-- Standalone instance 0. -/
def unit0 (s : State) : Option Standalone := s.fifos[0]?

/-! ## Well-formedness -/

/-- Commands that pass both checks (R66, R68). -/
theorem test_wellformed :
    ({ port := .prd, instr := .fifoPush 2, data := .words [1, 2] } : Command).WellFormed 2 2 ∧
      ({ port := .wrk, instr := .brWriteFrames 1, data := .words [1, 2] } : Command).WellFormed 1 2 ∧
      ({ port := .aud, instr := .brAudioReady 1, data := .planar [[1], [2]] } : Command).WellFormed 2 1 ∧
      ({ port := .con, instr := .fifoIsLockFree, data := .words [] } : Command).WellFormed 0 0 := by decide

/-- A port R68 does not list is refused. -/
theorem test_illformed_port :
    ¬ ({ port := .con, instr := .fifoPush 1, data := .words [1] } : Command).WellFormed 2 2 := by decide

/-- A data phase that is too short, too long, or not asked for is refused (R66). -/
theorem test_illformed_words :
    ¬ ({ port := .prd, instr := .fifoPush 2, data := .words [1] } : Command).WellFormed 2 2 ∧
      ¬ ({ port := .wrk, instr := .brWriteFrames 1, data := .words [1, 2, 3] } : Command).WellFormed 2 2 ∧
      ¬ ({ port := .con, instr := .fifoPop 1, data := .words [1] } : Command).WellFormed 2 2 := by decide

/-- A planar data phase of another shape is refused: words, a channel too few, a buffer too short (R66). -/
theorem test_illformed_planar :
    ¬ ({ port := .aud, instr := .brAudioReady 1, data := .words [1, 2] } : Command).WellFormed 2 2 ∧
      ¬ ({ port := .aud, instr := .brAudioReady 1, data := .planar [[1]] } : Command).WellFormed 2 2 ∧
      ¬ ({ port := .aud, instr := .brAudioReady 2, data := .planar [[1, 2], [3]] } : Command).WellFormed 2 2 ∧
      ¬ ({ port := .prd, instr := .fifoPush 1, data := .planar [[1]] } : Command).WellFormed 2 2 := by decide

/-! ## Decoding (95 section 2.2) -/

/-- The words of a standalone instance's configuration commands. -/
theorem test_decode_fifo_control :
    decode .cfg 0x0100000A = .ok (.fifoInit 10) ∧ decode .cfg 0x02000003 = .ok (.fifoSetMode true true) ∧
      decode .cfg 0x02000002 = .ok (.fifoSetMode false true) ∧ decode .cfg 0x030000FA = .ok (.fifoSetNap 250) ∧
      decode .cfg 0x04000005 = .ok (.fifoGetReg 5) ∧ decode .prd 0x05000000 = .ok .fifoIsLockFree := by decide

/-- The words of a standalone instance's transfers and queries. -/
theorem test_decode_fifo_transfer :
    decode .prd 0x08000005 = .ok (.fifoPush 5) ∧ decode .prd 0x09000000 = .ok .fifoAvailWr ∧
      decode .con 0x0A000000 = .ok .fifoAvailRd ∧ decode .con 0x0CFFFFFF = .ok (.fifoPop 16777215) := by decide

/-- The words of the bridge's control commands. -/
theorem test_decode_bridge_control :
    decode .ctl 0x20FFF001 = .ok (.brConfigure 4095 1) ∧ decode .ctl 0x20002003 = .ok (.brConfigure 2 3) ∧
      decode .ctl 0x21000000 = .ok .brInitialize ∧ decode .ctl 0x22000000 = .ok .brShutdown ∧
      decode .ctl 0x23000001 = .ok (.brSetMode true false) ∧ decode .ctl 0x240003E8 = .ok (.brSetNap 1000) ∧
      decode .wrk 0x2500000D = .ok (.brGetReg 13) ∧ decode .aud 0x31000000 = .ok .brHostShutdown := by decide

/-- The words of the bridge's stream commands. -/
theorem test_decode_bridge_stream :
    decode .wrk 0x28000002 = .ok (.brReadFrames 2) ∧ decode .wrk 0x29000002 = .ok (.brWriteFrames 2) ∧
      decode .aud 0x30000100 = .ok (.brAudioReady 256) := by decide

/-- Reserved opcodes. -/
theorem test_decode_reserved_opcodes :
    decode .cfg 0x00000000 = .error .reservedOpcode ∧ decode .wrk 0x00000000 = .error .reservedOpcode ∧
      decode .cfg 0x06000000 = .error .reservedOpcode ∧ decode .con 0x0B000000 = .error .reservedOpcode ∧
      decode .ctl 0x26000000 = .error .reservedOpcode ∧ decode .aud 0xFF000000 = .error .reservedOpcode := by decide

/-- Reserved operand bits. -/
theorem test_decode_reserved_bits :
    decode .cfg 0x02000004 = .error .reservedBit ∧ decode .ctl 0x23800000 = .error .reservedBit ∧
      decode .ctl 0x21000001 = .error .reservedBit ∧ decode .prd 0x05000100 = .error .reservedBit ∧
      decode .cfg 0x04000100 = .error .reservedBit := by decide

/-- Ports R68 does not list. -/
theorem test_decode_wrong_port :
    decode .con 0x08000001 = .error .portNotListed ∧ decode .prd 0x0C000001 = .error .portNotListed ∧
      decode .prd 0x01000004 = .error .portNotListed ∧ decode .wrk 0x30000001 = .error .portNotListed ∧
      decode .aud 0x25000000 = .error .portNotListed ∧ decode .wrk 0x22000000 = .error .portNotListed ∧
      decode .ctl 0x31000000 = .error .portNotListed := by decide

/-- The encoder writes the words of the spec (95 section 2.2). -/
theorem test_encode_words :
    encode (.fifoInit 10) = 0x0100000A ∧ encode (.fifoSetMode false true) = 0x02000002 ∧
      encode (.fifoGetReg 5) = 0x04000005 ∧ encode (.brConfigure 2 3) = 0x20002003 ∧
      encode (.brSetMode true false) = 0x23000001 ∧ encode (.brGetReg 13) = 0x2500000D ∧
      encode .brHostShutdown = 0x31000000 := by decide

/-! ## Index arithmetic (95 section 2.1) -/

/-- adv. -/
theorem test_adv :
    (Idx.mk false 9).adv 1 10 = ⟨true, 0⟩ ∧ (Idx.mk false 5).adv 10 10 = ⟨true, 5⟩ ∧
      (Idx.mk true 9).adv 1 10 = ⟨false, 0⟩ ∧ (Idx.mk false 3).adv 0 10 = ⟨false, 3⟩ ∧
      (Idx.mk false 0).adv 1 1 = ⟨true, 0⟩ := by decide

/-- occ. -/
theorem test_occ :
    occ ⟨false, 3⟩ ⟨false, 3⟩ 10 = 0 ∧ occ ⟨true, 5⟩ ⟨false, 5⟩ 10 = 10 ∧ occ ⟨false, 2⟩ ⟨true, 8⟩ 10 = 4 ∧
      occ ⟨true, 7⟩ ⟨true, 2⟩ 10 = 5 ∧ occ ⟨true, 0⟩ ⟨false, 0⟩ 1 = 1 ∧ occ ⟨false, 0⟩ ⟨true, 4⟩ 8 = 4 := by decide

/-! ## A standalone instance -/

/-- 95 section 2.3, step 15. -/
theorem test_fifo_init :
    ((issue fresh (ask (.cfg 0) 0x01000040)).map fun t =>
      (t.replies, (unit0 t).map fun u => (u.fifo.constructed, u.fifo.cap, u.fifo.head, u.fifo.tail))) =
      some ([okOn (.cfg 0) 0], some (true, 64, ⟨false, 0⟩, ⟨false, 0⟩)) := by decide

/-- 95 section 2.3, steps 14 and 19: E_CONFIG for 65, but E_STATE first on a constructed instance. -/
theorem test_fifo_init_errors :
    (issue fresh (ask (.cfg 0) 0x01000041)).map (·.replies) = some [errOn (.cfg 0) 3] ∧
      (issue (withUnit (alone (ring 64 .zero .zero []))) (ask (.cfg 0) 0x01000000)).map (·.replies) =
        some [errOn (.cfg 0) 2] := by decide

/-- 95 section 2.3: FIFO_SETMODE push=1, pop=0 sets PUSH_BLOCK alone, in bit 1 of STATUS (R24). -/
theorem test_fifo_setmode :
    ((issue fresh (ask (.cfg 0) 0x02000001)).bind unit0).map (fun u => (u.pushBlock, u.popBlock, u.statusWord)) =
      some (true, false, 2) := by decide

/-- 95 section 2.3, step 21. -/
theorem test_fifo_setnap :
    ((issue fresh (ask (.cfg 1) 0x03FFFFFF)).bind (fun t => t.fifos[1]?)).map (·.nap) = some 16777215 := by decide

/-- 95 section 2.3, steps 3 to 5. -/
theorem test_fifo_getreg :
    (issue fresh (ask (.cfg 0) 0x04000003)).map (·.replies) = some [okOn (.cfg 0) 64] ∧
      (issue fresh (ask (.cfg 0) 0x04000006)).map (·.replies) = some [errOn (.cfg 0) 1] ∧
      (issue fresh (ask (.cfg 0) 0x040000FF)).map (·.replies) = some [errOn (.cfg 0) 1] := by decide

/-- 95 section 2.4, step 15: TAILX shows the lap bit at bit 24. -/
theorem test_fifo_getreg_tailx :
    (issue (withUnit (alone (ring 4 .zero ⟨true, 2⟩ []))) (ask (.cfg 0) 0x04000005)).map (·.replies) =
      some [okOn (.cfg 0) 0x01000002] := by decide

/-- 95 section 2.3, step 6: on an unconstructed instance too. -/
theorem test_fifo_islockfree :
    (issue fresh (ask (.cfg 0) 0x05000000)).map (·.replies) = some [okOn (.cfg 0) 1] := by decide

/-- 95 section 1.8: a push from slot 7 of 10 fills 7, 8, 9, 0, 1, 2. -/
theorem test_fifo_push_split :
    ((issue (withUnit (alone (ring 10 ⟨false, 7⟩ ⟨false, 7⟩ [])))
      (ask (.prd 0) 0x08000006 (.words [20, 21, 22, 23, 24, 25]))).map fun t =>
      (t.replies, (unit0 t).map fun u => (u.fifo.store.cells, u.fifo.tail, u.fifo.qt))) =
      some ([okOn (.prd 0) 6],
        some ([(0, 23), (1, 24), (2, 25), (7, 20), (8, 21), (9, 22)], ⟨true, 3⟩, [⟨true, 3⟩])) := by rfl

/-- 95 section 2.4, steps 4 and 10 of the blocking group: a short push of 6, and a blocking push that holds. -/
theorem test_fifo_push_short_and_hold :
    (issue (withUnit (alone (ring 4 .zero .zero []))) (ask (.prd 0) 0x08000006 (.words [1, 2, 3, 4, 5, 6]))).map
        (fun t => (t.replies, (unit0 t).map fun u => (u.fifo.tail, u.prd))) =
      some ([okOn (.prd 0) 4], some (⟨true, 0⟩, .idle)) ∧
    (issue (withUnit { alone { ring 4 ⟨false, 2⟩ ⟨false, 2⟩ [] with hview := .zero, qh := [⟨false, 2⟩] } with
        pushBlock := true }) (ask (.prd 0) 0x08000004 (.words [3, 4, 5, 6]))).map
        (fun t => (t.replies, (unit0 t).map fun u => (u.fifo.tail, u.prd))) =
      some ([], some (⟨false, 2⟩, .waitPush 4 [3, 4, 5, 6] true)) := by decide

/-- 95 section 2.4, steps 8 and 11: each port answers from its own view. -/
theorem test_fifo_avail_wr :
    (issue (withUnit (alone { ring 4 .zero ⟨true, 0⟩ [] with tview := .zero, qt := [⟨true, 0⟩] }))
        (ask (.con 0) 0x09000000)).map (·.replies) = some [okOn (.con 0) 4] ∧
      (issue (withUnit (alone { ring 4 ⟨false, 3⟩ ⟨true, 0⟩ [] with hview := .zero, qh := [⟨false, 3⟩] }))
        (ask (.prd 0) 0x09000000)).map (·.replies) = some [okOn (.prd 0) 0] := by decide

/-- 95 section 2.4, steps 6 and 7. -/
theorem test_fifo_avail_rd :
    (issue (withUnit (alone { ring 4 .zero ⟨true, 0⟩ [] with tview := .zero, qt := [⟨true, 0⟩] }))
        (ask (.prd 0) 0x0A000000)).map (·.replies) = some [okOn (.prd 0) 4] ∧
      (issue (withUnit (alone { ring 4 .zero ⟨true, 0⟩ [] with tview := .zero, qt := [⟨true, 0⟩] }))
        (ask (.con 0) 0x0A000000)).map (·.replies) = some [okOn (.con 0) 0] := by decide

/-- 95 section 1.3: a pop across the end of storage. -/
theorem test_fifo_pop_wrap :
    ((issue (withUnit (alone (ring 4 ⟨false, 3⟩ ⟨true, 3⟩ [(0, 11), (1, 12), (2, 13), (3, 10)])))
      (ask (.con 0) 0x0C000004)).map fun t => (t.replies, (unit0 t).map fun u => (u.fifo.head, u.fifo.qh))) =
      some ([okOn (.con 0) 4 (.words [10, 11, 12, 13])], some (⟨true, 3⟩, [⟨true, 3⟩])) := by decide

/-- 95 section 2.4, the blocking group, steps 2 and 4. -/
theorem test_fifo_pop_blocking :
    (issue (withUnit { alone (ring 4 .zero .zero []) with popBlock := true }) (ask (.con 0) 0x0C000005)).map
        (·.replies) = some [okOn (.con 0) 0] ∧
      (issue (withUnit { alone (ring 4 .zero .zero []) with popBlock := true }) (ask (.con 0) 0x0C000002)).map
        (fun t => (t.replies, (unit0 t).map (·.con))) = some ([], some (.waitPop 2 true)) := by decide

/-! ## The synchronisers, completions and reset -/

/-- 95 section 2.4, index channel skip: both draws. -/
theorem test_sync_draws :
    (after (withUnit (alone { ring 4 .zero ⟨false, 3⟩ [] with tview := .zero, qt := [⟨false, 1⟩, ⟨false, 3⟩] }))
        (turnOf (.syncT (.unit 0) 2))).bind unit0 = some (alone (ring 4 .zero ⟨false, 3⟩ [])) ∧
      ((after (withUnit (alone { ring 4 .zero ⟨false, 3⟩ [] with tview := .zero, qt := [⟨false, 1⟩, ⟨false, 3⟩] }))
        (turnOf (.syncT (.unit 0) 1))).bind unit0).map (fun u => (u.fifo.tview, u.fifo.qt)) =
        some (⟨false, 1⟩, [⟨false, 3⟩]) := by decide

/-- 95 section 3.2, lines 7 and 8: the completion of a held push copies in two parts. -/
theorem test_held_push_completes :
    (after (withUnit { alone (ring 4 ⟨false, 2⟩ ⟨false, 3⟩ [(0, 1), (1, 2), (2, 3)]) with
        pushBlock := true, prd := .waitPush 3 [4, 5, 6] true }) (turnOf (.recheck (.prd 0)))).map
      (fun t => (t.replies, (unit0 t).map fun u => (u.fifo.store.cells, u.fifo.tail, u.prd))) =
      some ([okOn (.prd 0) 3], some ([(0, 5), (1, 6), (2, 3), (3, 4)], ⟨true, 2⟩, .idle)) := by rfl

/-- 95 section 2.8, the first row: the held push gets no response. -/
theorem test_reset_drops_held_push :
    (after (withUnit { alone (ring 4 .zero ⟨true, 0⟩ []) with prd := .waitPush 4 [1, 2, 3, 4] true })
        { rst := true, ev := none }).map (fun t => (t.replies, (unit0 t).map fun u =>
          (u.prd, u.fifo.constructed, u.fifo.cap, u.nap, u.fifo.tail))) =
      some ([], some (.idle, false, 0, 100, ⟨false, 0⟩)) := by rfl

/-- An illegal word is answered with code 1 on its port, whatever the state (95 section 2.2). -/
theorem test_illegal_word :
    (issue fresh (ask (.con 0) 0x08000001)).map (·.replies) = some [errOn (.con 0) 1] := by decide

/-- The three refusals. -/
theorem test_refusals :
    refusal fresh (ask (.prd 0) 0x08000001) = some .malformedData ∧
      refusal fresh (ask (.prd 2) 0x09000000) = some .noSuchUnit ∧
      refusal (withUnit { alone (ring 4 .zero .zero []) with con := .waitPop 2 true }) (ask (.con 0) 0x0A000000) =
        some .portBusy := by decide

/-! ## The bridge's control commands -/

/-- 95 section 2.2: BR_CONFIGURE 2, 3 has A = NIN = 2 and B = NOUT = 3 (R106). -/
theorem test_br_configure :
    (issue fresh (ask .ctl 0x20002003)).map (fun t => (t.replies, t.bridge.bstate, t.bridge.nin, t.bridge.nout)) =
      some ([okOn .ctl 0], .configured, 2, 3) := by decide

/-- 95 section 2.7: E_STATE before E_CONFIG, and 9 channels are above MAX_CH. -/
theorem test_br_configure_errors :
    (issue (withBridge bridge22) (ask .ctl 0x20000009)).map (·.replies) = some [errOn .ctl 2] ∧
      (issue fresh (ask .ctl 0x20001009)).map (·.replies) = some [errOn .ctl 3] := by decide

/-- 95 section 3.3, line 2. -/
theorem test_br_initialize :
    (issue (withBridge { Bridge.reset params 0 with bstate := .configured, nin := 2, nout := 2 })
      (ask .ctl 0x21000000 (.words []) (hostOf 2))).map (fun t =>
        (t.replies, t.bridge.bstate, t.bridge.inF.cap, t.bridge.outF.cap, t.bridge.period, t.bridge.srate)) =
      some ([okOn .ctl 0], .running, 8, 8, 2, 48000) := by decide

/-- 95 section 2.7: E_HOST_ABSENT comes before E_HOST_PERIOD. -/
theorem test_br_initialize_errors :
    (issue (withBridge { Bridge.reset params 0 with bstate := .configured, nin := 2, nout := 2 })
        (ask .ctl 0x21000000 (.words []) { hostOf 9 with present := false })).map (·.replies) =
        some [errOn .ctl 4] ∧
      (issue (withBridge { Bridge.reset params 0 with bstate := .configured, nin := 2, nout := 2 })
        (ask .ctl 0x21000000 (.words []) (hostOf 9))).map (·.replies) = some [errOn .ctl 5] := by decide

/-- 95 section 2.5, the separate start: SHUTDOWN straight from UNCONFIGURED. -/
theorem test_br_shutdown :
    (issue fresh (ask .ctl 0x22000000)).map (fun t => (t.replies, t.bridge.bstate, t.bridge.hostSd)) =
      some ([okOn .ctl 0], .shutdown, false) := by decide

/-- 95 section 2.5, step 18. -/
theorem test_br_setmode :
    (issue (withBridge bridge22) (ask .ctl 0x23000002)).map (fun t =>
      (t.bridge.rdBlock, t.bridge.wrBlock, t.bridge.modeWord)) = some (false, true, 2) := by decide

/-- 95 section 2.5, step 19. -/
theorem test_br_setnap :
    (issue (withBridge bridge22) (ask .ctl 0x240003E8)).map (·.bridge.nap) = some 1000 := by decide

/-- 95 section 3.5, lines 2 and 5. -/
theorem test_br_getreg_status :
    (issue (withBridge { bridge22 with faultBit := true }) (ask .ctl 0x25000000)).map (·.replies) =
        some [okOn .ctl 0x0000000A] ∧
      (issue (withBridge { bridge22 with faultBit := true, bstate := .shutdown }) (ask .ctl 0x25000000)).map
        (·.replies) = some [okOn .ctl 0x0000000B] := by decide

/-- 95 section 3.3, line 20: INLEVEL with IN.HEAD = (1, 4) and IN.TAIL = (0, 0) is 4. -/
theorem test_br_getreg_inlevel :
    (issue (withBridge { bridge22 with inF := ring 8 ⟨true, 4⟩ ⟨false, 0⟩ [] }) (ask .wrk 0x2500000C)).map
      (·.replies) = some [okOn .wrk 4] := by decide

/-- 95 section 3.4, line 6. -/
theorem test_br_host_shutdown :
    (issue (withBridge bridge22) (ask .aud 0x31000000)).map (fun t =>
      (t.replies, t.bridge.bstate, t.bridge.hostSd, t.bridge.statusWord)) =
      some ([okOn .aud 0], .shutdown, true, 7) := by decide

/-- 95 section 2.5, step 22: a no-op in SHUTDOWN, and E_STATE before initialisation. -/
theorem test_br_host_shutdown_elsewhere :
    (issue (withBridge { bridge22 with bstate := .shutdown }) (ask .aud 0x31000000)).map (fun t =>
        (t.replies, t.bridge.hostSd)) = some ([okOn .aud 0], false) ∧
      (issue fresh (ask .aud 0x31000000)).map (·.replies) = some [errOn .aud 2] := by decide

/-! ## The bridge's stream commands -/

/-- 95 section 2.6, S5: IN holds six words, so one frame of two is dropped. -/
theorem test_br_audio_ready_overrun :
    (issue (withBridge { bridge22 with inF := ring 8 .zero ⟨false, 6⟩ [] })
      (ask .aud 0x30000002 (.planar [[10, 11], [20, 21]]))).map (fun t =>
        (t.replies, t.bridge.inF.store.cells, t.bridge.inF.tail, t.bridge.ovfCnt, t.bridge.aud)) =
      some ([], [(6, 10), (7, 20)], ⟨true, 0⟩, 1, .egress 2 true) := by decide

/-- 95 section 2.6, S3: F > PERIOD. -/
theorem test_br_audio_ready_period :
    (issue (withBridge bridge22) (ask .aud 0x30000003 (.planar [[1, 2, 3], [4, 5, 6]]))).map (fun t =>
      (t.replies, t.bridge.faultBit, t.bridge.aud)) =
      some ([errOn .aud 6 (.planar [[0, 0, 0], [0, 0, 0]])], true, .idle) := by decide

/-- 95 section 2.6, S6: the egress of a callback, with one frame in OUT. -/
theorem test_egress_partial_underrun :
    (after (withBridge { bridge22 with outF := ring 8 .zero ⟨false, 2⟩ [(0, 30), (1, 40)], aud := .egress 2 false })
      (turnOf .egress)).map (fun t => (t.replies, t.bridge.unfCnt, t.bridge.aud, t.bridge.outF.head)) =
      some ([okOn .aud 2 (.planar [[30, 0], [40, 0]])], 1, .idle, ⟨false, 2⟩) := by decide

/-- 95 section 2.6, W1. -/
theorem test_br_read_frames :
    (issue (withBridge { bridge22 with inF := ring 8 .zero ⟨false, 4⟩ [(0, 10), (1, 20), (2, 11), (3, 21)] })
      (ask .wrk 0x28000002)).map (fun t => (t.replies, t.bridge.inF.head)) =
      some ([okOn .wrk 2 (.words [10, 20, 11, 21])], ⟨false, 4⟩) := by decide

/-- 95 section 2.6, W4 and W12: a hold, and its release by shutdown. -/
theorem test_br_read_frames_held :
    (issue (withBridge { bridge22 with inF := ring 8 .zero ⟨false, 4⟩ [] }) (ask .wrk 0x28000003)).map
        (fun t => (t.replies, t.bridge.wrk)) = some ([], .waitRead 3 true) ∧
      (after (withBridge { bridge22 with bstate := .shutdown, wrk := .waitRead 3 true })
        (turnOf (.recheck .wrk))).map (fun t => (t.replies, t.bridge.wrk)) = some ([errOn .wrk 7], .idle) := by decide

/-- 95 section 2.6, W9: a short non-blocking write. -/
theorem test_br_write_frames_short :
    (issue (withBridge { bridge22 with wrBlock := false, outF := ring 8 .zero ⟨false, 4⟩ [] })
      (ask .wrk 0x29000003 (.words [1, 2, 3, 4, 5, 6]))).map (fun t =>
        (t.replies, t.bridge.outF.store.cells, t.bridge.outF.tail)) =
      some ([okOn .wrk 2], [(4, 1), (5, 2), (6, 3), (7, 4)], ⟨true, 0⟩) := by decide

/-- 95 section 2.6, W10 and W11 for a write. -/
theorem test_br_write_frames_errors :
    (issue fresh (ask .wrk 0x29000001 (.words []))).map (·.replies) = some [errOn .wrk 2] ∧
      (issue (withBridge { bridge22 with bstate := .shutdown }) (ask .wrk 0x29000001 (.words [1, 2]))).map
        (·.replies) = some [errOn .wrk 7] := by decide

/-! ## Witnesses: states that meet the hypotheses of the statements, clause by clause -/

/-- A 24-bit field. -/
abbrev n24 (k : Nat) : Count := BitVec.ofNat 24 k

/-- A 12-bit field. -/
abbrev n12 (k : Nat) : Channels := BitVec.ofNat 12 k

/-- A command word. -/
abbrev n32 (k : Nat) : Word := BitVec.ofNat 32 k

/-- The state with this command latched. -/
def latched (s : State) (p : Port) (i : Instr) (d : DataPhase := .words []) (h : HostAnswer := .absent) : State :=
  s.latch (ask p (encode i) d h)

/-- The state whose next turn is this event. -/
def offered (s : State) (e : Event) : State := s.offer (turnOf e)

/-- An empty instance of capacity 4. -/
def empty4 : Standalone := alone (ring 4 .zero .zero [])

/-- An instance of capacity 4 with two samples, whose producer side still sees three and consumer side one. -/
def lagging4 : Standalone :=
  alone { ring 4 ⟨false, 1⟩ ⟨false, 3⟩ [(0, 1), (1, 2), (2, 3)] with
    hview := .zero, tview := ⟨false, 2⟩, qh := [⟨false, 1⟩], qt := [⟨false, 3⟩] }

/-- A full instance of capacity 4. -/
def full4 : Standalone := alone (ring 4 ⟨false, 1⟩ ⟨true, 1⟩ [(0, 5), (1, 2), (2, 3), (3, 4)])

/-- The bridge CONFIGURED with this many channels each way. -/
def configured (n : Channels) : Bridge := { Bridge.reset params 0 with bstate := .configured, nin := n, nout := n }

theorem witness_DecodeOfEncodedCommand :
    (Instr.fifoPop 16777215).acceptedOn .con = true ∧ (Instr.brConfigure 4095 0).acceptedOn .ctl = true ∧
      (Instr.brGetReg 255).acceptedOn .wrk = true := by decide

theorem witness_EncodeOfDecodedWord :
    decode .con 0x0CFFFFFF = .ok (.fifoPop 16777215) ∧ decode .ctl 0x23000003 = .ok (.brSetMode true true) := by decide

theorem witness_ReservedWordsAreIllegal :
    (∀ k ∈ [0x00FFFFFF, 0x06000000, 0x32000000, 0xFF000000],
      (n32 k).toNat / 2 ^ 24 ∉ [0x01, 0x02, 0x03, 0x04, 0x05, 0x08, 0x09, 0x0A, 0x0C, 0x20, 0x21, 0x22, 0x23, 0x24,
        0x25, 0x28, 0x29, 0x30, 0x31]) ∧
    (∀ k ∈ [0x02000004, 0x23800003],
      (n32 k).toNat / 2 ^ 24 ∈ [0x02, 0x23] ∧ (n32 k).toNat % 2 ^ 24 / 2 ^ 2 ≠ 0) ∧
    (∀ k ∈ [0x05000001, 0x31800000],
      (n32 k).toNat / 2 ^ 24 ∈ [0x05, 0x09, 0x0A, 0x21, 0x22, 0x31] ∧ (n32 k).toNat % 2 ^ 24 ≠ 0) ∧
    (∀ k ∈ [0x04000100, 0x25800000],
      (n32 k).toNat / 2 ^ 24 ∈ [0x04, 0x25] ∧ (n32 k).toNat % 2 ^ 24 / 2 ^ 8 ≠ 0) := by decide

theorem witness_IllegalWordAnswered :
    let r := ask (.con 0) 0x08000001 (.words [7])
    NextEvent (offered fresh (.issue r)) (.issue r) [] ∧ (offered fresh (.issue r)).portBusy r.port = some false ∧
      decode r.port.kind r.word = .error .portNotListed := by decide

theorem witness_StepRunsDecodedCommand :
    let r := ask (.prd 0) 0x08000001 (.words [7])
    NextEvent (offered (withUnit empty4) (.issue r)) (.issue r) [] ∧
      (offered (withUnit empty4) (.issue r)).portBusy r.port = some false ∧
      decode r.port.kind r.word = .ok (.fifoPush 1) := by decide

theorem witness_RefusalsAreOnlyThese :
    step (offered (withBridge { bridge22 with wrk := .waitRead 3 true }) (.issue (ask .wrk 0x25000000))) =
        .refused .portBusy ∧
      step (offered fresh (.issue (ask (.cfg 2) 0x05000000))) = .refused .noSuchUnit ∧
      step (offered (withBridge bridge22) (.issue (ask .wrk 0x29000001 (.words [1])))) = .refused .malformedData :=
  ⟨rfl, rfl, rfl⟩

theorem witness_ResetValues : fresh = State.resetOf params 0 := rfl

theorem witness_ResetStepTakesPrecedence :
    ((withUnit { full4 with prd := .waitPush 1 [9] true }).offer { rst := true, ev := some .egress }).schedule =
      { rst := true, ev := some .egress } :: [] := rfl

/-- The wrap where idx + k = C, just below it, and at k = C; k = 0; and C = 1. -/
theorem witness_AdvanceMovesExtendedIndex :
    ((9 : Count).toNat < 10 ∧ 1 ≤ 10 ∧ 10 < 2 ^ 24 ∧ 10 ≤ (9 : Count).toNat + 1) ∧
      ((8 : Count).toNat < 10 ∧ (8 : Count).toNat + 1 < 10) ∧ ((9 : Count).toNat < 10 ∧ 10 ≤ (9 : Count).toNat + 10) ∧
      ((9 : Count).toNat < 10 ∧ (9 : Count).toNat + 0 < 10) ∧ ((0 : Count).toNat < 1 ∧ 1 ≤ (0 : Count).toNat + 1) := by
  decide

/-- Equal pairs, equal indices with other laps, and both orders of indices. -/
theorem witness_OccupancyByLapAndIndex :
    ((9 : Count).toNat < 10 ∧ (0 : Count).toNat < 10) ∧
      (Idx.mk false 5).lap = (Idx.mk false 5).lap ∧ (Idx.mk false 5).idx.toNat ≤ (Idx.mk false 5).idx.toNat ∧
      (Idx.mk true 5).lap ≠ (Idx.mk false 5).lap ∧ (Idx.mk false 2).lap ≠ (Idx.mk true 8).lap := by decide

theorem witness_FifoInitConstructs :
    ∀ k ∈ [1, 64],
      IssuedOn (.fifoInit (n24 k)) (latched fresh (.cfg 0) (.fifoInit (n24 k))) 0
        (Standalone.reset params 0 3) ∧
      (Standalone.reset params 0 3).fifo.constructed = false ∧ 1 ≤ (n24 k).toNat ∧
      (n24 k).toNat ≤ (latched fresh (.cfg 0) (.fifoInit (n24 k))).params.depthMax.toNat := by decide

theorem witness_FifoInitErrors :
    (IssuedOn (.fifoInit 0) (latched (withUnit empty4) (.cfg 0) (.fifoInit 0)) 0 empty4 ∧
      empty4.fifo.constructed = true) ∧
    ∀ k ∈ [0, 65],
      IssuedOn (.fifoInit (n24 k)) (latched fresh (.cfg 0) (.fifoInit (n24 k))) 0
        (Standalone.reset params 0 3) ∧
      (Standalone.reset params 0 3).fifo.constructed = false ∧
      ((n24 k).toNat = 0 ∨ params.depthMax.toNat < (n24 k).toNat) := by decide

theorem witness_FifoModeAndNapWritten :
    (∀ m0 m1, IssuedOn (.fifoSetMode m0 m1) (latched fresh (.cfg 0) (.fifoSetMode m0 m1)) 0
        (Standalone.reset params 0 3)) ∧
      ∀ k ∈ [0, 16777215],
        IssuedOn (.fifoSetNap (n24 k)) (latched (withUnit empty4) (.cfg 0) (.fifoSetNap (n24 k))) 0 empty4 := by decide

theorem witness_FifoRegistersRead :
    ∀ k ∈ [0, 5, 6, 255],
      IssuedOn (.fifoGetReg (BitVec.ofNat 8 k)) (latched (withUnit lagging4) (.cfg 0) (.fifoGetReg (BitVec.ofNat 8 k))) 0 lagging4 := by decide

theorem witness_LockFreeReportsOne :
    ∀ p ∈ [Port.cfg 0, Port.prd 0, Port.con 0],
      (latched fresh p .fifoIsLockFree).fifos[0]? = some (Standalone.reset params 0 3) ∧
      ((latched fresh p .fifoIsLockFree).req.port = .cfg 0 ∨ (latched fresh p .fifoIsLockFree).req.port = .prd 0 ∨
        (latched fresh p .fifoIsLockFree).req.port = .con 0) ∧
      (latched fresh p .fifoIsLockFree).req.data = .words [] := by decide

theorem witness_FifoQueriesReportOwnView :
    lagging4.fifo.constructed = true ∧
      (∀ p ∈ [Port.prd 0, Port.con 0], ∀ i ∈ [Instr.fifoAvailRd, Instr.fifoAvailWr],
        (latched (withUnit lagging4) p i).fifos[0]? = some lagging4 ∧
        (latched (withUnit lagging4) p i).req.port = p ∧ (latched (withUnit lagging4) p i).req.data = .words []) ∧
      3 = occ lagging4.fifo.tail lagging4.fifo.hview lagging4.fifo.cap.toNat ∧
      1 = occ lagging4.fifo.tview lagging4.fifo.head lagging4.fifo.cap.toNat := by decide

theorem witness_AvailabilitiesSumToCapacity :
    lagging4.fifo.Live ∧ ∀ p ∈ [Port.prd 0, Port.con 0],
      IssuedOn .fifoAvailRd (latched (withUnit lagging4) p .fifoAvailRd) 0 lagging4 ∧
      IssuedOn .fifoAvailWr (latched (withUnit lagging4) p .fifoAvailWr) 0 lagging4 := by decide

theorem witness_TransfersNeedConstruction :
    (∀ k ∈ [0, 16777215],
      IssuedOn (.fifoPop (n24 k)) (latched fresh (.con 0) (.fifoPop (n24 k))) 0 (Standalone.reset params 0 3)) ∧
      IssuedOn (.fifoPush 1) (latched fresh (.prd 0) (.fifoPush 1) (.words [7])) 0 (Standalone.reset params 0 3) ∧
      IssuedOn .fifoAvailWr (latched fresh (.prd 0) .fifoAvailWr) 0 (Standalone.reset params 0 3) ∧
      IssuedOn .fifoAvailRd (latched fresh (.con 0) .fifoAvailRd) 0 (Standalone.reset params 0 3) ∧
      (Standalone.reset params 0 3).fifo.constructed = false := by decide

/-- A push of none, of exactly the free count 1, and of one more. -/
theorem witness_FifoPushNonBlockingMoves :
    (∀ d ∈ [[], [7#32], [7#32, 8#32]],
      IssuedOn (.fifoPush (n24 d.length))
        (latched (withUnit lagging4) (.prd 0) (.fifoPush (n24 d.length)) (.words d)) 0 lagging4) ∧
      freeSeen lagging4.fifo = 1 ∧ lagging4.fifo.constructed = true ∧
      lagging4.fifo.cap.toNat ≤ params.depthMax.toNat ∧ lagging4.pushBlock = false ∧ lagging4.prd = .idle := by decide

/-- n = 0, n = C + 1, n the free count 1, and n between them. -/
theorem witness_FifoPushBlockingMovesOrHolds :
    (∀ d ∈ [[], [1#32, 2#32, 3#32, 4#32, 5#32], [7#32], [7#32, 8#32, 9#32, 10#32]],
      IssuedOn (.fifoPush (n24 d.length))
        (latched (withUnit { lagging4 with pushBlock := true }) (.prd 0) (.fifoPush (n24 d.length))
          (.words d)) 0 { lagging4 with pushBlock := true }) ∧
      freeSeen lagging4.fifo = 1 ∧ lagging4.fifo.constructed = true ∧
      lagging4.fifo.cap.toNat ≤ params.depthMax.toNat ∧ lagging4.prd = .idle := by decide

theorem witness_FifoPopNonBlockingMoves :
    (∀ k ∈ [0, 1, 2, 16777215],
      IssuedOn (.fifoPop (n24 k)) (latched (withUnit lagging4) (.con 0) (.fifoPop (n24 k))) 0 lagging4) ∧
      availSeen lagging4.fifo = 1 ∧ lagging4.fifo.constructed = true ∧
      lagging4.fifo.cap.toNat ≤ params.depthMax.toNat ∧ lagging4.popBlock = false ∧ lagging4.con = .idle := by decide

theorem witness_FifoPopBlockingMovesOrHolds :
    (∀ k ∈ [0, 5, 1, 2],
      IssuedOn (.fifoPop (n24 k)) (latched (withUnit { lagging4 with popBlock := true }) (.con 0) (.fifoPop (n24 k))) 0
        { lagging4 with popBlock := true }) ∧
      availSeen lagging4.fifo = 1 ∧ lagging4.fifo.constructed = true ∧
      lagging4.fifo.cap.toNat ≤ params.depthMax.toNat ∧ lagging4.con = .idle := by decide

/-- Held pushes of 1 (room for it) and of 2 (no room) words, the mode written to 0 meanwhile. -/
theorem witness_HeldPushCompletesOrHolds :
    ∀ d ∈ [[7#32], [7#32, 8#32]],
      NextEvent (offered (withUnit { lagging4 with prd := .waitPush (n24 d.length) d true })
        (.recheck (.prd 0))) (.recheck (.prd 0)) [] ∧
      (withUnit { lagging4 with prd := .waitPush (n24 d.length) d true }).fifos[0]? =
        some { lagging4 with prd := .waitPush (n24 d.length) d true } ∧
      d.length = (n24 d.length).toNat ∧ 0 < (n24 d.length).toNat ∧
      (n24 d.length).toNat ≤ lagging4.fifo.cap.toNat ∧
      lagging4.fifo.cap.toNat ≤ params.depthMax.toNat := by decide

theorem witness_HeldPopCompletesOrHolds :
    ∀ k ∈ [1, 2, 4],
      NextEvent (offered (withUnit { lagging4 with con := .waitPop (n24 k) true }) (.recheck (.con 0)))
        (.recheck (.con 0)) [] ∧
      (withUnit { lagging4 with con := .waitPop (n24 k) true }).fifos[0]? =
        some { lagging4 with con := .waitPop (n24 k) true } ∧
      0 < (n24 k).toNat ∧ (n24 k).toNat ≤ lagging4.fifo.cap.toNat ∧
      lagging4.fifo.cap.toNat ≤ params.depthMax.toNat := by decide

/-- Draws 1 and 2 of a channel of two values, and a synchroniser of the bridge. -/
theorem witness_SyncDeliversDrawnValue :
    (∀ j ∈ [1, 2], (withUnit (alone { ring 4 .zero ⟨false, 3⟩ [] with
        tview := .zero, qt := [⟨false, 1⟩, ⟨false, 3⟩] })).fifo? (.unit 0) =
          some { ring 4 .zero ⟨false, 3⟩ [] with tview := .zero, qt := [⟨false, 1⟩, ⟨false, 3⟩] } ∧
        1 ≤ j ∧ j - 1 < [Idx.mk false 1, Idx.mk false 3].length) ∧
      (offered (withUnit lagging4) (.syncH (.unit 0) 1)).fifo? (.unit 0) = some lagging4.fifo ∧
      NextEvent (offered (withUnit lagging4) (.syncH (.unit 0) 1)) (.syncH (.unit 0) 1) [] ∧
      1 - 1 < lagging4.fifo.qh.length ∧ (withBridge bridge22).fifo? .output = some bridge22.outF := by decide

theorem witness_TransfersKeepFifoOrder :
    lagging4.fifo.Live ∧
    (∃ t v, IssuedOn (.fifoPush 2) (latched (withUnit lagging4) (.prd 0) (.fifoPush 2) (.words [7, 8])) 0 lagging4 ∧
      exec (.fifoPush 2) (latched (withUnit lagging4) (.prd 0) (.fifoPush 2) (.words [7, 8])) = .next t ∧
      t.replies = [okOn (.prd 0) 1] ∧ t.fifos[0]? = some v) ∧
    ∃ t v, IssuedOn (.fifoPop 2) (latched (withUnit lagging4) (.con 0) (.fifoPop 2)) 0 lagging4 ∧
      exec (.fifoPop 2) (latched (withUnit lagging4) (.con 0) (.fifoPop 2)) = .next t ∧
      t.replies = [okOn (.con 0) 1 (.words [2])] ∧ t.fifos[0]? = some v :=
  ⟨by decide, ⟨_, _, by decide, rfl, by decide, rfl⟩, ⟨_, _, by decide, rfl, by decide, rfl⟩⟩

/-- An empty instance whose TAIL stands on the last slot, a sequence of C words, and the empty sequence. -/
theorem witness_RoundTripReturnsSequence :
    let u := alone (ring 4 ⟨false, 3⟩ ⟨false, 3⟩ [])
    let d := [1#32, 2#32, 3#32, 4#32]
    let s := (withUnit u).setSchedule [issues (.prd 0) (.fifoPush (n24 d.length)) (.words d),
      turnOf (.syncT (.unit 0) 1), issues (.con 0) (.fifoPop (n24 d.length)) (.words [])]
    s.fifos[0]? = some u ∧ u.fifo.Live ∧ u.fifo.cap.toNat ≤ params.depthMax.toNat ∧ u.fifo.level = 0 ∧ u.fifo.Quiet ∧ u.pushBlock = false ∧
      u.popBlock = false ∧ u.prd = .idle ∧ u.con = .idle ∧ ([] : List Word).length ≤ u.fifo.cap.toNat ∧
      d.length ≤ u.fifo.cap.toNat ∧ s.schedule = issues (.prd 0) (.fifoPush (n24 d.length)) (.words d) ::
        turnOf (.syncT (.unit 0) 1) :: issues (.con 0) (.fifoPop (n24 d.length)) (.words []) :: [] := by decide

theorem witness_BackpressureLeavesViewFull :
    (IssuedOn (.fifoPush 1) (latched (withUnit full4) (.prd 0) (.fifoPush 1) (.words [7])) 0 full4 ∧
      full4.fifo.Live ∧ full4.pushBlock = false ∧ freeSeen full4.fifo < 1) ∧
    IssuedOn (.fifoPush 2) (latched (withUnit lagging4) (.prd 0) (.fifoPush 2) (.words [7, 8])) 0 lagging4 ∧
      lagging4.fifo.Live ∧ lagging4.fifo.cap.toNat ≤ params.depthMax.toNat ∧ freeSeen lagging4.fifo < 2 := by decide

theorem witness_BrConfigureSetsCounts :
    (∀ b ∈ [Bridge.reset params 0, configured 3],
      Issued (.brConfigure 1 8) (latched (withBridge b) .ctl (.brConfigure 1 8)) ∧
      (b.bstate = .unconfigured ∨ b.bstate = .configured)) ∧
      1 ≤ (1 : Channels).toNat ∧ (8 : Channels).toNat ≤ params.maxCh.toNat := by decide

theorem witness_BrConfigureErrors :
    (Issued (.brConfigure 0 9) (latched (withBridge bridge22) .ctl (.brConfigure 0 9)) ∧
      bridge22.bstate = .running) ∧
    (∀ k ∈ [0, 9], Issued (.brConfigure (n12 k) 1) (latched fresh .ctl (.brConfigure (n12 k) 1)) ∧
      ((n12 k).toNat = 0 ∨ fresh.params.maxCh.toNat < (n12 k).toNat)) ∧
    (∀ k ∈ [0, 9], Issued (.brConfigure 8 (n12 k)) (latched fresh .ctl (.brConfigure 8 (n12 k))) ∧
      ((n12 k).toNat = 0 ∨ fresh.params.maxCh.toNat < (n12 k).toNat)) ∧
    fresh.bridge.bstate = .unconfigured := by decide

/-- Channel counts 1 and 8, host periods 1 and 8. -/
theorem witness_BrInitializeStartsBridge :
    ∀ k ∈ [1, 8], ∀ q ∈ [1, 8],
      Issued .brInitialize (latched (withBridge (configured (n12 k))) .ctl .brInitialize (.words []) (hostOf q)) ∧
      (configured (n12 k)).bstate = .configured ∧ params.Legal ∧ goodChannels params (configured (n12 k)).nin ∧
      goodChannels params (configured (n12 k)).nout ∧ (hostOf q).present = true ∧ 1 ≤ (hostOf q).period ∧
      (hostOf q).period ≤ params.periodMax.toNat := by decide

theorem witness_BrInitializeErrors :
    (∀ b ∈ [Bridge.reset params 0, bridge22, { bridge22 with bstate := .shutdown }],
      Issued .brInitialize (latched (withBridge b) .ctl .brInitialize) ∧ b.bstate ≠ .configured) ∧
    (Issued .brInitialize (latched (withBridge (configured 2)) .ctl .brInitialize) ∧
      HostAnswer.absent.present = false) ∧
    ∀ q ∈ [0, 9],
      Issued .brInitialize (latched (withBridge (configured 2)) .ctl .brInitialize (.words []) (hostOf q)) ∧
      (hostOf q).present = true ∧ ((hostOf q).period = 0 ∨ params.periodMax.toNat < (hostOf q).period) := by decide

theorem witness_ShutdownCommandsStopBridge :
    ∀ b ∈ [Bridge.reset params 0, configured 2, bridge22, { bridge22 with bstate := .shutdown }],
      Issued .brShutdown (latched (withBridge b) .ctl .brShutdown) ∧
      Issued .brHostShutdown (latched (withBridge b) .aud .brHostShutdown) := by decide

theorem witness_BridgeModeAndNapWritten :
    (∀ m0 m1, Issued (.brSetMode m0 m1) (latched fresh .ctl (.brSetMode m0 m1))) ∧
      ∀ k ∈ [0, 16777215], Issued (.brSetNap (n24 k)) (latched (withBridge bridge22) .ctl (.brSetNap (n24 k))) := by decide

theorem witness_BridgeRegistersRead :
    ∀ p ∈ [Port.ctl, Port.wrk], ∀ k ∈ [0, 13, 14, 255],
      Issued (.brGetReg (BitVec.ofNat 8 k)) (latched (withBridge bridge22) p (.brGetReg (BitVec.ofNat 8 k))) := by decide

theorem witness_LifecycleTransitions :
    (∃ t, Issued (.brConfigure 1 8) (latched fresh .ctl (.brConfigure 1 8)) ∧
      exec (.brConfigure 1 8) (latched fresh .ctl (.brConfigure 1 8)) = .next t) ∧
    (∃ t, Issued .brInitialize (latched (withBridge (configured 2)) .ctl .brInitialize (.words []) (hostOf 8)) ∧
      exec .brInitialize (latched (withBridge (configured 2)) .ctl .brInitialize (.words []) (hostOf 8)) = .next t) ∧
    (∃ t, Issued .brHostShutdown (latched (withBridge bridge22) .aud .brHostShutdown) ∧
      exec .brHostShutdown (latched (withBridge bridge22) .aud .brHostShutdown) = .next t) ∧
    ∃ t, perform .egress (withBridge { bridge22 with aud := .egress 0 false }) = .next t :=
  ⟨⟨_, by decide, rfl⟩, ⟨_, by decide, rfl⟩, ⟨_, by decide, rfl⟩, ⟨_, rfl⟩⟩

theorem witness_AudioReadyErrors :
    (Issued (.brAudioReady 3) (latched (withBridge { bridge22 with bstate := .shutdown }) .aud (.brAudioReady 3)
      (.planar [[1, 2, 3], [4, 5, 6]]))) ∧
    Issued (.brAudioReady 3) (latched (withBridge bridge22) .aud (.brAudioReady 3) (.planar [[1, 2, 3], [4, 5, 6]])) ∧
      bridge22.bstate = .running ∧ bridge22.period.toNat < (3 : Count).toNat := by decide

/-- F = 0, F = PERIOD with room, and with an overrun. -/
theorem witness_AudioReadyIngests :
    (∀ b ∈ [bridge22, { bridge22 with inF := ring 8 .zero ⟨false, 6⟩ [] }],
      Issued (.brAudioReady 0) (latched (withBridge b) .aud (.brAudioReady 0) (.planar [[], []])) ∧
      Issued (.brAudioReady 2) (latched (withBridge b) .aud (.brAudioReady 2) (.planar [[1, 2], [3, 4]])) ∧
      b.bstate = .running ∧ (2 : Count).toNat ≤ b.period.toNat ∧ b.inF.cap.toNat ≤ params.depthMax.toNat ∧
      (2 : Count).toNat * b.nin.toNat ≤ params.scratchSize) := by decide

theorem witness_EgressAnswersCallback :
    ∀ k ∈ [0, 2], ∀ sin ∈ [true, false],
      NextEvent (offered (withBridge { bridge22 with aud := .egress (n24 k) sin }) .egress) .egress [] ∧
      bridge22.outF.cap.toNat ≤ params.depthMax.toNat ∧
      (n24 k).toNat * bridge22.nout.toNat ≤ params.scratchSize := by decide

/-- No frames, the frame IN holds, one more, FRAME_CAP, one more. -/
theorem witness_ReadFramesMovesOrHolds :
    (∀ rd ∈ [true, false], ∀ k ∈ [0, 1, 2, 4, 5],
      Issued (.brReadFrames (n24 k)) (latched (withBridge { bridge22 with
        rdBlock := rd, inF := ring 8 .zero ⟨false, 2⟩ [(0, 1), (1, 2)] }) .wrk (.brReadFrames (n24 k)))) ∧
      bridge22.bstate = .running ∧ bridge22.wrk = .idle ∧ (8 : Count).toNat ≤ params.depthMax.toNat := by decide

theorem witness_WriteFramesMovesOrHolds :
    (∀ wr ∈ [true, false], ∀ d ∈ [[], [1#32, 2#32], [1#32, 2#32, 3#32, 4#32], [1#32, 2#32, 3#32, 4#32, 5#32, 6#32, 7#32,
        8#32, 9#32, 10#32]],
      Issued (.brWriteFrames (n24 (d.length / 2))) (latched (withBridge { bridge22 with
        wrBlock := wr, outF := ring 8 .zero ⟨false, 6⟩ [] }) .wrk (.brWriteFrames (n24 (d.length / 2)))
          (.words d))) ∧
      bridge22.bstate = .running ∧ bridge22.wrk = .idle ∧ (8 : Count).toNat ≤ params.depthMax.toNat := by decide

theorem witness_WorkerTransferErrors :
    ∀ b ∈ [Bridge.reset params 0, configured 2, { bridge22 with bstate := .shutdown }],
      Issued (.brReadFrames 1) (latched (withBridge b) .wrk (.brReadFrames 1)) ∧
      Issued (.brWriteFrames 0) (latched (withBridge b) .wrk (.brWriteFrames 0)) ∧
      (b.bstate = .shutdown ∨ b.bstate = .unconfigured ∨ b.bstate = .configured) := by decide

/-- Held in SHUTDOWN; a held read that now sees its data, and one that does not; a held write likewise. -/
theorem witness_HeldWorkerCompletesOrReleased :
    let one := { bridge22 with inF := ring 8 .zero ⟨false, 2⟩ [(0, 1), (1, 2)], outF := ring 8 .zero ⟨false, 6⟩ [] }
    (∀ w ∈ [WrkPort.waitRead 1 true, .waitRead 4 true, .waitWrite 1 [1, 2] true, .waitWrite 2 [1, 2, 3, 4] true],
      NextEvent (offered (withBridge { one with wrk := w }) (.recheck .wrk)) (.recheck .wrk) [] ∧
      NextEvent (offered (withBridge { one with wrk := w, bstate := .shutdown }) (.recheck .wrk)) (.recheck .wrk) []) ∧
    one.bstate ≠ .shutdown ∧ availSeen one.inF = 2 ∧ freeSeen one.outF = 2 ∧ 0 < 1 * one.nin.toNat ∧
    4 * one.nin.toNat ≤ one.inF.cap.toNat ∧ 2 * one.nout.toNat ≤ one.outF.cap.toNat ∧
    one.inF.cap.toNat ≤ params.depthMax.toNat ∧ [1#32, 2#32, 3#32, 4#32].length = 2 * one.nout.toNat := by decide

theorem witness_FaultIsSticky :
    (∃ t, step (offered (withBridge { bridge22 with faultBit := true }) (.issue (ask .ctl 0x22000000))) = .next t) ∧
    ∃ t, step (offered (withBridge bridge22) (.issue (ask .aud 0x30000003 (.planar [[1, 2, 3], [4, 5, 6]])))) =
      .next t ∧ bridge22.faultBit = false ∧ t.bridge.faultBit = true := ⟨⟨_, rfl⟩, ⟨_, rfl, rfl, rfl⟩⟩

theorem witness_ErrorsChangeNothing :
    (∃ t r, exec (.fifoPop 1) (latched fresh (.con 0) (.fifoPop 1)) = .next t ∧ t.replies = [⟨.con 0, r⟩] ∧
      r.err = true ∧ r.value ≠ 6) ∧
    ∃ t r, exec (.brAudioReady 3) (latched (withBridge bridge22) .aud (.brAudioReady 3)
      (.planar [[1, 2, 3], [4, 5, 6]])) = .next t ∧ t.replies = [⟨.aud, r⟩] ∧ r.err = true ∧ r.value = 6 :=
  ⟨⟨_, _, rfl, rfl, rfl, by decide⟩, ⟨_, _, rfl, rfl, rfl, rfl⟩⟩

theorem witness_ReadsHaveNoSideEffect :
    (∃ t, exec (.fifoGetReg 5) (latched fresh (.cfg 0) (.fifoGetReg 5)) = .next t) ∧
    (∃ t, exec .fifoAvailWr (latched (withUnit lagging4) (.con 0) .fifoAvailWr) = .next t) ∧
    (∃ t, exec .fifoAvailRd (latched (withUnit lagging4) (.prd 0) .fifoAvailRd) = .next t) ∧
    (∃ t, exec .fifoIsLockFree (latched fresh (.con 0) .fifoIsLockFree) = .next t) ∧
    ∃ t, exec (.brGetReg 12) (latched fresh .wrk (.brGetReg 12)) = .next t :=
  ⟨⟨_, rfl⟩, ⟨_, rfl⟩, ⟨_, rfl⟩, ⟨_, rfl⟩, ⟨_, rfl⟩⟩

theorem witness_OneResponseOrHold :
    (∃ t, (latched fresh .ctl .brShutdown).portBusy .ctl = some false ∧
      exec .brShutdown (latched fresh .ctl .brShutdown) = .next t) ∧
    ∃ t, (latched (withBridge bridge22) .wrk (.brReadFrames 1)).portBusy .wrk = some false ∧
      exec (.brReadFrames 1) (latched (withBridge bridge22) .wrk (.brReadFrames 1)) = .next t :=
  ⟨⟨_, rfl, rfl⟩, ⟨_, rfl, rfl⟩⟩

theorem witness_ParametersAreHardwired :
    (∃ t, step (fresh.offer { rst := true, ev := none }) = .next t) ∧
    (∃ t, step (offered fresh (.issue (ask .ctl 0x22000000))) = .next t) ∧
      fresh.fifos.length = fresh.params.extraFifos + 1 := ⟨⟨_, rfl⟩, ⟨_, rfl⟩, rfl⟩

theorem witness_MemoriesStayCanonical :
    (withUnit lagging4).memoriesWf ∧
      ∃ t, step (offered (withUnit lagging4) (.issue (ask (.prd 0) 0x08000001 (.words [7])))) = .next t :=
  ⟨by unfold State.memoriesWf; decide, _, rfl⟩

/-! ### States with the invariant -/

/-- The block with these as standalone instance 0 and as bridge has the invariant, if they have. -/
theorem inv_of {u : Standalone} {b : Bridge} (hu : u.Inv params) (hb : b.Inv params) (ts : List Turn) :
    ({ withUnit u with bridge := b, schedule := ts } : State).Inv := by
  refine ⟨(by decide : params.Legal), rfl, fun v hv => ?_, hb⟩
  rcases List.mem_cons.1 hv with rfl | hv
  · exact hu
  · cases List.mem_singleton.1 hv
    exact ⟨(by decide : Fifo.Inv params (Standalone.reset params 0 4).fifo), trivial, trivial⟩

theorem lagging4_inv : lagging4.Inv params := ⟨by decide, trivial, trivial⟩

theorem held4_inv : Standalone.Inv params { lagging4 with prd := .waitPush 1 [7] true, con := .waitPop 4 true } :=
  ⟨by decide, by unfold PrdPort.Inv; decide, by unfold ConPort.Inv; decide⟩

theorem bridge22_built : bridge22.Built params := by unfold Bridge.Built; decide

theorem bridge22_inv : bridge22.Inv params :=
  ⟨by decide, by decide, by decide, ⟨bridge22_built, rfl⟩, trivial, trivial⟩

theorem bridge22_aligned : bridge22.Aligned := by unfold Bridge.Aligned; decide

/-- Instance 0 with lagging views and both ports held, and the running bridge. -/
def busy : State := { withUnit { lagging4 with prd := .waitPush 1 [7] true, con := .waitPop 4 true } with
  bridge := bridge22 }

theorem busy_inv (ts : List Turn) : ({ busy with schedule := ts } : State).Inv := inv_of held4_inv bridge22_inv ts

theorem witness_ResetHasInvariant : params.Legal ∧ Params.least.Legal := by decide

theorem witness_StepKeepsInvariant :
    (offered busy (.recheck (.prd 0))).Inv ∧ (∃ t, step (offered busy (.recheck (.prd 0))) = .next t) ∧
      (offered busy (.issue (ask .aud 0x30000002 (.planar [[1, 2], [3, 4]])))).Inv ∧
      ∃ t, step (offered busy (.issue (ask .aud 0x30000002 (.planar [[1, 2], [3, 4]])))) = .next t :=
  ⟨busy_inv _, ⟨_, rfl⟩, busy_inv _, ⟨_, rfl⟩⟩

theorem witness_InvariantBoundsViews :
    busy.Inv ∧ busy.fifo? (.unit 0) = some lagging4.fifo ∧ lagging4.fifo.constructed = true ∧
      busy.fifo? .input = some bridge22.inF ∧ lagging4.fifo.qh ≠ [] ∧ bridge22.inF.qh = [] :=
  ⟨busy_inv _, rfl, rfl, rfl, by decide, rfl⟩

theorem witness_NoStepFaults :
    busy.Inv ∧ busy.fifo? (.unit 0) = some lagging4.fifo ∧ 0 < availSeen lagging4.fifo :=
  ⟨busy_inv _, rfl, by decide⟩

theorem witness_FrameAlignmentKept :
    (offered busy (.issue (ask .wrk 0x29000001 (.words [1, 2])))).Inv ∧ busy.bridge.Aligned ∧
      ∃ t, step (offered busy (.issue (ask .wrk 0x29000001 (.words [1, 2])))) = .next t :=
  ⟨busy_inv _, bridge22_aligned, _, rfl⟩

theorem witness_SeenCountsAreWholeFrames : busy.Inv ∧ busy.bridge.Built busy.params ∧ busy.bridge.Aligned :=
  ⟨busy_inv _, bridge22_built, bridge22_aligned⟩

/-- Two frames of two channels in a bridge that has just started, with PERIOD 2, whatever turns are to come. -/
theorem witness_CallbackRoundTripReshapes (ts : List Turn) :
    ({ busy with schedule := ts } : State).Inv ∧ busy.bridge = bridge22 ∧ bridge22.bstate = .running ∧ bridge22.nin = bridge22.nout ∧
      bridge22.inF.level = 0 ∧ bridge22.outF.level = 0 ∧ bridge22.inF.Quiet ∧ bridge22.outF.Quiet ∧
      bridge22.aud = .idle ∧ bridge22.wrk = .idle ∧ (2 : Count).toNat ≤ bridge22.period.toNat ∧
      (2 : Count).toNat ≤ params.frameCap.toNat ∧ Planar [[1, 2], [3, 4]] bridge22.nin.toNat (2 : Count).toNat ∧
      Planar [[5, 6], [7, 8]] bridge22.nin.toNat (2 : Count).toNat ∧
      FrameMajor [1, 3, 2, 4] [[1, 2], [3, 4]] bridge22.nin.toNat (2 : Count).toNat :=
  ⟨busy_inv ts, rfl, rfl, rfl, by decide, by decide, by decide, by decide, rfl, rfl, by decide, by decide, by decide,
    by decide, by unfold FrameMajor; decide⟩

theorem witness_CompletionStaysEnabled :
    ∃ t, (offered busy (.syncT (.unit 0) 1)).Inv ∧ busy.completionReady (.prd 0) = true ∧
      some (Event.syncT (.unit 0) 1) ≠ some (.recheck (.prd 0)) ∧
      step (offered busy (.syncT (.unit 0) 1)) = .next t := ⟨_, busy_inv _, by decide, by decide, rfl⟩

/-! ### Weakly fair runs -/

/-- A turn in which nobody steps. -/
def quietTurn : Turn := { rst := false, ev := none }

/-- The run that takes one turn and then none. -/
def settle (s s' : State) (t : Turn) (h : step (s.offer t) = .next s') (hs : s'.schedule = []) : Run where
  state n := if n = 0 then s else s'
  turn n := if n = 0 then t else quietTurn
  steps n := by
    cases n with
    | zero => exact h
    | succ m =>
      cases s'
      cases hs
      rfl

/-- Nothing is enabled in a state where the run is over. -/
theorem not_enabled {s : State} (h : s.runOver) (a : FairAgent) : ¬ a.Enabled s := by
  obtain ⟨⟨hu, ha, hw⟩, qu, qi, qo⟩ := h
  have quiet : ∀ f x, s.fifo? f = some x → x.Quiet := by
    intro f x hx
    cases f with
    | unit y =>
      obtain ⟨u, hy, rfl⟩ := Option.map_eq_some_iff.1 hx
      exact qu u (List.mem_of_getElem? hy)
    | input => cases hx; exact qi
    | output => cases hx; exact qo
  cases a with
  | syncH f => rintro ⟨x, hx, hq⟩; exact hq (quiet f x hx).1
  | syncT f => rintro ⟨x, hx, hq⟩; exact hq (quiet f x hx).2
  | egress => exact fun h => h ha
  | completion p =>
    cases p with
    | prd y =>
      cases hy : s.fifos[y]? with
      | none => simp [FairAgent.Enabled, State.completionReady, hy]
      | some u =>
        have hp := (hu u (List.mem_of_getElem? hy)).1
        simp [FairAgent.Enabled, State.completionReady, hy, Standalone.prdReady, hp]
    | con y =>
      cases hy : s.fifos[y]? with
      | none => simp [FairAgent.Enabled, State.completionReady, hy]
      | some u =>
        have hp := (hu u (List.mem_of_getElem? hy)).2
        simp [FairAgent.Enabled, State.completionReady, hy, Standalone.conReady, hp]
    | wrk => simp [FairAgent.Enabled, State.completionReady, Bridge.wrkReady, hw]
    | cfg y => simp [FairAgent.Enabled, State.completionReady]
    | ctl => simp [FairAgent.Enabled, State.completionReady]
    | aud => simp [FairAgent.Enabled, State.completionReady]

theorem settle_fair {s s' : State} {t : Turn} (h : step (s.offer t) = .next s') (hs : s'.schedule = [])
    (hover : s'.runOver) : (settle s s' t h hs).WeaklyFair :=
  fun a n he => absurd (he (n + 1) (Nat.le_succ n)) (not_enabled hover a)

theorem settle_noReset {s s' : State} {t : Turn} (h : step (s.offer t) = .next s') (hs : s'.schedule = [])
    (ht : t.rst = false) : (settle s s' t h hs).NoReset := by
  intro n
  cases n with
  | zero => exact ht
  | succ m => rfl

theorem resetBridge_inv : (Bridge.reset params 0).Inv params :=
  ⟨by decide, by decide, by decide, ⟨⟨rfl, rfl⟩, rfl, rfl, rfl⟩, trivial, trivial⟩

/-- An instance with one published TAIL and no HEAD to deliver. -/
def tailDue : Standalone :=
  alone { ring 4 .zero ⟨false, 1⟩ [(0, 9)] with tview := .zero, qt := [⟨false, 1⟩] }

/-- An instance with one published HEAD and no TAIL to deliver. -/
def headDue : Standalone :=
  alone { ring 4 ⟨false, 1⟩ ⟨false, 1⟩ [(0, 9)] with hview := .zero, qh := [⟨false, 1⟩] }

theorem witness_FairRunDeliversPublished :
    (∃ r : Run, r.WeaklyFair ∧ r.NoReset ∧ (r.state 0).Inv ∧ (r.state 0).fifo? (.unit 0) = some tailDue.fifo ∧
      tailDue.fifo.qt ≠ []) ∧
    ∃ r : Run, r.WeaklyFair ∧ r.NoReset ∧ (r.state 0).Inv ∧ (r.state 0).fifo? (.unit 0) = some headDue.fifo ∧
      headDue.fifo.qh ≠ [] := by
  constructor
  · refine ⟨settle (withUnit tailDue) (withUnit (alone (ring 4 .zero ⟨false, 1⟩ [(0, 9)])))
      (turnOf (.syncT (.unit 0) 1)) rfl rfl, settle_fair _ _ ?_, settle_noReset _ _ rfl, ?_, rfl, by decide⟩
    · unfold State.runOver State.allIdle State.quiescent; decide
    · exact inv_of (u := tailDue) ⟨by decide, trivial, trivial⟩ resetBridge_inv []
  · refine ⟨settle (withUnit headDue) (withUnit (alone (ring 4 ⟨false, 1⟩ ⟨false, 1⟩ [(0, 9)])))
      (turnOf (.syncH (.unit 0) 1)) rfl rfl, settle_fair _ _ ?_, settle_noReset _ _ rfl, ?_, rfl, by decide⟩
    · unfold State.runOver State.allIdle State.quiescent; decide
    · exact inv_of (u := headDue) ⟨by decide, trivial, trivial⟩ resetBridge_inv []

/-- The bridge in SHUTDOWN with a held read. -/
def heldInShutdown : Bridge := { bridge22 with bstate := .shutdown, wrk := .waitRead 3 true }

theorem heldInShutdown_inv : heldInShutdown.Inv params :=
  ⟨by decide, by decide, by decide, .inl bridge22_built, trivial, bridge22_built, rfl, by decide, by decide⟩

theorem witness_FairRunReleasesHeldWorker :
    ∃ r : Run, r.WeaklyFair ∧ r.NoReset ∧ (r.state 0).Inv ∧ (r.state 0).bridge.bstate = .shutdown ∧
      (r.state 0).bridge.wrk ≠ .idle := by
  refine ⟨settle (withBridge heldInShutdown) { withBridge { heldInShutdown with wrk := .idle } with
      replies := [errOn .wrk 7] } (turnOf (.recheck .wrk)) rfl rfl, settle_fair _ _ ?_, settle_noReset _ _ rfl, ?_, rfl,
    by decide⟩
  · unfold State.runOver State.allIdle State.quiescent; decide
  · exact inv_of (u := Standalone.reset params 0 3) ⟨by decide, trivial, trivial⟩ heldInShutdown_inv []

end Sys2Proof.Tests
end

section
/-! SUPPORT. What no step changes: the parameters and the number of standalone FIFOs (00_scope.md R8). -/

namespace Sys2Proof.Machine

/-! ## What the operations on a part of the state leave alone -/

@[simp] theorem State.mapFifo_params (s : State) (f : FifoName) (g : Fifo → Fifo) :
    (s.mapFifo f g).params = s.params := by
  cases f with
  | unit x => unfold State.mapFifo; dsimp only; split <;> rfl
  | input => rfl
  | output => rfl

@[simp] theorem State.mapFifo_length (s : State) (f : FifoName) (g : Fifo → Fifo) :
    (s.mapFifo f g).fifos.length = s.fifos.length := by
  cases f with
  | unit x => unfold State.mapFifo; dsimp only; split <;> simp
  | input => rfl
  | output => rfl

@[simp] theorem egressOf_params (s : State) (n : Count) (sin : Bool) : (egressOf s n sin).params = s.params := by
  rw [egressOf_eq]; rfl

@[simp] theorem egressOf_fifos (s : State) (n : Count) (sin : Bool) : (egressOf s n sin).fifos = s.fifos := by
  rw [egressOf_eq]; rfl

@[simp] theorem State.resetBlock_params (s : State) (ts : List Turn) : (s.resetBlock ts).params = s.params := rfl

theorem State.resetBlock_length (s : State) (ts : List Turn) :
    (s.resetBlock ts).fifos.length = s.params.extraFifos + 1 := resetOf_length _ _

/-! ## What a step leaves alone -/

/-- A command keeps the parameters and the number of standalone FIFOs. -/
theorem ExecCase.params_length {s t : State} {i : Instr} (h : ExecCase s i t) :
    t.params = s.params ∧ t.fifos.length = s.fifos.length := by
  cases h with
  | fifoPush n d x u =>
    obtain ⟨hp, -, -, hl⟩ := pushStep_frame s x u n d u.pushBlock
    exact ⟨hp, hl⟩
  | fifoPop n x u =>
    obtain ⟨hp, -, -, hl⟩ := popStep_frame s x u n u.popBlock
    exact ⟨hp, hl⟩
  | brReadFrames n =>
    obtain ⟨hp, hf, -⟩ := readStep_frame s n s.bridge.rdBlock
    exact ⟨hp, congrArg _ hf⟩
  | brWriteFrames n d =>
    obtain ⟨hp, hf, -⟩ := writeStep_frame s n d s.bridge.wrBlock
    exact ⟨hp, congrArg _ hf⟩
  | _ => simp

/-- So does every event of an agent. -/
theorem EventCase.params_length {s t : State} {e : Event} (h : EventCase s e t) :
    t.params = s.params ∧ t.fifos.length = s.fifos.length := by
  cases h with
  | command r i t hb hd h => exact h.params_length
  | push x u n d blk =>
    obtain ⟨hp, -, -, hl⟩ := pushStep_frame s x u n d blk
    exact ⟨hp, hl⟩
  | pop x u n blk =>
    obtain ⟨hp, -, -, hl⟩ := popStep_frame s x u n blk
    exact ⟨hp, hl⟩
  | readFrames n blk =>
    obtain ⟨hp, hf, -⟩ := readStep_frame s n blk
    exact ⟨hp, congrArg _ hf⟩
  | writeFrames n d blk =>
    obtain ⟨hp, hf, -⟩ := writeStep_frame s n d blk
    exact ⟨hp, congrArg _ hf⟩
  | release => exact ⟨rfl, rfl⟩
  | _ => simp

/-- Settles O49: only reset rebuilds the list of FIFOs, and it rebuilds as many as the parameters give. -/
theorem parametersAreHardwired : Obligations.ParametersAreHardwired := by
  intro s t h
  rcases step_cases h with ⟨-, rfl⟩ | ⟨e, ts, -, rfl⟩ | ⟨ts, -, rfl⟩ | ⟨e, ts, -, -, he⟩
  · exact ⟨rfl, id⟩
  · exact ⟨rfl, fun _ => s.resetBlock_length _⟩
  · exact ⟨rfl, id⟩
  · obtain ⟨hp, hl⟩ := he.params_length
    refine ⟨hp, fun hs => ?_⟩
    rw [hl, hp]
    exact hs

end Sys2Proof.Machine
end

section
/-! SUPPORT. The invariant of the machine is kept by every step (10_state.md R23, R31, R33, R42, 41_fifo_transfer.md
R93, 43_bridge_stream.md R126): first one FIFO and its held commands, then the bridge, then the whole state. -/

namespace Sys2Proof.Machine

/-! ## One FIFO -/

theorem Fifo.Inv.live {p : Params} {x : Fifo} (h : x.Inv p) (hc : x.constructed = true) : x.Live := by
  obtain ⟨-, -, hl | hu⟩ := h
  · exact hl
  · exact absurd hc (by simp [hu.1])

theorem Fifo.Inv.cap_le {p : Params} {x : Fifo} (h : x.Inv p) : x.cap.toNat ≤ p.depthMax.toNat := h.2.1

/-- A push that does not hold keeps the invariant of its FIFO, its capacity and its construction. -/
theorem Fifo.Inv.pushCore {p : Params} {x f : Fifo} {d : List Word} {n k : Nat} {blk : Bool} (h : x.Inv p)
    (hd : d.length = n) (hp : x.pushCore d n blk = some (k, f)) :
    f.Inv p ∧ f.constructed = x.constructed ∧ f.cap = x.cap := by
  obtain ⟨rfl, hkn, hkf, -⟩ := pushCore_some hp
  exact ⟨h.pushMove hkf (hd ▸ hkn), by simp, by simp⟩

/-- So does a pop that does not hold. -/
theorem Fifo.Inv.popCore {p : Params} {x f : Fifo} {n k : Nat} {out : List Word} {blk : Bool} (h : x.Inv p)
    (hp : x.popCore n blk = some (k, out, f)) : f.Inv p ∧ f.constructed = x.constructed ∧ f.cap = x.cap := by
  obtain ⟨rfl, -, -, hk, -⟩ := popCore_some hp
  exact ⟨h.popMove hk, by simp, by simp⟩

/-! ## Standalone FIFOs -/

theorem PrdPort.Inv.congr {x y : Fifo} {q : PrdPort} (h : q.Inv x) (hc : y.constructed = x.constructed)
    (hC : y.cap = x.cap) : q.Inv y := by
  cases q with
  | idle => trivial
  | waitPush n d blk => simpa only [PrdPort.Inv, hc, hC] using h

theorem ConPort.Inv.congr {x y : Fifo} {q : ConPort} (h : q.Inv x) (hc : y.constructed = x.constructed)
    (hC : y.cap = x.cap) : q.Inv y := by
  cases q with
  | idle => trivial
  | waitPop n blk => simpa only [ConPort.Inv, hc, hC] using h

/-- Nothing is held on a FIFO that is not constructed. -/
theorem PrdPort.Inv.eq_idle {x : Fifo} {q : PrdPort} (h : q.Inv x) (hc : x.constructed = false) : q = .idle := by
  cases q with
  | idle => rfl
  | waitPush n d blk => exact absurd h.1 (by simp [hc])

theorem ConPort.Inv.eq_idle {x : Fifo} {q : ConPort} (h : q.Inv x) (hc : x.constructed = false) : q = .idle := by
  cases q with
  | idle => rfl
  | waitPop n blk => exact absurd h.1 (by simp [hc])

/-- A held command keeps what it needs while the capacity stays. -/
theorem Standalone.Inv.withFifo {p : Params} {u : Standalone} {f : Fifo} (h : u.Inv p) (hf : f.Inv p)
    (hc : f.constructed = u.fifo.constructed) (hC : f.cap = u.fifo.cap) : Standalone.Inv p { u with fifo := f } := by
  obtain ⟨-, hprd, hcon⟩ := h
  exact ⟨hf, hprd.congr hc hC, hcon.congr hc hC⟩

theorem Standalone.Inv.withPrd {p : Params} {u : Standalone} {q : PrdPort} (h : u.Inv p) (hq : q.Inv u.fifo) :
    Standalone.Inv p { u with prd := q } := ⟨h.1, hq, h.2.2⟩

theorem Standalone.Inv.withCon {p : Params} {u : Standalone} {q : ConPort} (h : u.Inv p) (hq : q.Inv u.fifo) :
    Standalone.Inv p { u with con := q } := ⟨h.1, h.2.1, hq⟩

/-- The modes and the poll interval are free. -/
theorem Standalone.Inv.withModes {p : Params} {u : Standalone} (h : u.Inv p) (m0 m1 : Bool) (n : Count) :
    Standalone.Inv p { u with pushBlock := m0, popBlock := m1, nap := n } := h

theorem Standalone.Inv.construct {p : Params} {u : Standalone} {n : Count} (h : u.Inv p)
    (hc : u.fifo.constructed = false) (h0 : 0 < n.toNat) (hn : n.toNat ≤ p.depthMax.toNat) :
    Standalone.Inv p { u with fifo := u.fifo.construct n } := by
  obtain ⟨hf, hprd, hcon⟩ := h
  refine ⟨hf.construct hc h0 hn, ?_, ?_⟩
  · rw [show u.prd = .idle from hprd.eq_idle hc]; trivial
  · rw [show u.con = .idle from hcon.eq_idle hc]; trivial

theorem Standalone.Inv.reset (p : Params) (epoch part : Nat) : (Standalone.reset p epoch part).Inv p :=
  ⟨Fifo.Inv.reset p epoch part, trivial, trivial⟩

/-! ## The bridge -/

/-- The configuration of the bridge, and the construction and capacity of IN and OUT, are the same. -/
structure Bridge.SameRings (b c : Bridge) : Prop where
  nin : c.nin = b.nin
  nout : c.nout = b.nout
  period : c.period = b.period
  inBuilt : c.inF.constructed = b.inF.constructed
  inCap : c.inF.cap = b.inF.cap
  outBuilt : c.outF.constructed = b.outF.constructed
  outCap : c.outF.cap = b.outF.cap

section
variable {p : Params} {b c : Bridge}

theorem Bridge.SameRings.built (hs : b.SameRings c) (h : b.Built p) : c.Built p := by
  simpa only [Bridge.Built, hs.nin, hs.nout, hs.period, hs.inBuilt, hs.inCap, hs.outBuilt, hs.outCap] using h

theorem Bridge.SameRings.notBuilt (hs : b.SameRings c) (h : b.NotBuilt) : c.NotBuilt := by
  simpa only [Bridge.NotBuilt, hs.inBuilt, hs.outBuilt] using h

theorem Bridge.LifecycleInv.congr (h : b.LifecycleInv p) (hs : b.SameRings c) (hb : c.bstate = b.bstate)
    (hd : c.hostSd = b.hostSd) : c.LifecycleInv p := by
  simp only [Bridge.LifecycleInv, hb, hd, hs.nin, hs.nout] at h ⊢
  cases hv : b.bstate <;> simp only [hv] at h ⊢
  case unconfigured => exact ⟨hs.notBuilt h.1, h.2⟩
  case configured => exact ⟨hs.notBuilt h.1, h.2⟩
  case running => exact ⟨hs.built h.1, h.2⟩
  case shutdown => exact h.imp hs.built (And.imp_left hs.notBuilt)

theorem Bridge.LifecycleInv.built (h : b.LifecycleInv p) (hb : b.bstate = .running) :
    b.Built p ∧ b.hostSd = false := by
  simpa only [Bridge.LifecycleInv, hb] using h

/-- Before BR_INITIALIZE nothing is constructed, and the host has not shut the bridge down. -/
theorem Bridge.LifecycleInv.notBuilt (h : b.LifecycleInv p)
    (hb : b.bstate = .unconfigured ∨ b.bstate = .configured) : b.NotBuilt ∧ b.hostSd = false := by
  rcases hb with hb | hb <;> simp only [Bridge.LifecycleInv, hb] at h
  · obtain ⟨hn, -, -, hd⟩ := h
    exact ⟨hn, hd⟩
  · obtain ⟨hn, -, -, hd⟩ := h
    exact ⟨hn, hd⟩

theorem Bridge.LifecycleInv.channels (h : b.LifecycleInv p) (hb : b.bstate = .configured) :
    goodChannels p b.nin ∧ goodChannels p b.nout := by
  simp only [Bridge.LifecycleInv, hb] at h
  obtain ⟨-, hi, ho, -⟩ := h
  exact ⟨hi, ho⟩

/-- What BR_SHUTDOWN finds, in whatever lifecycle state. -/
theorem Bridge.LifecycleInv.built_or (h : b.LifecycleInv p) : b.Built p ∨ (b.NotBuilt ∧ b.hostSd = false) := by
  cases hv : b.bstate with
  | unconfigured => exact .inr (h.notBuilt (.inl hv))
  | configured => exact .inr (h.notBuilt (.inr hv))
  | running => exact .inl (h.built hv).1
  | shutdown => simpa only [Bridge.LifecycleInv, hv] using h

theorem Bridge.Built.inCap (h : b.Built p) : b.inF.cap.toNat = p.frameCap.toNat * b.nin.toNat := by
  obtain ⟨-, -, -, -, -, -, hc, -⟩ := h
  exact hc

theorem Bridge.Built.outCap (h : b.Built p) : b.outF.cap.toNat = p.frameCap.toNat * b.nout.toNat := by
  obtain ⟨-, -, -, -, -, -, -, hc⟩ := h
  exact hc

theorem Bridge.Built.inBuilt (h : b.Built p) : b.inF.constructed = true := by
  obtain ⟨-, -, -, -, hi, -⟩ := h
  exact hi

theorem Bridge.Built.outBuilt (h : b.Built p) : b.outF.constructed = true := by
  obtain ⟨-, -, -, -, -, ho, -⟩ := h
  exact ho

theorem Bridge.NotBuilt.not_built (h : b.NotBuilt) : ¬ b.Built p := by
  rintro ⟨-, -, -, -, hi, -⟩
  exact absurd hi (by simp [h.1])

theorem Bridge.AudInv.of_idle (h : b.aud = .idle) : b.AudInv p := by simp [Bridge.AudInv, h]

theorem Bridge.WrkInv.of_idle (h : b.wrk = .idle) : b.WrkInv p := by simp [Bridge.WrkInv, h]

theorem Bridge.AudInv.congr (h : b.AudInv p) (hs : b.SameRings c) (ha : c.aud = b.aud) : c.AudInv p := by
  unfold Bridge.AudInv at h ⊢
  rw [ha, hs.period]
  cases hv : b.aud with
  | idle => trivial
  | egress n sin =>
    rw [hv] at h
    exact ⟨hs.built h.1, h.2⟩

theorem Bridge.WrkInv.congr (h : b.WrkInv p) (hs : b.SameRings c) (hw : c.wrk = b.wrk) : c.WrkInv p := by
  unfold Bridge.WrkInv at h ⊢
  rw [hw, hs.nout]
  cases hv : b.wrk with
  | idle => trivial
  | waitRead k blk =>
    rw [hv] at h
    exact ⟨hs.built h.1, h.2⟩
  | waitWrite k d blk =>
    rw [hv] at h
    exact ⟨hs.built h.1, h.2⟩

/-- No callback is pending before BR_INITIALIZE. -/
theorem Bridge.AudInv.eq_idle (h : b.AudInv p) (hn : b.NotBuilt) : b.aud = .idle := by
  unfold Bridge.AudInv at h
  cases hv : b.aud with
  | idle => rfl
  | egress n sin =>
    rw [hv] at h
    exact absurd h.1 hn.not_built

/-- No worker command is held before BR_INITIALIZE. -/
theorem Bridge.WrkInv.eq_idle (h : b.WrkInv p) (hn : b.NotBuilt) : b.wrk = .idle := by
  unfold Bridge.WrkInv at h
  cases hv : b.wrk with
  | idle => rfl
  | waitRead k blk =>
    rw [hv] at h
    exact absurd h.1 hn.not_built
  | waitWrite k d blk =>
    rw [hv] at h
    exact absurd h.1 hn.not_built

/-- A held read is of IN and OUT as BR_INITIALIZE left them. -/
theorem Bridge.WrkInv.waitRead {k : Count} {blk : Bool} (h : b.WrkInv p) (hw : b.wrk = .waitRead k blk) :
    b.Built p := by
  unfold Bridge.WrkInv at h
  rw [hw] at h
  exact h.1

/-- A held write is of IN and OUT as BR_INITIALIZE left them, and keeps all its words. -/
theorem Bridge.WrkInv.waitWrite {k : Count} {d : List Word} {blk : Bool} (h : b.WrkInv p)
    (hw : b.wrk = .waitWrite k d blk) : b.Built p ∧ d.length = k.toNat * b.nout.toNat := by
  unfold Bridge.WrkInv at h
  rw [hw] at h
  obtain ⟨hB, -, -, -, hd⟩ := h
  exact ⟨hB, hd⟩

theorem Bridge.Inv.input (h : b.Inv p) : b.inF.Inv p := h.1

theorem Bridge.Inv.output (h : b.Inv p) : b.outF.Inv p := h.2.1

theorem Bridge.Inv.scratch (h : b.Inv p) : b.scr.Fits p.scratchSize := h.2.2.1

theorem Bridge.Inv.lifecycle (h : b.Inv p) : b.LifecycleInv p := h.2.2.2.1

theorem Bridge.Inv.audPort (h : b.Inv p) : b.AudInv p := h.2.2.2.2.1

theorem Bridge.Inv.wrkPort (h : b.Inv p) : b.WrkInv p := h.2.2.2.2.2

theorem Bridge.Inv.built (h : b.Inv p) (hb : b.bstate = .running) : b.Built p := (h.lifecycle.built hb).1

/-- IN may be replaced by a FIFO with the invariant, as constructed as it was and of the same capacity. -/
theorem Bridge.Inv.withInput {f : Fifo} (h : b.Inv p) (hf : f.Inv p) (hc : f.constructed = b.inF.constructed)
    (hC : f.cap = b.inF.cap) : Bridge.Inv p { b with inF := f } := by
  have hs : b.SameRings { b with inF := f } := ⟨rfl, rfl, rfl, hc, hC, rfl, rfl⟩
  exact ⟨hf, h.output, h.scratch, h.lifecycle.congr hs rfl rfl, h.audPort.congr hs rfl, h.wrkPort.congr hs rfl⟩

/-- The same of OUT. -/
theorem Bridge.Inv.withOutput {f : Fifo} (h : b.Inv p) (hf : f.Inv p) (hc : f.constructed = b.outF.constructed)
    (hC : f.cap = b.outF.cap) : Bridge.Inv p { b with outF := f } := by
  have hs : b.SameRings { b with outF := f } := ⟨rfl, rfl, rfl, rfl, rfl, hc, hC⟩
  exact ⟨h.input, hf, h.scratch, h.lifecycle.congr hs rfl rfl, h.audPort.congr hs rfl, h.wrkPort.congr hs rfl⟩

theorem Bridge.Inv.withScratch {m : Memory} (h : b.Inv p) (hm : m.Fits p.scratchSize) :
    Bridge.Inv p { b with scr := m } := ⟨h.input, h.output, hm, h.lifecycle, h.audPort, h.wrkPort⟩

theorem Bridge.Inv.withAud {a : AudPort} (h : b.Inv p) (ha : Bridge.AudInv p { b with aud := a }) :
    Bridge.Inv p { b with aud := a } := ⟨h.input, h.output, h.scratch, h.lifecycle, ha, h.wrkPort⟩

theorem Bridge.Inv.withWrk {w : WrkPort} (h : b.Inv p) (hw : Bridge.WrkInv p { b with wrk := w }) :
    Bridge.Inv p { b with wrk := w } := ⟨h.input, h.output, h.scratch, h.lifecycle, h.audPort, hw⟩

/-- The modes, the poll interval and FAULT are free. -/
theorem Bridge.Inv.withModes (h : b.Inv p) (m0 m1 : Bool) (n : Count) (q : Bool) :
    Bridge.Inv p { b with rdBlock := m0, wrBlock := m1, nap := n, faultBit := q } := h

/-- So are the counters of short transfers. -/
theorem Bridge.Inv.withCounters (h : b.Inv p) (v w : Word) :
    Bridge.Inv p { b with ovfCnt := v, unfCnt := w } := h

end

/-! ## The bridge's commands -/

section
variable {p : Params} {b : Bridge}

/-- The capacity of R107 fits in 24 bits, since it is at most DEPTH_MAX (R8). -/
theorem ringCapacity_toNat {n : Channels} (hp : p.Legal) (hn : n.toNat ≤ p.maxCh.toNat) :
    (ringCapacity p n).toNat = p.frameCap.toNat * n.toNat ∧ p.frameCap.toNat * n.toNat ≤ p.depthMax.toNat := by
  obtain ⟨-, -, -, hd, -⟩ := hp
  have hle : p.frameCap.toNat * n.toNat ≤ p.depthMax.toNat := le_trans (Nat.mul_le_mul_left _ hn) hd
  refine ⟨?_, hle⟩
  rw [ringCapacity, BitVec.toNat_ofNat, Nat.mod_eq_of_lt (lt_of_le_of_lt hle p.depthMax.isLt)]

theorem goodChannels_of_not_bad {n : Channels} (h : ¬ badChannels p n) : goodChannels p n :=
  ⟨by omega, by omega⟩

theorem Bridge.Inv.configure {m n : Channels} (h : b.Inv p)
    (hb : b.bstate = .unconfigured ∨ b.bstate = .configured) (hm : ¬ badChannels p m) (hn : ¬ badChannels p n) :
    Bridge.Inv p { b with nin := m, nout := n, bstate := .configured } := by
  obtain ⟨hin, hout, hscr, hlife, ha, hw⟩ := h
  obtain ⟨hnb, hd⟩ := hlife.notBuilt hb
  exact ⟨hin, hout, hscr, ⟨hnb, goodChannels_of_not_bad hm, goodChannels_of_not_bad hn, hd⟩,
    .of_idle (ha.eq_idle hnb), .of_idle (hw.eq_idle hnb)⟩

theorem Bridge.Inv.start {a : HostAnswer} (hp : p.Legal) (h : b.Inv p) (hb : b.bstate = .configured)
    (h0 : 0 < a.period) (h1 : a.period ≤ p.periodMax.toNat) : (b.start p a).Inv p := by
  obtain ⟨hin, hout, hscr, hlife, ha, hw⟩ := h
  obtain ⟨hnb, hd⟩ := hlife.notBuilt (.inr hb)
  obtain ⟨hi, ho⟩ := hlife.channels hb
  obtain ⟨hci, hdi⟩ := ringCapacity_toNat hp hi.2
  obtain ⟨hco, hdo⟩ := ringCapacity_toNat hp ho.2
  obtain ⟨-, -, hf, -, -⟩ := hp
  have hper : (BitVec.ofNat 24 a.period).toNat = a.period := by
    rw [BitVec.toNat_ofNat, Nat.mod_eq_of_lt (lt_of_le_of_lt h1 p.periodMax.isLt)]
  have hB : (b.start p a).Built p := ⟨hi, ho, hper.symm ▸ h0, hper.symm ▸ h1, rfl, rfl, hci, hco⟩
  exact ⟨hin.construct hnb.1 (hci ▸ Nat.mul_pos hf hi.1) (hci ▸ hdi),
    hout.construct hnb.2 (hco ▸ Nat.mul_pos hf ho.1) (hco ▸ hdo), hscr, ⟨hB, hd⟩, .of_idle (ha.eq_idle hnb),
    .of_idle (hw.eq_idle hnb)⟩

theorem Bridge.Inv.shutdown (h : b.Inv p) : Bridge.Inv p { b with bstate := .shutdown } := by
  obtain ⟨hin, hout, hscr, hlife, ha, hw⟩ := h
  exact ⟨hin, hout, hscr, hlife.built_or, ha, hw⟩

theorem Bridge.Inv.hostShutdown (h : b.Inv p) (hb : b.bstate = .running) :
    Bridge.Inv p { b with bstate := .shutdown, hostSd := true } := by
  obtain ⟨hin, hout, hscr, hlife, ha, hw⟩ := h
  exact ⟨hin, hout, hscr, .inl (hlife.built hb).1, ha, hw⟩

theorem Bridge.Inv.reset (p : Params) (epoch : Nat) : (Bridge.reset p epoch).Inv p := by
  have hnil : (Memory.blank epoch 2).Fits p.scratchSize := ⟨List.Pairwise.nil, by simp [Memory.blank]⟩
  exact ⟨Fifo.Inv.reset p epoch 0, Fifo.Inv.reset p epoch 1, hnil, ⟨⟨rfl, rfl⟩, rfl, rfl, rfl⟩, trivial, trivial⟩

/-- The ingest phase fills positions 0 .. F × NIN − 1 of the scratch buffer and pushes to IN (R121). -/
theorem Bridge.Inv.ingest {n : Count} {bufs : List (List Word)} (h : b.Inv p) (hb : b.bstate = .running)
    (hn : n.toNat ≤ b.period.toNat) (hw : n.toNat * b.nin.toNat ≤ p.scratchSize) : (ingest b n bufs).Inv p := by
  have hB := h.built hb
  rw [ingest_eq]
  have hpush := h.input.pushMove (d := interleave bufs b.nin.toNat n.toNat)
    (Nat.min_le_right (n.toNat * b.nin.toNat) b.inF.prdFree) (by rw [length_interleave]; exact Nat.min_le_left _ _)
  have hscr := h.scratch.writeRun (j := 0) (ws := interleave bufs b.nin.toNat n.toNat)
    (by rw [length_interleave, Nat.zero_add]; exact hw)
  exact ((((h.withAud (a := .egress n _) ⟨hB, hn⟩).withInput hpush (by simp) (by simp)).withScratch hscr).withCounters _
    b.unfCnt)

end

/-! ## The whole state -/

section
variable {s : State}

theorem State.Inv.unit {x : Nat} {u : Standalone} (h : s.Inv) (hu : s.fifos[x]? = some u) : u.Inv s.params := by
  obtain ⟨-, -, hf, -⟩ := h
  exact hf u (List.mem_of_getElem? hu)

theorem State.Inv.bridge (h : s.Inv) : s.bridge.Inv s.params := by
  obtain ⟨-, -, -, hb⟩ := h
  exact hb

theorem State.Inv.setUnit {x : Nat} {u : Standalone} (h : s.Inv) (hu : u.Inv s.params) : (s.setUnit x u).Inv := by
  obtain ⟨hp, hl, hf, hb⟩ := h
  exact ⟨hp, by simpa using hl, State.setUnit_forall hf hu, hb⟩

theorem State.Inv.setBridge {b : Bridge} (h : s.Inv) (hb : b.Inv s.params) : (s.setBridge b).Inv := by
  obtain ⟨hp, hl, hf, -⟩ := h
  exact ⟨hp, hl, hf, hb⟩

theorem State.Inv.setSchedule (h : s.Inv) (ts : List Turn) : (s.setSchedule ts).Inv := h

theorem State.Inv.latch (h : s.Inv) (r : Request) : (s.latch r).Inv := h

theorem State.Inv.answer (h : s.Inv) (q : Port) (r : Response) : (s.answer q r).Inv := h

theorem State.Inv.respond (h : s.Inv) (r : Response) : (s.respond r).Inv := h

theorem State.Inv.fail (h : s.Inv) (e : ErrCode) : (s.fail e).Inv := h

theorem State.Inv.resetOf {p : Params} (hp : p.Legal) (epoch : Nat) : (State.resetOf p epoch).Inv := by
  refine ⟨hp, resetOf_length _ _, fun u hu => ?_, Bridge.Inv.reset p epoch⟩
  obtain ⟨q, rfl⟩ := mem_resetOf hu
  exact .reset p epoch q

theorem State.Inv.resetBlock (h : s.Inv) (ts : List Turn) : (s.resetBlock ts).Inv := State.Inv.resetOf h.1 (s.epoch + 1)

/-- A step on one FIFO that keeps the invariant of a FIFO, its construction and its capacity. -/
theorem State.Inv.mapFifo {g : Fifo → Fifo} (h : s.Inv) (hg : ∀ x : Fifo, x.Inv s.params → (g x).Inv s.params)
    (hc : ∀ x, (g x).constructed = x.constructed) (hC : ∀ x, (g x).cap = x.cap) (f : FifoName) :
    (s.mapFifo f g).Inv := by
  cases f with
  | unit x =>
    unfold State.mapFifo
    dsimp only
    split
    · rename_i u hu
      exact h.setUnit ((h.unit hu).withFifo (hg _ (h.unit hu).1) (hc _) (hC _))
    · exact h
  | input => exact h.setBridge (h.bridge.withInput (hg _ h.bridge.input) (hc _) (hC _))
  | output => exact h.setBridge (h.bridge.withOutput (hg _ h.bridge.output) (hc _) (hC _))

/-! ## The transfers -/

/-- A push that holds has 1 to C words to keep (R91, R93). -/
theorem State.Inv.pushStep {x : Nat} {u : Standalone} {n : Count} {d : List Word} {blk : Bool} (h : s.Inv)
    (hu : s.fifos[x]? = some u) (hc : u.fifo.constructed = true) (hd : d.length = n.toNat) :
    (pushStep s x u n d blk).Inv := by
  have hI := h.unit hu
  unfold Machine.pushStep
  split
  · rename_i hcore
    obtain ⟨hblk, h0, hn, -⟩ := pushCore_none.1 hcore
    exact h.setUnit (hI.withPrd ⟨hc, hblk, h0, hn, hd⟩)
  · rename_i k f hcore
    obtain ⟨hf, hfc, hfC⟩ := hI.1.pushCore hd hcore
    exact (h.setUnit ((hI.withFifo hf hfc hfC).withPrd (q := .idle) trivial)).answer _ _

/-- A pop that holds is of 1 to C words (R92, R93). -/
theorem State.Inv.popStep {x : Nat} {u : Standalone} {n : Count} {blk : Bool} (h : s.Inv)
    (hu : s.fifos[x]? = some u) (hc : u.fifo.constructed = true) : (popStep s x u n blk).Inv := by
  have hI := h.unit hu
  unfold Machine.popStep
  split
  · rename_i hcore
    obtain ⟨hblk, h0, hn, -⟩ := popCore_none.1 hcore
    exact h.setUnit (hI.withCon ⟨hc, hblk, h0, hn⟩)
  · rename_i k out f hcore
    obtain ⟨hf, hfc, hfC⟩ := hI.1.popCore hcore
    exact (h.setUnit ((hI.withFifo hf hfc hfC).withCon (q := .idle) trivial)).answer _ _

/-- A transfer of k frames that fits a ring of FRAME_CAP frames is of at most FRAME_CAP frames (R126). -/
theorem frames_le_frameCap {k m c : Nat} (hm : 0 < k * m) (hk : k * m ≤ c * m) : 0 < k ∧ k ≤ c :=
  ⟨Nat.pos_of_mul_pos_right hm, Nat.le_of_mul_le_mul_right hk (Nat.pos_of_mul_pos_left hm)⟩

theorem State.Inv.readStep {n : Count} {blk : Bool} (h : s.Inv) (hB : s.bridge.Built s.params) :
    (readStep s n blk).Inv := by
  have hb := h.bridge
  unfold Machine.readStep
  split
  · rename_i hcore
    obtain ⟨hblk, h0, hn, -⟩ := popCore_none.1 hcore
    have hcap := hB.inCap
    obtain ⟨hk0, hk⟩ := frames_le_frameCap h0 (hcap ▸ hn)
    exact h.setBridge (hb.withWrk ⟨hB, hblk, hk0, hk⟩)
  · rename_i k out f hcore
    obtain ⟨hf, hfc, hfC⟩ := hb.input.popCore hcore
    exact (h.setBridge ((hb.withInput hf hfc hfC).withWrk (w := .idle) trivial)).answer _ _

theorem State.Inv.writeStep {n : Count} {d : List Word} {blk : Bool} (h : s.Inv) (hB : s.bridge.Built s.params)
    (hd : d.length = n.toNat * s.bridge.nout.toNat) : (writeStep s n d blk).Inv := by
  have hb := h.bridge
  unfold Machine.writeStep
  split
  · rename_i hcore
    obtain ⟨hblk, h0, hn, -⟩ := pushCore_none.1 hcore
    have hcap := hB.outCap
    obtain ⟨hk0, hk⟩ := frames_le_frameCap h0 (hcap ▸ hn)
    exact h.setBridge (hb.withWrk ⟨hB, hblk, hk0, hk, hd⟩)
  · rename_i k f hcore
    obtain ⟨hf, hfc, hfC⟩ := hb.output.pushCore hd hcore
    exact (h.setBridge ((hb.withOutput hf hfc hfC).withWrk (w := .idle) trivial)).answer _ _

theorem State.Inv.releaseWorker (h : s.Inv) : (releaseWorker s).Inv :=
  (h.setBridge (h.bridge.withWrk (w := .idle) trivial)).answer _ _

/-- The egress phase fills positions 0 .. F × NOUT − 1 of the scratch buffer and pops from OUT (R122). -/
theorem State.Inv.egressOf {n : Count} {sin : Bool} (h : s.Inv)
    (hw : n.toNat * s.bridge.nout.toNat ≤ s.params.scratchSize) : (egressOf s n sin).Inv := by
  have hb := h.bridge
  rw [egressOf_eq]
  have hk := Nat.min_le_left (n.toNat * s.bridge.nout.toNat) s.bridge.outF.conLevel
  have hpop := hb.output.popMove (Nat.min_le_right (n.toNat * s.bridge.nout.toNat) s.bridge.outF.conLevel)
  have hscr := (hb.scratch.writeRun (j := 0)
    (ws := s.bridge.outF.peek (min (n.toNat * s.bridge.nout.toNat) s.bridge.outF.conLevel))
    (by rw [Fifo.length_peek]; omega)).writeRun (ws := List.replicate _ Word.silence)
    (by rw [List.length_replicate, Nat.add_sub_cancel' hk]; exact hw)
  exact (h.setBridge ((((hb.withAud (a := .idle) trivial).withOutput hpop (by simp) (by simp)).withScratch
    hscr).withCounters s.bridge.ovfCnt _)).answer _ _

/-! ## Every step -/

/-- A command keeps the invariant. -/
theorem ExecCase.inv {t : State} {i : Instr} (h : ExecCase s i t) (hs : s.Inv) : t.Inv := by
  have hb := hs.bridge
  cases h with
  | error _ e => exact hs.fail e
  | read _ v => exact hs.respond _
  | fifoInit n x u hp hu hc h1 h2 => exact (hs.setUnit ((hs.unit hu).construct hc h1 h2)).respond _
  | fifoSetMode m0 m1 x u hp hu => exact (hs.setUnit ((hs.unit hu).withModes m0 m1 u.nap)).respond _
  | fifoSetNap n x u hp hu => exact (hs.setUnit ((hs.unit hu).withModes _ _ n)).respond _
  | fifoPush n d x u hp hu hd hl hc => exact hs.pushStep hu hc hl
  | fifoPop n x u hp hu hc => exact hs.popStep hu hc
  | brConfigure a b hp hc ha hb' => exact (hs.setBridge (hb.configure hc ha hb')).respond _
  | brInitialize hp hc hh h1 h2 => exact (hs.setBridge (hb.start hs.1 hc h1 h2)).respond _
  | brShutdown => exact (hs.setBridge hb.shutdown).respond _
  | brSetMode m0 m1 => exact (hs.setBridge (hb.withModes m0 m1 s.bridge.nap s.bridge.faultBit)).respond _
  | brSetNap n => exact (hs.setBridge (hb.withModes _ _ n s.bridge.faultBit)).respond _
  | brHostShutdown hp hr => exact (hs.setBridge (hb.hostShutdown hr)).respond _
  | brHostShutdownAgain => exact hs.respond _
  | audioStopped => exact hs.respond _
  | audioTooLong => exact (hs.setBridge (hb.withModes _ _ s.bridge.nap true)).respond _
  | audioReady n bufs hp hr hn hd hl hf hw => exact hs.setBridge (hb.ingest hr hn hw)
  | brReadFrames n hp hr => exact hs.readStep (hb.built hr)
  | brWriteFrames n d hp hr hd hl => exact hs.writeStep (hb.built hr) hl

/-- An event of an agent keeps the invariant; a re-check runs with operands the invariant speaks of. -/
theorem EventCase.inv {t : State} {e : Event} (h : EventCase s e t) (hs : s.Inv) : t.Inv := by
  have hwrk := hs.bridge.wrkPort
  cases h with
  | illegal r => exact (hs.latch r).fail _
  | command r i t hb hd h => exact h.inv (hs.latch r)
  | disabled => exact hs
  | push x u n d blk hu hw =>
    obtain ⟨-, hheld, -⟩ := hs.unit hu
    rw [hw] at hheld
    obtain ⟨hc, -, -, -, hd⟩ := hheld
    exact hs.pushStep hu hc hd
  | pop x u n blk hu hw =>
    obtain ⟨-, -, hheld⟩ := hs.unit hu
    rw [hw] at hheld
    obtain ⟨hc, -⟩ := hheld
    exact hs.popStep hu hc
  | release => exact hs.releaseWorker
  | readFrames n blk hw => exact hs.readStep (hwrk.waitRead hw)
  | writeFrames n d blk hw =>
    obtain ⟨hB, hd⟩ := hwrk.waitWrite hw
    exact hs.writeStep hB hd
  | egress n sin ha hw => exact hs.egressOf hw
  | syncH f j => exact hs.mapFifo (fun _ hx => hx.syncH j) (by simp) (by simp) f
  | syncT f j => exact hs.mapFifo (fun _ hx => hx.syncT j) (by simp) (by simp) f

theorem step_inv {t : State} (hs : s.Inv) (h : step s = .next t) : t.Inv := by
  rcases step_cases h with ⟨-, rfl⟩ | ⟨e, ts, -, rfl⟩ | ⟨ts, -, rfl⟩ | ⟨e, ts, -, -, he⟩
  · exact hs
  · exact hs.resetBlock _
  · exact hs.setSchedule ts
  · exact he.inv (hs.setSchedule ts)

end

/-- Settles O52: every command and every event of an agent keeps the invariant, and so does reset. -/
theorem stepKeepsInvariant : Obligations.StepKeepsInvariant := fun _ _ => step_inv

end Sys2Proof.Machine
end

section
/-! SUPPORT. The two phases of a callback (43_bridge_stream.md R121, R122): what a transfer does to a FIFO, what the
reshapes give word by word, and what the ingest and the egress step leave in the bridge. -/

namespace Sys2Proof.Machine
open Sys2Proof.Stated

/-! ## The effect of a transfer -/

theorem Fifo.pushMove_store (x : Fifo) (d : List Word) (k : Nat) :
    (x.pushMove d k).store = x.store.writeRing x.cap.toNat x.tail.idx.toNat (d.take k) := by
  unfold Fifo.pushMove
  split
  · rename_i hk
    simp [hk, Memory.writeRing]
  · rfl

theorem Fifo.pushMove_tail_of_pos (x : Fifo) (d : List Word) {k : Nat} (hk : 0 < k) :
    (x.pushMove d k).tail = x.tail.adv k x.cap.toNat := by
  rw [Fifo.pushMove, if_neg (by omega)]

theorem Fifo.pushMove_qt_of_pos (x : Fifo) (d : List Word) {k : Nat} (hk : 0 < k) :
    (x.pushMove d k).qt = x.qt ++ [x.tail.adv k x.cap.toNat] := by
  rw [Fifo.pushMove, if_neg (by omega)]

theorem Fifo.popMove_head_of_pos (x : Fifo) {k : Nat} (hk : 0 < k) :
    (x.popMove k).head = x.head.adv k x.cap.toNat := by
  rw [Fifo.popMove, if_neg (by omega)]

theorem Fifo.popMove_qh_of_pos (x : Fifo) {k : Nat} (hk : 0 < k) :
    (x.popMove k).qh = x.qh ++ [x.head.adv k x.cap.toNat] := by
  rw [Fifo.popMove, if_neg (by omega)]

theorem Fifo.prdFree_le_cap (x : Fifo) : x.prdFree ≤ x.cap.toNat := Nat.sub_le _ _

/-- A push of at most C words writes each of them to its own slot, and no other slot. -/
theorem pushEffect_pushMove (x : Fifo) {d : List Word} {k : Nat} (hd : k ≤ d.length) (hk : k ≤ x.cap.toNat) :
    PushEffect x (x.pushMove d k) d k := by
  have hlen : (d.take k).length = k := by rw [List.length_take, Nat.min_eq_left hd]
  refine ⟨by simp, by simp, by simp, by simp, by simp, by simp, ?_, fun h0 => ⟨x.pushMove_tail_of_pos d h0,
    x.pushMove_qt_of_pos d h0⟩, fun i hi => ?_, fun j hj => ?_⟩
  · rintro rfl
    simp
  · rw [x.pushMove_store, Memory.read_writeRing _ (hlen.symm ▸ hk) (hlen.symm ▸ hi), List.getElem_take,
      List.getElem?_eq_getElem]
  · rw [x.pushMove_store, Memory.read_writeRing_other _ _ _ _ _ (fun i hi => hj i (hlen ▸ hi))]

/-- A pop returns the words from HEAD onward and writes nothing. -/
theorem popEffect_popMove (x : Fifo) (k : Nat) : PopEffect x (x.popMove k) k (x.peek k) := by
  refine ⟨by simp, by simp, by simp, by simp, by simp, by simp, by simp, ?_, fun h0 => ⟨x.popMove_head_of_pos h0,
    x.popMove_qh_of_pos h0⟩, x.length_peek k, fun i hi => ?_⟩
  · rintro rfl
    simp
  · have hi' : i < (x.peek k).length := by rwa [x.length_peek]
    rw [List.getElem?_eq_getElem hi', Option.some_inj]
    exact Memory.getElem_readRing _ _ _ _ _ hi'

/-! ## The reshapes, word by word -/

/-- The position of word f × N + c lies in a stream of `frames` frames. -/
theorem frame_index_lt {f frames c chans : Nat} (hf : f < frames) (hc : c < chans) :
    f * chans + c < frames * chans :=
  calc f * chans + c < f * chans + chans := Nat.add_lt_add_left hc _
    _ = (f + 1) * chans := (Nat.succ_mul f chans).symm
    _ ≤ frames * chans := Nat.mul_le_mul_right _ hf

/-- A planar data phase of the right shape has every sample. -/
theorem sampleAt_of_planar {bufs : List (List Word)} {chans frames c f : Nat} (h : Planar bufs chans frames)
    (hc : c < chans) (hf : f < frames) : (bufs[c]?).bind (fun b => b[f]?) = some (sampleAt bufs c f) := by
  obtain ⟨hlen, hall⟩ := h
  have hc' : c < bufs.length := hlen.symm ▸ hc
  have hf' : f < bufs[c].length := by rwa [hall _ (List.getElem_mem hc')]
  simp [sampleAt, hc', hf']

theorem frameMajor_interleave {bufs : List (List Word)} {chans frames : Nat} (h : Planar bufs chans frames) :
    FrameMajor (interleave bufs chans frames) bufs chans frames :=
  ⟨length_interleave _ _ _, fun _ hf _ hc => by rw [getElem?_interleave bufs hc hf, sampleAt_of_planar h hc hf]⟩

theorem planar_planarOut (scr : Memory) (chans frames : Nat) : Planar (planarOut scr chans frames) chans frames := by
  refine ⟨by simp [planarOut], fun b hb => ?_⟩
  obtain ⟨c, -, rfl⟩ := List.mem_map.1 hb
  simp

theorem planarOut_word (scr : Memory) {chans frames c f : Nat} (hc : c < chans) (hf : f < frames) :
    ((planarOut scr chans frames)[c]?).bind (fun b => b[f]?) = some (scr.read (f * chans + c)) := by
  simp [planarOut, hc, hf]

/-- The scratch buffer after the egress: the words popped, then silence up to position n. -/
theorem Memory.read_padded (m : Memory) {ws : List Word} {k n j : Nat} (hk : ws.length = k) (hj : j < n) :
    ((m.writeRun 0 ws).writeRun k (List.replicate (n - k) Word.silence)).read j = ws.getD j Word.silence := by
  subst hk
  by_cases hlt : j < ws.length
  · rw [read_writeRun_other _ _ _ _ (.inl hlt), List.getD_eq_getElem _ _ hlt]
    simpa using m.read_writeRun 0 hlt
  · have hpad : j - ws.length < (List.replicate (n - ws.length) Word.silence).length := by
      rw [List.length_replicate]; omega
    have hread := (m.writeRun 0 ws).read_writeRun ws.length hpad
    rw [show ws.length + (j - ws.length) = j by omega, List.getElem_replicate] at hread
    rw [hread, List.getD_eq_default _ _ (by omega)]

/-- The positions from n on are left alone. -/
theorem Memory.read_padded_other (m : Memory) {ws : List Word} {k n j : Nat} (hk : ws.length = k) (hkn : k ≤ n)
    (hj : n ≤ j) :
    ((m.writeRun 0 ws).writeRun k (List.replicate (n - k) Word.silence)).read j = m.read j := by
  rw [read_writeRun_other _ _ _ _ (.inr (by rw [List.length_replicate]; omega)),
    read_writeRun_other _ _ _ _ (.inr (by omega))]

/-! ## The accepting step of a callback -/

/-- A well-formed BR_AUDIO_READY with F ≤ PERIOD in RUNNING runs the ingest phase (R121). -/
theorem exec_brAudioReady {n : Count} {s : State} (hi : Issued (.brAudioReady n) s)
    (hb : s.bridge.bstate = .running) (hn : n.toNat ≤ s.bridge.period.toNat)
    (hw : n.toNat * s.bridge.nin.toNat ≤ s.params.scratchSize)
    (hs : s.bridge.inF.cap.toNat ≤ s.params.depthMax.toNat) :
    exec (.brAudioReady n) s = .next (s.setBridge (ingest s.bridge n s.req.data.bufferList)) := by
  show execBrAudioReady n s = _
  rw [execBrAudioReady, accepting_run hi.1 hi.2, if_neg (not_not.2 hb), if_neg (Nat.not_lt.2 hn), inScratch_run hw,
    inStorage_run hs]

/-- Settles O39: the stream is `interleave` of the planar input, and the push moves what the producer side sees free. -/
theorem audioReadyIngests : Obligations.AudioReadyIngests := by
  intro n s bufs hi hd hb hn hs hw
  have hplanar : Planar bufs s.bridge.nin.toNat n.toNat := by
    obtain ⟨bs, hbs, hshape⟩ := planar_of_fits hi.2
    obtain rfl : bs = bufs := DataPhase.planar.inj (hbs.symm.trans hd)
    exact hshape
  have hlen := length_interleave bufs s.bridge.nin.toNat n.toNat
  have hrun := exec_brAudioReady hi hb hn hw hs
  rw [hd, show (DataPhase.planar bufs).bufferList = bufs from rfl, ingest_eq] at hrun
  refine ⟨_, interleave bufs s.bridge.nin.toNat n.toNat, _, hrun, ⟨rfl, rfl, rfl, rfl, rfl⟩, rfl,
    frameMajor_interleave hplanar, rfl, pushEffect_pushMove _ ?_ ?_, rfl, rfl, fun j hj => ?_, fun j hj => ?_, rfl⟩
  · rw [hlen]; exact Nat.min_le_left _ _
  · exact (Nat.min_le_right _ _).trans s.bridge.inF.prdFree_le_cap
  · simpa using s.bridge.scr.read_writeRun 0 hj
  · exact s.bridge.scr.read_writeRun_other _ _ _ (.inr (by omega))

/-! ## The egress step -/

/-- A turn without reset is a step of its agent. -/
theorem step_of_event {s : State} {e : Event} {ts : List Turn} (h : NextEvent s e ts) :
    step s = perform e (s.setSchedule ts) := by
  simp [step, takeTurn, h]

/-- The egress step of a pending callback (R122). -/
theorem step_egress {s : State} {n : Count} {sin : Bool} {ts : List Turn} (h : NextEvent s .egress ts)
    (ha : s.bridge.aud = .egress n sin) (hs : s.bridge.outF.cap.toNat ≤ s.params.depthMax.toNat)
    (hw : n.toNat * s.bridge.nout.toNat ≤ s.params.scratchSize) :
    step s = .next (egressOf (s.setSchedule ts) n sin) := by
  rw [step_of_event h]
  show egressStep (s.setSchedule ts) = _
  simp only [egressStep, State.setSchedule_bridge, ha]
  exact (inScratch_run (s := s.setSchedule ts) hw).trans (inStorage_run (s := s.setSchedule ts) hs)

theorem callbackFlags_toNat (sin sout : Bool) : (callbackFlags sin sout).toNat = sin.toNat + 2 * sout.toNat := by
  cases sin <;> cases sout <;> decide

/-- What the callback is answered: the words popped from OUT, channel by channel, silence where there were none. -/
theorem egressOf_replies (s : State) (n : Count) (sin : Bool) {k : Nat}
    (hk : k = min (n.toNat * s.bridge.nout.toNat) s.bridge.outF.conLevel) :
    ∃ out v, (egressOf s n sin).replies = ⟨.aud, { err := false, value := v, data := .planar out }⟩ :: s.replies ∧
      Planar out s.bridge.nout.toNat n.toNat ∧
      (∀ f < n.toNat, ∀ c < s.bridge.nout.toNat, (out[c]?).bind (fun b => b[f]?) =
        some ((s.bridge.outF.peek k).getD (f * s.bridge.nout.toNat + c) 0)) ∧
      v.toNat = sin.toNat + 2 * (decide (k < n.toNat * s.bridge.nout.toNat)).toNat := by
  subst hk
  rw [egressOf_eq]
  refine ⟨_, _, rfl, planar_planarOut _ _ _, fun f hf c hc => ?_, callbackFlags_toNat _ _⟩
  rw [planarOut_word _ hc hf, Memory.read_padded _ (Fifo.length_peek _ _) (frame_index_lt hf hc)]
  rfl

/-- Settles O40: the pop moves what the consumer side of OUT sees, and the scratch buffer is padded with silence. -/
theorem egressAnswersCallback : Obligations.EgressAnswersCallback := by
  intro s n sin ts h ha hs hw
  obtain ⟨out, v, hrep, hplanar, hwords, hv⟩ := egressOf_replies (s.setSchedule ts) n sin rfl
  refine ⟨_, out, _, _, v, step_egress h ha hs hw, ?_, rfl, ?_, hplanar, hwords, hv, hrep, ?_, ?_, fun j hj => ?_,
    ?_⟩ <;> rw [egressOf_eq]
  · exact ⟨rfl, rfl, rfl, rfl, rfl⟩
  · exact popEffect_popMove _ _
  · rfl
  · rfl
  · exact Memory.read_padded_other _ (Fifo.length_peek _ _) (Nat.min_le_left _ _) hj
  · rfl

end Sys2Proof.Machine
end

section
/-! SUPPORT. The round trip of a callback's input through the worker (43_bridge_stream.md R128): a FIFO that a push
and a delivery have filled gives the words back, and the eight steps follow one after the other. -/

namespace Sys2Proof.Machine
open Sys2Proof.Stated

/-! ## Empty and quiescent FIFOs -/

section
variable {x : Fifo} (h : x.Live)
include h

theorem Fifo.Live.conLevel_of_delivered (hq : x.qt = []) : x.conLevel = x.level := by
  have hview : x.tail = x.tview := by simpa [hq] using h.tail_mem_chain
  rw [Fifo.conLevel, ← hview, Fifo.level]

theorem Fifo.Live.prdLevel_of_delivered (hq : x.qh = []) : x.prdLevel = x.level := by
  have hview : x.head = x.hview := by simpa [hq] using h.head_mem_chain
  rw [Fifo.prdLevel, ← hview, Fifo.level]

/-- The consumer side of an empty quiescent FIFO sees nothing. -/
theorem Fifo.Live.conLevel_of_empty (he : x.level = 0) (hq : x.Quiet) : x.conLevel = 0 := by
  rw [h.conLevel_of_delivered hq.2, he]

/-- The producer side of an empty quiescent FIFO sees all of it free. -/
theorem Fifo.Live.prdFree_of_empty (he : x.level = 0) (hq : x.Quiet) : x.prdFree = x.cap.toNat := by
  rw [Fifo.prdFree, h.prdLevel_of_delivered hq.1, he, Nat.sub_zero]

end

theorem Fifo.length_contents (x : Fifo) : x.contents.length = x.level := x.length_peek _

theorem Fifo.syncT_contents (x : Fifo) (j : Nat) : (x.syncT j).contents = x.contents := by
  simp [Fifo.contents, Fifo.peek, Fifo.level]

/-- One delivery empties a channel of at most one value. -/
theorem Fifo.syncT_one_qt {x : Fifo} (h : x.qt.length ≤ 1) : (x.syncT 1).qt = [] := by
  cases hq : x.qt with
  | nil => simp [Fifo.syncT, hq]
  | cons v vs =>
    rw [hq, List.length_cons] at h
    simp [Fifo.syncT, hq, List.length_eq_zero_iff.1 (show vs.length = 0 by omega)]

theorem Fifo.pushMove_qt_length (x : Fifo) (d : List Word) (k : Nat) :
    (x.pushMove d k).qt.length ≤ x.qt.length + 1 := by
  unfold Fifo.pushMove
  split
  · exact Nat.le_succ _
  · simp

/-- After a push into an empty quiescent FIFO and one delivery the consumer side sees the words pushed. -/
theorem Fifo.Live.delivered {x : Fifo} {d : List Word} (h : x.Live) (he : x.level = 0) (hq : x.Quiet)
    (hd : d.length ≤ x.cap.toNat) :
    ((x.pushMove d d.length).syncT 1).conLevel = d.length ∧ ((x.pushMove d d.length).syncT 1).peek d.length = d := by
  have hfree : d.length ≤ x.prdFree := by rwa [h.prdFree_of_empty he hq]
  have hnil : x.contents = [] := List.length_eq_zero_iff.1 (by rw [x.length_contents, he])
  have hcont : ((x.pushMove d d.length).syncT 1).contents = d := by
    rw [Fifo.syncT_contents, h.contents_pushMove hfree le_rfl, hnil, List.nil_append, List.take_length]
  have hlevel : ((x.pushMove d d.length).syncT 1).level = d.length := by rw [← Fifo.length_contents, hcont]
  have hqt : ((x.pushMove d d.length).syncT 1).qt = [] :=
    Fifo.syncT_one_qt (by simpa [hq.2] using x.pushMove_qt_length d d.length)
  refine ⟨?_, ?_⟩
  · rw [((h.pushMove hfree le_rfl).syncT 1).conLevel_of_delivered hqt, hlevel]
  · rw [Fifo.peek_eq_take hlevel.ge, hcont, List.take_length]

/-! ## Planar buffers and their stream -/

/-- A position of a stream of frames has a frame and a channel. -/
theorem frame_of_index {chans frames j : Nat} (hj : j < frames * chans) :
    j / chans < frames ∧ j % chans < chans ∧ j / chans * chans + j % chans = j :=
  ⟨Nat.div_lt_of_lt_mul (by rwa [Nat.mul_comm]), Nat.mod_lt _ (Nat.pos_of_mul_pos_left (Nat.zero_lt_of_lt hj)),
    Nat.div_add_mod' _ _⟩

/-- The planar buffers determine their frame-major stream. -/
theorem frameMajor_unique {d e : List Word} {bufs : List (List Word)} {chans frames : Nat}
    (hd : FrameMajor d bufs chans frames) (he : FrameMajor e bufs chans frames) : d = e := by
  apply List.ext_getElem? fun j => ?_
  by_cases hj : j < frames * chans
  · obtain ⟨hf, hc, hjfc⟩ := frame_of_index hj
    have hword := (hd.2 _ hf _ hc).trans (he.2 _ hf _ hc).symm
    rwa [hjfc] at hword
  · rw [List.getElem?_eq_none (by have := hd.1; omega), List.getElem?_eq_none (by have := he.1; omega)]

/-- Planar buffers of one shape are the same where all their words are. -/
theorem planar_ext {a b : List (List Word)} {chans frames : Nat} (ha : Planar a chans frames)
    (hb : Planar b chans frames)
    (h : ∀ f < frames, ∀ c < chans, (a[c]?).bind (fun r => r[f]?) = (b[c]?).bind (fun r => r[f]?)) : a = b := by
  apply List.ext_getElem (ha.1.trans hb.1.symm) fun c hca hcb => ?_
  have hra := ha.2 _ (List.getElem_mem hca)
  have hrb := hb.2 _ (List.getElem_mem hcb)
  apply List.ext_getElem (hra.trans hrb.symm) fun f hfa hfb => ?_
  have hword := h f (hra ▸ hfa) c (ha.1 ▸ hca)
  simpa [hca, hcb, hfa, hfb] using hword

/-! ## Steps of the agents -/

/-- A command's word decodes to the command on every port that accepts it (R70). -/
theorem decode_of_ownRow {i : Instr} {p : PortKind} (h : Laws.OwnRow.Statement i) (hp : i.acceptedOn p = true) :
    decode p (encode i) = .ok i := by
  obtain ⟨r, hr, hm, hb⟩ := h
  simp [decode, hr, hm, hb, hp]

/-- A command issued on an IDLE port runs with the turn taken off and the request latched. -/
theorem step_issues {s : State} {p : Port} {i : Instr} {d : DataPhase} {ts : List Turn}
    (hs : s.schedule = issues p i d :: ts) (hb : s.portBusy p = some false)
    (hd : decode p.kind (encode i) = .ok i) :
    step s = exec i ((s.setSchedule ts).latch { port := p, word := encode i, data := d, host := .absent }) := by
  have hb' : (s.setSchedule ts).portBusy p = some false := hb
  rw [step_of_event hs]
  simp [perform, accept, hb', hd]

/-- A well-formed BR_READ_FRAMES in RUNNING reads in the mode of that moment (R124). -/
theorem exec_brReadFrames {n : Count} {s : State} (hi : Issued (.brReadFrames n) s)
    (hb : s.bridge.bstate = .running) (hs : s.bridge.inF.cap.toNat ≤ s.params.depthMax.toNat) :
    exec (.brReadFrames n) s = .next (readStep s n s.bridge.rdBlock) := by
  show execBrReadFrames n s = _
  rw [execBrReadFrames, accepting_run hi.1 hi.2, workerChecks_run hb, inStorage_run hs]

/-- A well-formed BR_WRITE_FRAMES in RUNNING writes in the mode of that moment (R125). -/
theorem exec_brWriteFrames {n : Count} {s : State} (hi : Issued (.brWriteFrames n) s)
    (hb : s.bridge.bstate = .running) (hs : s.bridge.outF.cap.toNat ≤ s.params.depthMax.toNat) :
    exec (.brWriteFrames n) s = .next (writeStep s n s.req.data.wordList s.bridge.wrBlock) := by
  show execBrWriteFrames n s = _
  rw [execBrWriteFrames, accepting_run hi.1 hi.2, workerChecks_run hb, inStorage_run hs]

theorem coreRun_succ (M : Host.Core) {s t : M.State} {k : Nat} (h : M.step s = .next t) :
    M.run (k + 1) s = M.run k t := by simp only [Host.Core.run, h]

theorem runSteps_succ {s t : State} {k : Nat} (h : step s = .next t) : runSteps (k + 1) s = runSteps k t :=
  coreRun_succ Sys2Proof.core h

/-! ## The bridge while frames stream through it -/

/-- The premises of R128 that every step of the round trip keeps: RUNNING with `c` channels each way, and `n` frames fit
a period and a ring. -/
structure Streaming (n : Count) (c : Channels) (s : State) : Prop where
  inv : s.Inv
  running : s.bridge.bstate = .running
  nin : s.bridge.nin = c
  nout : s.bridge.nout = c
  period : n.toNat ≤ s.bridge.period.toNat
  frames : n.toNat ≤ s.params.frameCap.toNat

section
variable {n : Count} {c : Channels} {s t : State}

theorem Streaming.built (h : Streaming n c s) : s.bridge.Built s.params := h.inv.bridge.built h.running

theorem Streaming.chans_pos (h : Streaming n c s) : 0 < c.toNat := h.nin ▸ h.built.1.1

theorem Streaming.inLive (h : Streaming n c s) : s.bridge.inF.Live := h.inv.bridge.input.live h.built.inBuilt

theorem Streaming.outLive (h : Streaming n c s) : s.bridge.outF.Live := h.inv.bridge.output.live h.built.outBuilt

theorem Streaming.fits_input (h : Streaming n c s) : n.toNat * c.toNat ≤ s.bridge.inF.cap.toNat := by
  rw [h.built.inCap, h.nin]
  exact Nat.mul_le_mul_right _ h.frames

theorem Streaming.fits_output (h : Streaming n c s) : n.toNat * c.toNat ≤ s.bridge.outF.cap.toNat := by
  rw [h.built.outCap, h.nout]
  exact Nat.mul_le_mul_right _ h.frames

/-- The scratch buffer holds `n` frames (R33). -/
theorem Streaming.fits_scratch (h : Streaming n c s) : n.toNat * c.toNat ≤ s.params.scratchSize := by
  obtain ⟨⟨-, hmax⟩, -, -, hper, -⟩ := h.built
  exact Nat.mul_le_mul (h.period.trans hper) (h.nin ▸ hmax)

/-- The invariant and the parameters are kept by every step; the rest is the bridge's configuration. -/
theorem Streaming.step (h : Streaming n c s) (hst : step s = .next t) (hb : t.bridge.bstate = s.bridge.bstate)
    (hi : t.bridge.nin = s.bridge.nin) (ho : t.bridge.nout = s.bridge.nout)
    (hp : t.bridge.period = s.bridge.period) : Streaming n c t where
  inv := step_inv h.inv hst
  running := hb.trans h.running
  nin := hi.trans h.nin
  nout := ho.trans h.nout
  period := hp ▸ h.period
  frames := (parametersAreHardwired s t hst).1 ▸ h.frames

end

/-- A stage of the round trip: the state streams, with IN `x`, OUT `y`, the turns to come `ts`, the responses given
`rs`, the AUD port `a`, and the WRK port IDLE. -/
structure Stage (n : Count) (c : Channels) (x y : Fifo) (ts : List Turn) (rs : List Reply) (a : AudPort)
    (s : State) : Prop extends Streaming n c s where
  input : s.bridge.inF = x
  output : s.bridge.outF = y
  schedule : s.schedule = ts
  replies : s.replies = rs
  aud : s.bridge.aud = a
  wrk : s.bridge.wrk = .idle

section
variable {n : Count} {c : Channels} {x y : Fifo} {ts : List Turn} {rs : List Reply} {a : AudPort} {s : State}

/-- The accepting step of a callback. -/
theorem Stage.ingests {bufs : List (List Word)}
    (h : Stage n c x y (issues .aud (.brAudioReady n) (.planar bufs) :: ts) rs .idle s)
    (hb : Planar bufs c.toNat n.toNat) :
    ∃ t sin, step s = .next t ∧ Stage n c (x.pushMove (interleave bufs c.toNat n.toNat)
      (min (n.toNat * c.toNat) x.prdFree)) y ts rs (.egress n sin) t := by
  obtain ⟨hS, rfl, rfl, hts, rfl, ha, hw⟩ := h
  obtain rfl := hS.nin
  have hfits : Issued (.brAudioReady n) ((s.setSchedule ts).latch
      { port := .aud, word := encode (.brAudioReady n), data := .planar bufs, host := .absent }) :=
    ⟨rfl, by simpa [Instr.dataFits, DataPhase.isPlanar] using hb⟩
  have hst := step_issues hts (by simp [State.portBusy, ha]) (decode_of_ownRow (Laws.OwnRow.brAudioReady n) rfl)
  rw [exec_brAudioReady hfits hS.running hS.period hS.fits_scratch hS.inv.bridge.input.cap_le, ingest_eq] at hst
  exact ⟨_, _, hst, hS.step hst rfl rfl rfl rfl, rfl, rfl, rfl, rfl, rfl, hw⟩

/-- The egress of a callback: the output is the words OUT's consumer side sees, then silence. -/
theorem Stage.egress {sin : Bool} (h : Stage n c x y (turnOf .egress :: ts) rs (.egress n sin) s) :
    ∃ t v out, step s = .next t ∧ Stage n c x (y.popMove (min (n.toNat * c.toNat) y.conLevel)) ts
        (⟨.aud, { err := false, value := v, data := .planar out }⟩ :: rs) .idle t ∧
      Planar out c.toNat n.toNat ∧
      ∀ f < n.toNat, ∀ ch < c.toNat, (out[ch]?).bind (fun b => b[f]?) =
        some ((y.peek (min (n.toNat * c.toNat) y.conLevel)).getD (f * c.toNat + ch) 0) := by
  obtain ⟨hS, rfl, rfl, hts, rfl, ha, hw⟩ := h
  obtain rfl := hS.nout
  obtain ⟨out, v, hrep, hplanar, hwords, -⟩ := egressOf_replies (s.setSchedule ts) n sin rfl
  have hst := step_egress hts ha hS.inv.bridge.output.cap_le hS.fits_scratch
  have heq := egressOf_eq (s.setSchedule ts) n sin
  refine ⟨_, v, out, hst, ⟨hS.step hst ?_ ?_ ?_ ?_, ?_, ?_, ?_, hrep, ?_, ?_⟩, hplanar, hwords⟩ <;> rw [heq]
  exacts [rfl, rfl, rfl, rfl, rfl, rfl, rfl, rfl, hw]

/-- A delivery of IN's TAIL. -/
theorem Stage.syncInput (h : Stage n c x y (turnOf (.syncT .input 1) :: ts) rs a s) :
    ∃ t, step s = .next t ∧ Stage n c (x.syncT 1) y ts rs a t := by
  obtain ⟨hS, rfl, rfl, hts, rfl, rfl, hw⟩ := h
  have hst := step_of_event hts
  exact ⟨_, hst, hS.step hst rfl rfl rfl rfl, rfl, rfl, rfl, rfl, rfl, hw⟩

/-- A delivery of OUT's TAIL. -/
theorem Stage.syncOutput (h : Stage n c x y (turnOf (.syncT .output 1) :: ts) rs a s) :
    ∃ t, step s = .next t ∧ Stage n c x (y.syncT 1) ts rs a t := by
  obtain ⟨hS, rfl, rfl, hts, rfl, rfl, hw⟩ := h
  have hst := step_of_event hts
  exact ⟨_, hst, hS.step hst rfl rfl rfl rfl, rfl, rfl, rfl, rfl, rfl, hw⟩

/-- A pop of at most C words that the consumer side sees moves all of them, in either mode. -/
theorem popCore_all {k : Nat} (blk : Bool) (hC : k ≤ x.cap.toNat) (hk : k ≤ x.conLevel) :
    x.popCore k blk = some (k, x.peek k, x.popMove k) := by
  cases hcore : x.popCore k blk with
  | none =>
    obtain ⟨-, -, -, hlt⟩ := popCore_none.1 hcore
    omega
  | some r =>
    obtain ⟨m, out, f⟩ := r
    obtain ⟨rfl, rfl, -, -, hnb, hbl⟩ := popCore_some hcore
    have hm : m = k := by cases blk <;> simp at hnb hbl <;> omega
    rw [hm]

/-- A push of at most C words that the producer side sees room for moves all of them, in either mode. -/
theorem pushCore_all {d : List Word} {k : Nat} (blk : Bool) (hC : k ≤ x.cap.toNat) (hk : k ≤ x.prdFree) :
    x.pushCore d k blk = some (k, x.pushMove d k) := by
  cases hcore : x.pushCore d k blk with
  | none =>
    obtain ⟨-, -, -, hlt⟩ := pushCore_none.1 hcore
    omega
  | some r =>
    obtain ⟨m, f⟩ := r
    obtain ⟨rfl, -, -, hnb, hbl⟩ := pushCore_some hcore
    have hm : m = k := by cases blk <;> simp at hnb hbl <;> omega
    rw [hm]

/-- The worker reads `n` frames that it sees. -/
theorem Stage.reads (h : Stage n c x y (issues .wrk (.brReadFrames n) (.words []) :: ts) rs a s)
    (hk : n.toNat * c.toNat ≤ x.conLevel) :
    ∃ t, step s = .next t ∧ Stage n c (x.popMove (n.toNat * c.toNat)) y ts
      (⟨.wrk, { err := false, value := BitVec.ofNat 32 n.toNat, data := .words (x.peek (n.toNat * c.toNat)) }⟩ :: rs)
      a t := by
  obtain ⟨hS, rfl, rfl, hts, rfl, rfl, hw⟩ := h
  obtain rfl := hS.nin
  have hst := step_issues hts (by simp [State.portBusy, hw]) (decode_of_ownRow (Laws.OwnRow.brReadFrames n) rfl)
  have hcore := popCore_all s.bridge.rdBlock hS.fits_input hk
  have hfits : Issued (.brReadFrames n) ((s.setSchedule ts).latch
      { port := .wrk, word := encode (.brReadFrames n), data := .words [], host := .absent }) := ⟨rfl, rfl⟩
  rw [exec_brReadFrames hfits hS.running hS.inv.bridge.input.cap_le] at hst
  simp only [readStep, State.latch_bridge, State.setSchedule_bridge, hcore, Nat.mul_div_cancel _ hS.chans_pos] at hst
  exact ⟨_, hst, hS.step hst rfl rfl rfl rfl, rfl, rfl, rfl, rfl, rfl, rfl⟩

/-- The worker writes `n` frames that it sees room for. -/
theorem Stage.writes {d : List Word}
    (h : Stage n c x y (issues .wrk (.brWriteFrames n) (.words d) :: ts) rs a s)
    (hd : d.length = n.toNat * c.toNat) (hk : n.toNat * c.toNat ≤ y.prdFree) :
    ∃ t, step s = .next t ∧ Stage n c x (y.pushMove d (n.toNat * c.toNat)) ts
      (⟨.wrk, ok (BitVec.ofNat 32 n.toNat)⟩ :: rs) a t := by
  obtain ⟨hS, rfl, rfl, hts, rfl, rfl, hw⟩ := h
  obtain rfl := hS.nout
  have hst := step_issues hts (by simp [State.portBusy, hw]) (decode_of_ownRow (Laws.OwnRow.brWriteFrames n) rfl)
  have hfits : Issued (.brWriteFrames n) ((s.setSchedule ts).latch
      { port := .wrk, word := encode (.brWriteFrames n), data := .words d, host := .absent }) :=
    ⟨rfl, by simp [Instr.dataFits, DataPhase.isWords, hd]⟩
  have hcore := pushCore_all (d := d) s.bridge.wrBlock hS.fits_output hk
  rw [exec_brWriteFrames hfits hS.running hS.inv.bridge.output.cap_le] at hst
  simp only [writeStep, State.latch_bridge, State.latch_req, DataPhase.wordList, State.setSchedule_bridge, hcore,
    Nat.mul_div_cancel _ hS.chans_pos] at hst
  exact ⟨_, hst, hS.step hst rfl rfl rfl rfl, rfl, rfl, rfl, rfl, rfl, rfl⟩

end

/-- Settles O57: the stages of the round trip, one step each; what the first callback pushes into the empty IN is what
the worker reads, and what it writes into the empty OUT is what the second callback's egress pops. -/
theorem callbackRoundTripReshapes : Obligations.CallbackRoundTripReshapes := by
  intro s n bufs bufs' d ts hinv hrun hchans hinE houtE hinQ houtQ ha hw hper hcap hb hb' hd hs
  have h0 : Stage n s.bridge.nin s.bridge.inF s.bridge.outF _ s.replies .idle s :=
    ⟨⟨hinv, hrun, rfl, hchans.symm, hper, hcap⟩, rfl, rfl, hs, rfl, ha, hw⟩
  have hinC := h0.fits_input
  have houtC := h0.fits_output
  have hlen : d.length = n.toNat * s.bridge.nin.toNat := hd.1
  have hd' : interleave bufs s.bridge.nin.toNat n.toNat = d := frameMajor_unique (frameMajor_interleave hb) hd
  obtain ⟨hinLevel, hinPeek⟩ := h0.inLive.delivered hinE hinQ (hlen ▸ hinC)
  obtain ⟨houtLevel, houtPeek⟩ := h0.outLive.delivered houtE houtQ (hlen ▸ houtC)
  have hinFree := h0.inLive.prdFree_of_empty hinE hinQ
  have houtFree := h0.outLive.prdFree_of_empty houtE houtQ
  have houtNone := h0.outLive.conLevel_of_empty houtE houtQ
  rw [hlen] at hinLevel hinPeek houtLevel houtPeek
  obtain ⟨s1, sin, e1, h1⟩ := h0.ingests hb
  rw [hd', hinFree, Nat.min_eq_left hinC] at h1
  obtain ⟨s2, v', out, e2, h2, -, -⟩ := h1.egress
  rw [houtNone, Nat.min_zero, Fifo.popMove_zero] at h2
  obtain ⟨s3, e3, h3⟩ := h2.syncInput
  obtain ⟨s4, e4, h4⟩ := h3.reads hinLevel.ge
  rw [hinPeek] at h4
  obtain ⟨s5, e5, h5⟩ := h4.writes hlen (houtFree.symm ▸ houtC)
  obtain ⟨s6, e6, h6⟩ := h5.syncOutput
  obtain ⟨s7, sin', e7, h7⟩ := h6.ingests hb'
  obtain ⟨s8, v, out', e8, h8, hplanar, hwords⟩ := h7.egress
  rw [houtLevel, Nat.min_self, houtPeek] at hwords
  have hout : out' = bufs := planar_ext hplanar hb fun f hf ch hch => by
    have hlt : f * s.bridge.nin.toNat + ch < d.length := hlen ▸ frame_index_lt hf hch
    rw [hwords f hf ch hch, ← hd.2 f hf ch hch, List.getD_eq_getElem _ _ hlt, List.getElem?_eq_getElem hlt]
  refine ⟨s8, v, v', out, ?_, hout ▸ h8.replies⟩
  rw [runSteps_succ e1, runSteps_succ e2, runSteps_succ e3, runSteps_succ e4, runSteps_succ e5, runSteps_succ e6,
    runSteps_succ e7, runSteps_succ e8]
  rfl

end Sys2Proof.Machine
end

section
/-! SUPPORT. Where a step gives no next state: the refusals of a request (30_encoding.md R66, 10_state.md R15) and the
faults of an access outside storage or the scratch buffer (20_memory.md R41, R42), with the condition of each; and the
bounds the invariant gives (10_state.md R23), under which no fault is reached. -/

namespace Sys2Proof.Machine
open Sys2Proof.Stated

/-! ## Everything a command can answer -/

/-- The answers of a command, with the condition of each that is no next state: `exec_cases` says which next states. -/
inductive ExecAnswer (s : State) (i : Instr) : Result → Prop where
  | next (t : State) : ExecAnswer s i (.next t)
  | malformed (h : i.dataFits s.bridge.nin s.bridge.nout s.req.data = false) : ExecAnswer s i (.refused .malformedData)
  | noUnit (x : Nat) (hp : s.req.port.unitNo = some x) (hx : s.fifos[x]? = none) :
      ExecAnswer s i (.refused .noSuchUnit)
  | storage (f : FifoName) (x : Fifo) (hf : s.fifo? f = some x) (hx : s.params.depthMax.toNat < x.cap.toNat) :
      ExecAnswer s i (.fault .slotOutsideStorage)
  | scratch (n : Count) (hb : s.bridge.bstate = .running) (hn : n.toNat ≤ s.bridge.period.toNat)
      (hw : s.params.scratchSize < n.toNat * s.bridge.nin.toNat) : ExecAnswer s i (.fault .scratchOverrun)

section
variable {s : State} {i : Instr} {run : Result}

theorem ExecAnswer.accepting (h : ExecAnswer s i run) : ExecAnswer s i (accepting i s run) := by
  rcases accepting_cases i s run with ⟨-, -, e⟩ | ⟨-, hd, e⟩ | ⟨-, e⟩ <;> rw [e]
  · exact h
  · exact .malformed hd
  · exact .next _

theorem ExecAnswer.onUnit {run : Nat → Standalone → Result}
    (h : ∀ x u, s.fifos[x]? = some u → ExecAnswer s i (run x u)) : ExecAnswer s i (onUnit s run) := by
  unfold Machine.onUnit
  split
  · exact .next _
  · rename_i x hp
    split
    · exact .noUnit x hp ‹_›
    · exact h x _ ‹_›

theorem ExecAnswer.inStorage {f : FifoName} {x : Fifo} (hf : s.fifo? f = some x) (h : ExecAnswer s i run) :
    ExecAnswer s i (inStorage s x run) := by
  unfold Machine.inStorage
  split
  · exact h
  · exact .storage f x hf (by omega)

theorem ExecAnswer.workerChecks (h : ExecAnswer s i run) : ExecAnswer s i (workerChecks s run) := by
  unfold Machine.workerChecks
  split
  · exact .next _
  · split
    · exact .next _
    · exact h

end

theorem State.fifo?_unit {s : State} {x : Nat} {u : Standalone} (h : s.fifos[x]? = some u) :
    s.fifo? (.unit x) = some u.fifo := by
  simp [State.fifo?, h]

theorem execFifoPush_answer (n : Count) (s : State) : ExecAnswer s (.fifoPush n) (execFifoPush n s) := by
  refine .accepting (.onUnit fun x u hu => ?_)
  split
  · exact .inStorage (State.fifo?_unit hu) (.next _)
  · exact .next _

theorem execFifoPop_answer (n : Count) (s : State) : ExecAnswer s (.fifoPop n) (execFifoPop n s) := by
  refine .accepting (.onUnit fun x u hu => ?_)
  split
  · exact .inStorage (State.fifo?_unit hu) (.next _)
  · exact .next _

theorem execBrAudioReady_answer (n : Count) (s : State) :
    ExecAnswer s (.brAudioReady n) (execBrAudioReady n s) := by
  refine .accepting ?_
  split
  · exact .next _
  · rename_i hb
    split
    · exact .next _
    · unfold inScratch
      split
      · exact .inStorage (f := .input) rfl (.next _)
      · exact .scratch n (not_not.1 hb) (by omega) (by omega)

/-- Every answer of every command. -/
theorem exec_answer (i : Instr) (s : State) : ExecAnswer s i (exec i s) := by
  cases i with
  | fifoInit n => exact .accepting (.onUnit fun _ _ _ => .next _)
  | fifoSetMode m0 m1 => exact .accepting (.onUnit fun _ _ _ => .next _)
  | fifoSetNap n => exact .accepting (.onUnit fun _ _ _ => .next _)
  | fifoGetReg g => exact .accepting (.onUnit fun _ _ _ => .next _)
  | fifoIsLockFree => exact .accepting (.onUnit fun _ _ _ => .next _)
  | fifoPush n => exact execFifoPush_answer n s
  | fifoAvailWr => exact .accepting (.onUnit fun _ _ _ => .next _)
  | fifoAvailRd => exact .accepting (.onUnit fun _ _ _ => .next _)
  | fifoPop n => exact execFifoPop_answer n s
  | brConfigure a b => exact .accepting (.next _)
  | brInitialize => exact .accepting (.next _)
  | brShutdown => exact .accepting (.next _)
  | brSetMode m0 m1 => exact .accepting (.next _)
  | brSetNap n => exact .accepting (.next _)
  | brGetReg g => exact .accepting (.next _)
  | brReadFrames n => exact .accepting (.workerChecks (.inStorage (f := .input) rfl (.next _)))
  | brWriteFrames n => exact .accepting (.workerChecks (.inStorage (f := .output) rfl (.next _)))
  | brAudioReady n => exact execBrAudioReady_answer n s
  | brHostShutdown => exact .accepting (.next _)

/-! ## Everything an event can answer -/

/-- The answers of an event of an agent, with the condition of each that is no next state. -/
inductive EventAnswer (s : State) : Event → Result → Prop where
  | next (e : Event) (t : State) : EventAnswer s e (.next t)
  | noUnit (r : Request) (hb : s.portBusy r.port = none) : EventAnswer s (.issue r) (.refused .noSuchUnit)
  | busy (r : Request) (hb : s.portBusy r.port = some true) : EventAnswer s (.issue r) (.refused .portBusy)
  | command (r : Request) (i : Instr) (a : Result) (hb : s.portBusy r.port = some false)
      (hd : decode r.port.kind r.word = .ok i) (h : ExecAnswer (s.latch r) i a) : EventAnswer s (.issue r) a
  | storage (e : Event) (f : FifoName) (x : Fifo) (hr : ∀ r, e ≠ .issue r) (hf : s.fifo? f = some x)
      (hx : s.params.depthMax.toNat < x.cap.toNat) : EventAnswer s e (.fault .slotOutsideStorage)
  | scratch (n : Count) (sin : Bool) (ha : s.bridge.aud = .egress n sin)
      (hw : s.params.scratchSize < n.toNat * s.bridge.nout.toNat) : EventAnswer s .egress (.fault .scratchOverrun)

section
variable {s : State}

theorem EventAnswer.inStorage {e : Event} {f : FifoName} {x : Fifo} {run : Result} (hr : ∀ r, e ≠ .issue r)
    (hf : s.fifo? f = some x) (h : EventAnswer s e run) : EventAnswer s e (inStorage s x run) := by
  unfold Machine.inStorage
  split
  · exact h
  · exact .storage e f x hr hf (by omega)

theorem accept_answer (r : Request) : EventAnswer s (.issue r) (accept r s) := by
  unfold accept
  split
  · exact .noUnit r ‹_›
  · exact .busy r ‹_›
  · split
    · exact .command r _ _ ‹_› ‹_› (exec_answer _ _)
    · exact .next _ _

theorem recheckPush_answer (x : Nat) : EventAnswer s (.recheck (.prd x)) (recheckPush x s) := by
  unfold recheckPush
  split
  · exact .next _ _
  · rename_i u hu
    split
    · exact .next _ _
    · exact .inStorage (by simp) (State.fifo?_unit hu) (.next _ _)

theorem recheckPop_answer (x : Nat) : EventAnswer s (.recheck (.con x)) (recheckPop x s) := by
  unfold recheckPop
  split
  · exact .next _ _
  · rename_i u hu
    split
    · exact .next _ _
    · exact .inStorage (by simp) (State.fifo?_unit hu) (.next _ _)

theorem recheckWorker_answer : EventAnswer s (.recheck .wrk) (recheckWorker s) := by
  unfold recheckWorker
  split
  · exact .next _ _
  · split
    · exact .next _ _
    · exact .inStorage (f := .input) (by simp) rfl (.next _ _)
  · split
    · exact .next _ _
    · exact .inStorage (f := .output) (by simp) rfl (.next _ _)

theorem egressStep_answer : EventAnswer s .egress (egressStep s) := by
  unfold egressStep
  split
  · exact .next _ _
  · rename_i n sin ha
    unfold inScratch
    split
    · exact .inStorage (f := .output) (by simp) rfl (.next _ _)
    · exact .scratch n sin ha (by omega)

/-- Every answer of every event. -/
theorem perform_answer (e : Event) : EventAnswer s e (perform e s) := by
  cases e with
  | issue r => exact accept_answer r
  | recheck p =>
    cases p with
    | prd x => exact recheckPush_answer x
    | con x => exact recheckPop_answer x
    | wrk => exact recheckWorker_answer
    | cfg x => exact .next _ _
    | ctl => exact .next _ _
    | aud => exact .next _ _
  | egress => exact egressStep_answer
  | syncH f j => exact .next _ _
  | syncT f j => exact .next _ _

/-- A step that gives no next state is a turn without reset in which an agent takes a step. -/
theorem step_answer : (∃ t, step s = .next t) ∨
    ∃ e ts, NextEvent s e ts ∧ EventAnswer (s.setSchedule ts) e (step s) := by
  cases hs : s.schedule with
  | nil => exact .inl ⟨s, by simp [step, takeTurn, hs]⟩
  | cons t ts =>
    obtain ⟨rst, ev⟩ := t
    cases rst with
    | true => exact .inl ⟨_, by simp only [step, takeTurn, hs]; rfl⟩
    | false =>
      cases ev with
      | none => exact .inl ⟨s.setSchedule ts, by simp [step, takeTurn, hs]⟩
      | some e => exact .inr ⟨e, ts, hs, step_of_event hs ▸ perform_answer e⟩

end

/-! ## Refusals -/

/-- A port of a standalone FIFO the block has not is no port of the block. -/
theorem State.portBusy_none {s : State} {p : Port} {x : Nat} (hp : p.unitNo = some x) (hx : s.fifos[x]? = none) :
    s.portBusy p = none := by
  cases p with
  | cfg y => obtain rfl : y = x := Option.some.inj hp; simp [State.portBusy, hx]
  | prd y => obtain rfl : y = x := Option.some.inj hp; simp [State.portBusy, hx]
  | con y => obtain rfl : y = x := Option.some.inj hp; simp [State.portBusy, hx]
  | ctl => cases hp
  | aud => cases hp
  | wrk => cases hp

/-- Settles O7: only an issued command is refused; one taken up on a port of the block has its FIFO, so its data
phase alone can be at fault. -/
theorem refusalsAreOnlyThese : Obligations.RefusalsAreOnlyThese := by
  intro s q hq
  rcases step_answer (s := s) with ⟨t, ht⟩ | ⟨e, ts, hs, ha⟩
  · rw [ht] at hq
    cases hq
  rw [hq] at ha
  cases ha with
  | noUnit r hb => exact ⟨r, ts, hs, .inr (.inl ⟨rfl, hb⟩)⟩
  | busy r hb => exact ⟨r, ts, hs, .inl ⟨rfl, hb⟩⟩
  | command r i _ hb hd h =>
    cases h with
    | malformed hf => exact ⟨r, ts, hs, .inr (.inr ⟨rfl, i, hd, hf⟩)⟩
    | noUnit x hp hx => exact absurd (hb.symm.trans (State.portBusy_none hp hx)) (by simp)

/-! ## What the invariant bounds -/

theorem State.Inv.fifo {s : State} {f : FifoName} {x : Fifo} (h : s.Inv) (hf : s.fifo? f = some x) :
    x.Inv s.params := by
  cases f with
  | unit y =>
    obtain ⟨u, hu, rfl⟩ := Option.map_eq_some_iff.1 hf
    exact (h.unit hu).1
  | input => cases hf; exact h.bridge.input
  | output => cases hf; exact h.bridge.output

/-- A period of frames fits the scratch buffer, in either direction (R33). -/
theorem Bridge.Built.scratch_fits {p : Params} {b : Bridge} {n : Count} (h : b.Built p)
    (hn : n.toNat ≤ b.period.toNat) :
    n.toNat * b.nin.toNat ≤ p.scratchSize ∧ n.toNat * b.nout.toNat ≤ p.scratchSize := by
  obtain ⟨⟨-, hi⟩, ⟨-, ho⟩, -, hp, -⟩ := h
  exact ⟨Nat.mul_le_mul (hn.trans hp) hi, Nat.mul_le_mul (hn.trans hp) ho⟩

/-- A pending egress phase fits the scratch buffer. -/
theorem Bridge.AudInv.scratch_fits {p : Params} {b : Bridge} {n : Count} {sin : Bool} (h : b.AudInv p)
    (ha : b.aud = .egress n sin) : n.toNat * b.nout.toNat ≤ p.scratchSize := by
  unfold Bridge.AudInv at h
  rw [ha] at h
  exact (h.1.scratch_fits h.2).2

theorem ExecAnswer.no_fault {s : State} {i : Instr} {q : Fault} (hs : s.Inv) : ¬ ExecAnswer s i (.fault q) := by
  intro h
  cases h with
  | storage f x hf hx => exact absurd (hs.fifo hf).cap_le (by omega)
  | scratch n hb hn hw => exact absurd ((hs.bridge.built hb).scratch_fits hn).1 (by omega)

theorem EventAnswer.no_fault {s : State} {e : Event} {q : Fault} (hs : s.Inv) : ¬ EventAnswer s e (.fault q) := by
  intro h
  cases h with
  | command r i _ hb hd h => exact h.no_fault (hs.latch r)
  | storage _ f x hr hf hx => exact absurd (hs.fifo hf).cap_le (by omega)
  | scratch n sin ha hw => exact absurd (hs.bridge.audPort.scratch_fits ha) (by omega)

/-- The consumer side sees no more samples than the FIFO holds (R23, R31). -/
theorem Fifo.Live.conLevel_le_level {x : Fifo} (h : x.Live) : x.conLevel ≤ x.level :=
  (h.tailChain_bounds List.mem_cons_self).2

/-- The producer side sees no fewer samples than the FIFO holds. -/
theorem Fifo.Live.level_le_prdLevel {x : Fifo} (h : x.Live) : x.level ≤ x.prdLevel :=
  (h.headChain_bounds List.mem_cons_self).1

/-- Every sample the consumer side sees is in a slot written since reset (R56, R158). -/
theorem Fifo.Inv.seen_written {p : Params} {x : Fifo} {i : Nat} (h : x.Inv p) (hi : i < x.conLevel) :
    x.store.written ((x.head.idx.toNat + i) % x.cap.toNat) = true := by
  obtain ⟨-, -, hl | hu⟩ := h
  · have hle := hl.conLevel_le_level
    obtain ⟨-, -, -, -, -, -, -, hw⟩ := hl
    exact hw i (by omega)
  · rw [hu.conLevel] at hi
    omega

/-- Settles O54: under the invariant no condition of a fault holds, and what a pop can reach has been written. -/
theorem noStepFaults : Obligations.NoStepFaults := by
  refine fun s hs => ⟨fun q hq => ?_, fun f x i hf hi => (hs.fifo hf).seen_written hi⟩
  rcases step_answer (s := s) with ⟨t, ht⟩ | ⟨e, ts, -, ha⟩
  · rw [ht] at hq
    cases hq
  · exact EventAnswer.no_fault (hs.setSchedule ts) (hq ▸ ha)

/-- What a chain ends in is its first value, if nothing follows, else the last of the rest. -/
theorem getLast?_cons_cases {α : Type} {a z : α} {l : List α} (h : (a :: l).getLast? = some z) :
    (l = [] → a = z) ∧ (l ≠ [] → l.getLast? = some z) := by
  cases l with
  | nil => simpa using h
  | cons b m => simpa using h

/-- Settles O53: the chains of R23 end in HEAD and TAIL, and the views lie between. -/
theorem invariantBoundsViews : Obligations.InvariantBoundsViews := by
  intro s f x hs hf hc
  have hl := (hs.fifo hf).live hc
  have hprd := hl.level_le_prdLevel
  have hcon := hl.conLevel_le_level
  obtain ⟨-, -, -, ⟨hhead, -⟩, ⟨htail, -⟩, hlevel, hprdC, -⟩ := hl
  obtain ⟨hh0, hh⟩ := getLast?_cons_cases hhead
  obtain ⟨ht0, ht⟩ := getLast?_cons_cases htail
  exact ⟨hlevel, hh0, hh, ht0, ht, hprd, hprdC, hcon⟩

/-- Settles O51: every FIFO and the bridge are unbuilt and idle after reset, and the machine's own parameters are
legal. -/
theorem resetHasInvariant : Obligations.ResetHasInvariant :=
  ⟨fun _ e hp => State.Inv.resetOf hp e, State.Inv.resetOf params_legal 0⟩

end Sys2Proof.Machine
end

section
/-! SUPPORT. Index pairs by their laps and indices (10_state.md R18, R19, R20). -/

namespace Sys2Proof.Machine

section
variable {p : Idx} {k c : Nat}

theorem Idx.adv_of_wrap (hp : p.idx.toNat < c) (hk : k ≤ c) (hc : c < 2 ^ 24) (h : c ≤ p.idx.toNat + k) :
    (p.adv k c).lap = !p.lap ∧ (p.adv k c).idx.toNat = p.idx.toNat + k - c := by
  rw [Idx.adv, if_pos h]
  exact ⟨rfl, by rw [BitVec.toNat_ofNat, Nat.mod_eq_of_lt (by omega)]⟩

theorem Idx.adv_of_no_wrap (hc : c < 2 ^ 24) (h : p.idx.toNat + k < c) :
    (p.adv k c).lap = p.lap ∧ (p.adv k c).idx.toNat = p.idx.toNat + k := by
  rw [Idx.adv, if_neg (by omega)]
  exact ⟨rfl, by rw [BitVec.toNat_ofNat, Nat.mod_eq_of_lt (by omega)]⟩

/-- `ext` after advancing, with the remainder (R18). -/
theorem Idx.ext_adv_mod (hp : p.idx.toNat < c) (hk : k ≤ c) (hc : c < 2 ^ 24) :
    (p.adv k c).ext c = (p.ext c + k) % (2 * c) := by
  have hlt := Idx.ext_lt hp
  rw [Idx.ext_adv hp hk hc]
  split
  · rw [Nat.mod_eq_of_lt ‹_›]
  · rw [Nat.mod_eq_sub_mod (by omega), Nat.mod_eq_of_lt (by omega)]

end

/-- Settles O10: one clause for each side of the wrap, and the remainder takes the wrap away. -/
theorem advanceMovesExtendedIndex : Obligations.AdvanceMovesExtendedIndex := fun _ _ _ hp hk hc =>
  ⟨rfl, Idx.ext_lt hp, Idx.adv_of_wrap hp hk hc, Idx.adv_of_no_wrap hc, Idx.ext_adv_mod hp hk hc⟩

section
variable {t h : Idx} {c : Nat} (ht : t.idx.toNat < c) (hh : h.idx.toNat < c)
include ht hh

theorem occ_of_lap_eq (hl : t.lap = h.lap) :
    occ t h c = if h.idx.toNat ≤ t.idx.toNat then t.idx.toNat - h.idx.toNat
      else 2 * c + t.idx.toNat - h.idx.toNat := by
  rw [occ_eq ht hh, Idx.ext, Idx.ext, hl]
  split_ifs <;> omega

theorem occ_of_lap_ne (hl : t.lap ≠ h.lap) : occ t h c = c - h.idx.toNat + t.idx.toNat := by
  rw [occ_eq ht hh, Idx.ext, Idx.ext, Bool.eq_not_of_ne hl]
  cases h.lap <;> simp only [Bool.not_true, Bool.not_false, Bool.toNat_true, Bool.toNat_false] <;> split_ifs <;> omega

/-- Only equal pairs have no samples between them (R20). -/
theorem occ_eq_zero_iff : occ t h c = 0 ↔ t = h := by
  refine ⟨fun h0 => ?_, fun e => e ▸ occ_self⟩
  by_cases hl : t.lap = h.lap
  · rw [occ_of_lap_eq ht hh hl] at h0
    have hi : t.idx = h.idx := BitVec.eq_of_toNat_eq (by split_ifs at h0 <;> omega)
    cases t
    cases h
    exact congrArg₂ Idx.mk hl hi
  · rw [occ_of_lap_ne ht hh hl] at h0
    omega

/-- A full FIFO has equal indices on different laps (R20). -/
theorem occ_eq_cap_iff : occ t h c = c ↔ t.lap ≠ h.lap ∧ t.idx = h.idx := by
  by_cases hl : t.lap = h.lap
  · refine ⟨fun hC => ?_, fun hn => absurd hl hn.1⟩
    rw [occ_of_lap_eq ht hh hl] at hC
    split_ifs at hC <;> omega
  · rw [occ_of_lap_ne ht hh hl, ← BitVec.toNat_inj]
    exact ⟨fun hC => ⟨hl, by omega⟩, fun hi => by omega⟩

end

/-- Settles O11: from the occupancy on equal and on different laps. -/
theorem occupancyByLapAndIndex : Obligations.OccupancyByLapAndIndex := fun _ _ _ ht hh =>
  ⟨fun hl hle => (occ_of_lap_eq ht hh hl).trans (if_pos hle), occ_of_lap_ne ht hh, occ_eq_zero_iff ht hh,
    occ_eq_cap_iff ht hh⟩

end Sys2Proof.Machine
end

section
/-! SUPPORT. The register reads (10_state.md R24, R34, 40_fifo_control.md R84, 42_bridge_control.md R110): each register
as a number, and what a read of a register or of a reserved number answers. -/

namespace Sys2Proof.Machine
open Sys2Proof.Stated

/-! ## Registers as numbers -/

theorem zext_toNat {w : Nat} (v : BitVec w) (hw : w ≤ 32) : (zext v).toNat = v.toNat :=
  BitVec.toNat_setWidth_of_le hw

theorem Standalone.statusWord_toNat (u : Standalone) :
    u.statusWord.toNat = u.fifo.constructed.toNat + 2 * u.pushBlock.toNat + 4 * u.popBlock.toNat := by
  unfold Standalone.statusWord
  cases u.fifo.constructed <;> cases u.pushBlock <;> cases u.popBlock <;> rfl

/-- The lap bit stands above the 24 bits of the index. -/
theorem Idx.word_toNat (p : Idx) : p.word.toNat = p.idx.toNat + 2 ^ 24 * p.lap.toNat := by
  have hi := p.idx.isLt
  rw [Idx.word, zext_toNat _ (by decide), BitVec.toNat_append, ← Nat.shiftLeft_add_eq_or_of_lt hi,
    BitVec.toNat_ofBool, Nat.shiftLeft_eq]
  omega

theorem Bridge.statusWord_toNat (b : Bridge) :
    b.statusWord.toNat = b.bstate.code.toNat + 4 * b.hostSd.toNat + 8 * b.faultBit.toNat := by
  unfold Bridge.statusWord
  cases b.bstate <;> cases b.hostSd <;> cases b.faultBit <;> rfl

theorem Bridge.modeWord_toNat (b : Bridge) : b.modeWord.toNat = b.rdBlock.toNat + 2 * b.wrBlock.toNat := by
  unfold Bridge.modeWord
  cases b.rdBlock <;> cases b.wrBlock <;> rfl

/-- An occupancy fits a response value, whatever the indices. -/
theorem Fifo.level_lt (x : Fifo) : x.level < 2 ^ 32 := by
  have hC := x.cap_lt
  have ht := x.tail.idx.isLt
  unfold Fifo.level occ Idx.ext
  rcases Nat.eq_zero_or_pos x.cap.toNat with h0 | h0
  · rw [h0]
    omega
  · have := Int.emod_lt_of_pos (((x.tail.lap.toNat * x.cap.toNat + x.tail.idx.toNat : Nat) : Int) -
      ((x.head.lap.toNat * x.cap.toNat + x.head.idx.toNat : Nat) : Int)) (show (0 : Int) < 2 * x.cap.toNat by omega)
    omega

theorem levelWord_toNat (x : Fifo) : (levelWord x).toNat = if x.constructed = true then x.level else 0 := by
  unfold levelWord
  split
  · rw [Word.ofCount, BitVec.toNat_ofNat, Nat.mod_eq_of_lt x.level_lt]
  · rfl

/-! ## The register maps -/

/-- The numbers in the registers of a standalone FIFO, in order. -/
def fifoRegNumbers (p : Params) (u : Standalone) : List Nat :=
  [u.fifo.constructed.toNat + 2 * u.pushBlock.toNat + 4 * u.popBlock.toNat, u.fifo.cap.toNat, u.nap.toNat,
    p.depthMax.toNat, u.fifo.head.idx.toNat + 2 ^ 24 * u.fifo.head.lap.toNat,
    u.fifo.tail.idx.toNat + 2 ^ 24 * u.fifo.tail.lap.toNat]

theorem fifoReg_numbers (p : Params) (u : Standalone) (reg : BitVec 8) :
    (fifoReg p u reg).map BitVec.toNat = (fifoRegNumbers p u)[reg.toNat]? := by
  unfold fifoReg fifoRegNumbers
  split
  case h_7 =>
    simp only [imp_false] at *
    exact (List.getElem?_eq_none (by simp only [List.length_cons, List.length_nil]; omega)).symm
  all_goals simp [*, Standalone.statusWord_toNat, Idx.word_toNat, zext_toNat]

/-- The numbers in the registers of the bridge, in order. -/
def bridgeRegNumbers (p : Params) (b : Bridge) : List Nat :=
  [b.bstate.code.toNat + 4 * b.hostSd.toNat + 8 * b.faultBit.toNat, b.nin.toNat, b.nout.toNat, b.period.toNat,
    b.srate.toNat, b.ovfCnt.toNat, b.unfCnt.toNat, b.rdBlock.toNat + 2 * b.wrBlock.toNat, b.nap.toNat,
    p.frameCap.toNat, p.maxCh.toNat, p.periodMax.toNat, if b.inF.constructed = true then b.inF.level else 0,
    if b.outF.constructed = true then b.outF.level else 0]

theorem bridgeReg_numbers (p : Params) (b : Bridge) (reg : BitVec 8) :
    (bridgeReg p b reg).map BitVec.toNat = (bridgeRegNumbers p b)[reg.toNat]? := by
  unfold bridgeReg bridgeRegNumbers
  split
  case h_15 =>
    simp only [imp_false] at *
    exact (List.getElem?_eq_none (by simp only [List.length_cons, List.length_nil]; omega)).symm
  all_goals simp [*, Bridge.statusWord_toNat, Bridge.modeWord_toNat, levelWord_toNat, zext_toNat]

/-! ## Reads -/

/-- A register read: OK of the register's word, or ERR(E_ILLEGAL) where the number is reserved. -/
def State.answerReg (s : State) (r : Option Word) : State :=
  r.elim (s.fail .illegal) fun v => s.respond (.ok v)

theorem exec_fifoGetReg {reg : BitVec 8} {s : State} {x : Nat} {u : Standalone}
    (h : IssuedOn (.fifoGetReg reg) s x u) :
    exec (.fifoGetReg reg) s = .next (s.answerReg (fifoReg s.params u reg)) := by
  obtain ⟨⟨hp, hd⟩, hx, hu⟩ := h
  show execFifoGetReg reg s = _
  rw [execFifoGetReg, accepting_run hp hd, onUnit_run hx hu]
  cases fifoReg s.params u reg <;> rfl

theorem exec_brGetReg {reg : BitVec 8} {s : State} (h : Issued (.brGetReg reg) s) :
    exec (.brGetReg reg) s = .next (s.answerReg (bridgeReg s.params s.bridge reg)) := by
  show execBrGetReg reg s = _
  rw [execBrGetReg, accepting_run h.1 h.2]
  cases bridgeReg s.params s.bridge reg <;> rfl

/-- What a read answers, given the numbers of its register map: it has no effect but its response (R47). -/
theorem State.answerReg_spec (s : State) {r : Option Word} {nums : List Nat} {g : Nat}
    (h : r.map BitVec.toNat = nums[g]?) :
    OnlyReplies s (s.answerReg r) ∧
      (g < nums.length → ∃ v, Answered s (s.answerReg r) (ok v) ∧ nums[g]? = some v.toNat) ∧
      (nums.length ≤ g → Answered s (s.answerReg r) (err 1)) := by
  cases r with
  | none =>
    have hg : nums.length ≤ g := List.getElem?_eq_none_iff.1 h.symm
    exact ⟨rfl, fun hlt => absurd hlt (by omega), fun _ => rfl⟩
  | some v =>
    obtain ⟨hg, -⟩ := List.getElem?_eq_some_iff.1 h.symm
    exact ⟨rfl, fun _ => ⟨v, rfl, h.symm⟩, fun hle => absurd hg (by omega)⟩

/-- Settles O15: the six registers are those of `fifoRegNumbers`. -/
theorem fifoRegistersRead : Obligations.FifoRegistersRead := fun reg s _ u h =>
  ⟨_, exec_fifoGetReg h, s.answerReg_spec (fifoReg_numbers s.params u reg)⟩

theorem BState.code_toNat (b : BState) :
    b.code.toNat = match b with
      | .unconfigured => 0
      | .configured => 1
      | .running => 2
      | .shutdown => 3 := by
  cases b <;> rfl

/-- Settles O36: the fourteen registers are those of `bridgeRegNumbers`. -/
theorem bridgeRegistersRead : Obligations.BridgeRegistersRead := by
  intro reg s h
  have hspec := s.answerReg_spec (bridgeReg_numbers s.params s.bridge reg)
  rw [bridgeRegNumbers, BState.code_toNat] at hspec
  exact ⟨_, exec_brGetReg h, hspec⟩

end Sys2Proof.Machine
end

section
/-! SUPPORT. What every step does to FAULT (10_state.md R35, 60_exceptions.md R140), and what a command leaves on its
port (10_state.md R15, R65). -/

namespace Sys2Proof.Machine
open Sys2Proof.Stated

/-! ## FAULT -/

@[simp] theorem readStep_faultBit (s : State) (n : Count) (blk : Bool) :
    (readStep s n blk).bridge.faultBit = s.bridge.faultBit := by
  unfold readStep
  split <;> rfl

@[simp] theorem writeStep_faultBit (s : State) (n : Count) (d : List Word) (blk : Bool) :
    (writeStep s n d blk).bridge.faultBit = s.bridge.faultBit := by
  unfold writeStep
  split <;> rfl

@[simp] theorem egressOf_faultBit (s : State) (n : Count) (sin : Bool) :
    (egressOf s n sin).bridge.faultBit = s.bridge.faultBit := by
  rw [egressOf_eq]; rfl

@[simp] theorem ingest_faultBit (b : Bridge) (n : Count) (bufs : List (List Word)) :
    (ingest b n bufs).faultBit = b.faultBit := by
  rw [ingest_eq]

@[simp] theorem State.mapFifo_faultBit (s : State) (f : FifoName) (g : Fifo → Fifo) :
    (s.mapFifo f g).bridge.faultBit = s.bridge.faultBit := by
  cases f with
  | unit x => unfold State.mapFifo; dsimp only; split <;> rfl
  | input => rfl
  | output => rfl

/-- A callback longer than PERIOD in RUNNING, answered E_PERIOD: the one way FAULT is set (R121). -/
def FaultRaised (s t : State) (p : Port) (i : Instr) : Prop :=
  ∃ n o, i = .brAudioReady n ∧ s.bridge.bstate = .running ∧ s.bridge.period.toNat < n.toNat ∧
    t.bridge.faultBit = true ∧ t.replies = ⟨p, { err := true, value := 6, data := o }⟩ :: s.replies

theorem ExecCase.faultBit {s t : State} {i : Instr} (h : ExecCase s i t) :
    t.bridge.faultBit = s.bridge.faultBit ∨ FaultRaised s t s.req.port i := by
  cases h with
  | audioTooLong n hp hb hn => exact .inr ⟨n, _, rfl, hb, hn, rfl, rfl⟩
  | fifoPush n d x u => exact .inl (by rw [(pushStep_frame s x u n d u.pushBlock).2.1])
  | fifoPop n x u => exact .inl (by rw [(popStep_frame s x u n u.popBlock).2.1])
  | brReadFrames n => exact .inl (readStep_faultBit _ _ _)
  | brWriteFrames n d => exact .inl (writeStep_faultBit _ _ _ _)
  | audioReady n bufs => exact .inl (ingest_faultBit _ _ _)
  | _ => exact .inl rfl

theorem EventCase.faultBit {s t : State} {e : Event} (h : EventCase s e t) :
    t.bridge.faultBit = s.bridge.faultBit ∨
      ∃ r i, e = .issue r ∧ decode r.port.kind r.word = .ok i ∧ FaultRaised s t r.port i := by
  cases h with
  | command r i _ hb hd h => exact h.faultBit.imp_right fun hf => ⟨r, i, rfl, hd, hf⟩
  | push x u n d blk => exact .inl (by rw [(pushStep_frame s x u n d blk).2.1])
  | pop x u n blk => exact .inl (by rw [(popStep_frame s x u n blk).2.1])
  | readFrames n blk => exact .inl (readStep_faultBit _ _ _)
  | writeFrames n d blk => exact .inl (writeStep_faultBit _ _ _ _)
  | egress n sin => exact .inl (egressOf_faultBit _ _ _)
  | syncH f j => exact .inl (State.mapFifo_faultBit _ _ _)
  | syncT f j => exact .inl (State.mapFifo_faultBit _ _ _)
  | _ => exact .inl rfl

/-- A step without reset keeps FAULT, or raises it. -/
theorem step_faultBit {s t : State} {ev : Option Event} {ts : List Turn}
    (hs : s.schedule = { rst := false, ev := ev } :: ts) (h : step s = .next t) :
    t.bridge.faultBit = s.bridge.faultBit ∨
      ∃ r i, ev = some (.issue r) ∧ decode r.port.kind r.word = .ok i ∧ FaultRaised s t r.port i := by
  rcases step_cases h with ⟨hs', -⟩ | ⟨e, ts', hs', -⟩ | ⟨ts', -, rfl⟩ | ⟨e, ts', hs', -, he⟩
  · rw [hs] at hs'
    cases hs'
  · rw [hs] at hs'
    cases hs'
  · exact .inl rfl
  · rw [hs] at hs'
    cases hs'
    rcases he.faultBit with hk | ⟨r, i, rfl, hd, hf⟩
    · exact .inl hk
    · exact .inr ⟨r, i, rfl, hd, hf⟩

/-- Settles O45: FAULT is kept, or raised by a callback answered E_PERIOD. -/
theorem faultIsSticky : Obligations.FaultIsSticky := by
  intro s t ev ts hs h
  rcases step_faultBit hs h with hk | ⟨r, i, rfl, hd, n, o, rfl, hb, hn, hf, hrep⟩
  · exact ⟨fun h1 => hk.trans h1, fun h0 h1 => absurd (h0.symm.trans (hk.symm.trans h1)) (by decide)⟩
  · exact ⟨fun _ => hf, fun _ _ => ⟨r, n, o, rfl, hd, hb, hn, hrep⟩⟩

/-! ## The port of a command -/

theorem State.portBusy_cfg {s : State} {x : Nat} {u : Standalone} (h : s.fifos[x]? = some u) :
    s.portBusy (.cfg x) = some false := by
  simp [State.portBusy, h]

theorem State.portBusy_prd {s : State} {x : Nat} {u : Standalone} (h : s.fifos[x]? = some u) :
    s.portBusy (.prd x) = some (u.prd != .idle) := by
  simp [State.portBusy, h]

theorem State.portBusy_con {s : State} {x : Nat} {u : Standalone} (h : s.fifos[x]? = some u) :
    s.portBusy (.con x) = some (u.con != .idle) := by
  simp [State.portBusy, h]

/-- One response on port `p`, which is IDLE after it, or none, and `p` holds (R15, R65). -/
def AnsweredOrHeld (s t : State) (p : Port) : Prop :=
  (∃ r, t.replies = ⟨p, r⟩ :: s.replies ∧ t.portBusy p = some false) ∨
    (t.replies = s.replies ∧ t.portBusy p = some true)

section
variable {s : State}

theorem pushStep_answeredOrHeld {x : Nat} {u : Standalone} (n : Count) (d : List Word) (blk : Bool)
    (hu : s.fifos[x]? = some u) : AnsweredOrHeld s (pushStep s x u n d blk) (.prd x) := by
  unfold pushStep
  split
  · exact .inr ⟨rfl, State.portBusy_prd (State.setUnit_get_self hu)⟩
  · exact .inl ⟨_, rfl, State.portBusy_prd (State.setUnit_get_self hu)⟩

theorem popStep_answeredOrHeld {x : Nat} {u : Standalone} (n : Count) (blk : Bool)
    (hu : s.fifos[x]? = some u) : AnsweredOrHeld s (popStep s x u n blk) (.con x) := by
  unfold popStep
  split
  · exact .inr ⟨rfl, State.portBusy_con (State.setUnit_get_self hu)⟩
  · exact .inl ⟨_, rfl, State.portBusy_con (State.setUnit_get_self hu)⟩

theorem readStep_answeredOrHeld (n : Count) (blk : Bool) : AnsweredOrHeld s (readStep s n blk) .wrk := by
  unfold readStep
  split
  · exact .inr ⟨rfl, rfl⟩
  · exact .inl ⟨_, rfl, rfl⟩

theorem writeStep_answeredOrHeld (n : Count) (d : List Word) (blk : Bool) :
    AnsweredOrHeld s (writeStep s n d blk) .wrk := by
  unfold writeStep
  split
  · exact .inr ⟨rfl, rfl⟩
  · exact .inl ⟨_, rfl, rfl⟩

/-- A callback taken up leaves AUD in EGRESS (R121). -/
theorem ingest_answeredOrHeld (n : Count) (bufs : List (List Word)) :
    AnsweredOrHeld s (s.setBridge (ingest s.bridge n bufs)) .aud := by
  rw [ingest_eq]
  exact .inr ⟨rfl, rfl⟩

/-- A response to the request, where nothing that a port is was changed. -/
theorem AnsweredOrHeld.respond {t : State} {r : Response} (hreq : t.req = s.req) (hrep : t.replies = s.replies)
    (hp : t.portBusy s.req.port = some false) : AnsweredOrHeld s (t.respond r) s.req.port :=
  .inl ⟨r, by rw [State.respond_replies, hreq, hrep], hp⟩

theorem ExecCase.answeredOrHeld {t : State} {i : Instr} (h : ExecCase s i t)
    (hb : s.portBusy s.req.port = some false) : AnsweredOrHeld s t s.req.port := by
  cases h with
  | fifoInit n x u hp hu =>
    exact .respond rfl rfl (hp ▸ State.portBusy_cfg (State.setUnit_get_self hu))
  | fifoSetMode m0 m1 x u hp hu =>
    exact .respond rfl rfl (hp ▸ State.portBusy_cfg (State.setUnit_get_self hu))
  | fifoSetNap n x u hp hu =>
    exact .respond rfl rfl (hp ▸ State.portBusy_cfg (State.setUnit_get_self hu))
  | fifoPush n d x u hp hu => exact hp ▸ pushStep_answeredOrHeld n d _ hu
  | fifoPop n x u hp hu => exact hp ▸ popStep_answeredOrHeld n _ hu
  | audioReady n bufs hp => exact hp ▸ ingest_answeredOrHeld n bufs
  | brReadFrames n hp => exact hp ▸ readStep_answeredOrHeld n _
  | brWriteFrames n d hp => exact hp ▸ writeStep_answeredOrHeld n d _
  | brConfigure m n hp => exact .respond rfl rfl (hp ▸ rfl)
  | brInitialize hp => exact .respond rfl rfl (hp ▸ rfl)
  | brShutdown hp => exact .respond rfl rfl (hp ▸ rfl)
  | brSetMode m0 m1 hp => exact .respond rfl rfl (hp ▸ rfl)
  | brSetNap n hp => exact .respond rfl rfl (hp ▸ rfl)
  | brHostShutdown hp => rw [hp] at hb; exact .respond rfl rfl (hp ▸ hb)
  | audioTooLong n hp => rw [hp] at hb; exact .respond rfl rfl (hp ▸ hb)
  | _ => exact .respond rfl rfl hb

end

/-- Settles O48: a command on CFG or CTL answers; one on PRD, CON, AUD or WRK answers or leaves its port holding. -/
theorem oneResponseOrHold : Obligations.OneResponseOrHold := fun _ _ _ hb h => (exec_cases h).answeredOrHeld hb

end Sys2Proof.Machine
end

section
/-! SUPPORT. Single steps of the interleaving (20_memory.md R47 to R50, R54): the decoded command, the reads, a delivery
of a synchroniser, and the re-check of a held worker command (43_bridge_stream.md R126). -/

namespace Sys2Proof.Machine
open Sys2Proof.Stated

/-! ## The decoded command -/

/-- Settles O6: acceptance on an IDLE port latches the request and runs what decoding gives. -/
theorem stepRunsDecodedCommand : Obligations.StepRunsDecodedCommand := by
  intro s r ts i h hb hd
  have hb' : (s.setSchedule ts).portBusy r.port = some false := hb
  rw [step_of_event h]
  show accept r (s.setSchedule ts) = _
  simp only [accept, hb', hd]
  rfl

/-! ## The reads -/

/-- The state with other responses given. -/
def State.withReplies (s : State) (rs : List Reply) : State := { s with replies := rs }

/-- Whatever responses were given before, the command adds one and the same response and changes nothing else; or it
gives no next state. -/
def AddsOneReply (s : State) (run : State → Result) : Prop :=
  (∃ r, ∀ rs, run (s.withReplies rs) = .next (s.withReplies (r :: rs))) ∨ ∀ t, run s ≠ .next t

section
variable {s : State}

theorem AddsOneReply.respond (r : Response) : AddsOneReply s (fun q => .next (q.respond r)) :=
  .inl ⟨⟨s.req.port, r⟩, fun _ => rfl⟩

theorem AddsOneReply.fail (e : ErrCode) : AddsOneReply s (fun q => .next (q.fail e)) := .respond _

theorem AddsOneReply.accepting {i : Instr} {run : State → Result} (h : AddsOneReply s run) :
    AddsOneReply s (fun q => accepting i q (run q)) := by
  unfold Machine.accepting
  by_cases hp : i.acceptedOn s.req.port.kind
  · by_cases hd : i.dataFits s.bridge.nin s.bridge.nout s.req.data
    · simpa [AddsOneReply, State.withReplies, hp, hd] using h
    · exact .inr (by simp [hp, hd])
  · simpa [AddsOneReply, State.withReplies, hp] using AddsOneReply.fail (s := s) .illegal

theorem AddsOneReply.onUnit {run : State → Nat → Standalone → Result}
    (h : ∀ x u, AddsOneReply s (fun q => run q x u)) : AddsOneReply s (fun q => onUnit q (run q)) := by
  unfold Machine.onUnit
  cases hp : s.req.port.unitNo with
  | none => simpa [AddsOneReply, State.withReplies, hp] using AddsOneReply.fail (s := s) .illegal
  | some x =>
    cases hu : s.fifos[x]? with
    | none => exact .inr (by simp [hp, hu])
    | some u => simpa [AddsOneReply, State.withReplies, hp, hu] using h x u

/-- A register read answers its register, or that the number is reserved. -/
theorem AddsOneReply.register (v : Option Word) :
    AddsOneReply s (fun q => .next (match v with
      | some w => q.respond (.ok w)
      | none => q.fail .illegal)) := by
  cases v with
  | none => exact .fail _
  | some w => exact .respond _

/-- A query answers its count where the FIFO is constructed, else an error. -/
theorem AddsOneReply.query (c : Bool) (v : Word) :
    AddsOneReply s (fun q => .next (if c = true then q.respond (.ok v) else q.fail .state)) := by
  cases c with
  | false => exact .fail _
  | true => exact .respond _

/-- The five reads (R47). -/
theorem AddsOneReply.exec {i : Instr} (hi : isRead i) : AddsOneReply s (exec i) := by
  rcases hi with ⟨g, rfl⟩ | rfl | rfl | rfl | ⟨g, rfl⟩
  · exact .accepting (.onUnit fun _ u => .register (fifoReg s.params u g))
  · exact .accepting (.onUnit fun _ u => .query u.fifo.constructed (.ofCount (availWr s.req.port.kind u.fifo)))
  · exact .accepting (.onUnit fun _ u => .query u.fifo.constructed (.ofCount (availRd s.req.port.kind u.fifo)))
  · exact .accepting (.onUnit fun _ _ => .respond _)
  · exact .accepting (.register (bridgeReg s.params s.bridge g))

end

/-- Settles O47: a read adds one response, which does not depend on those given before. -/
theorem readsHaveNoSideEffect : Obligations.ReadsHaveNoSideEffect := by
  intro i s t hi h
  rcases AddsOneReply.exec (s := s) hi with ⟨r, hr⟩ | hno
  · obtain rfl : s.withReplies (r :: s.replies) = t := Host.Outcome.next.inj ((hr s.replies).symm.trans h)
    exact ⟨r, rfl, hr _⟩
  · exact absurd h (hno t)

/-! ## A delivery -/

theorem Fifo.syncH_of_lt {x : Fifo} {j : Nat} (h1 : 1 ≤ j) (hj : j - 1 < x.qh.length) :
    x.syncH j = { x with hview := x.qh[j - 1], qh := x.qh.drop j } := by
  simp [Fifo.syncH, List.getElem?_eq_getElem hj, show j ≠ 0 by omega]

theorem Fifo.syncT_of_lt {x : Fifo} {j : Nat} (h1 : 1 ≤ j) (hj : j - 1 < x.qt.length) :
    x.syncT j = { x with tview := x.qt[j - 1], qt := x.qt.drop j } := by
  simp [Fifo.syncT, List.getElem?_eq_getElem hj, show j ≠ 0 by omega]

/-- A step on a standalone FIFO of the block replaces it. -/
theorem State.mapFifo_unit {s : State} {x : Nat} {u : Standalone} (hu : s.fifos[x]? = some u) (g : Fifo → Fifo) :
    s.mapFifo (.unit x) g = s.setUnit x { u with fifo := g u.fifo } := by simp [State.mapFifo, hu]

/-- On one the block does not have, nothing happens (log 4). -/
theorem State.mapFifo_unit_none {s : State} {x : Nat} (hu : s.fifos[x]? = none) (g : Fifo → Fifo) :
    s.mapFifo (.unit x) g = s := by simp [State.mapFifo, hu]

section
variable (s : State) (f : FifoName) (g : Fifo → Fifo)

theorem State.fifo?_mapFifo_self : (s.mapFifo f g).fifo? f = (s.fifo? f).map g := by
  cases f with
  | unit x =>
    cases hu : s.fifos[x]? with
    | none => simp [State.mapFifo_unit_none hu, State.fifo?, hu]
    | some u =>
      rw [State.mapFifo_unit hu, State.fifo?_unit (State.setUnit_get_self hu), State.fifo?_unit hu]
      rfl
  | input => rfl
  | output => rfl

theorem State.fifo?_setUnit_ne {x : Nat} {n : FifoName} (u : Standalone) (hn : n ≠ .unit x) :
    (s.setUnit x u).fifo? n = s.fifo? n := by
  cases n with
  | unit y => exact congrArg (Option.map (·.fifo)) (State.setUnit_get_ne s u fun e => hn (congrArg FifoName.unit e))
  | input => rfl
  | output => rfl

theorem State.fifo?_mapFifo_ne {n : FifoName} (hn : n ≠ f) : (s.mapFifo f g).fifo? n = s.fifo? n := by
  cases f with
  | unit x =>
    cases hu : s.fifos[x]? with
    | none => rw [State.mapFifo_unit_none hu]
    | some u => rw [State.mapFifo_unit hu, s.fifo?_setUnit_ne _ hn]
  | input => cases n <;> simp_all [State.mapFifo, State.fifo?]
  | output => cases n <;> simp_all [State.mapFifo, State.fifo?]

/-- A step on one FIFO changes no port, no mode, no register and no response. -/
theorem State.mapFifo_frame :
    (s.mapFifo f g).replies = s.replies ∧ (s.mapFifo f g).params = s.params ∧
      (s.mapFifo f g).schedule = s.schedule ∧
      { (s.mapFifo f g).bridge with inF := s.bridge.inF, outF := s.bridge.outF } = s.bridge ∧
      ∀ y : Nat, ((s.mapFifo f g).fifos[y]?).map (fun u => (u.pushBlock, u.popBlock, u.nap, u.prd, u.con)) =
        (s.fifos[y]?).map (fun u => (u.pushBlock, u.popBlock, u.nap, u.prd, u.con)) := by
  cases f with
  | unit x =>
    cases hu : s.fifos[x]? with
    | none => rw [State.mapFifo_unit_none hu]; exact ⟨rfl, rfl, rfl, rfl, fun _ => rfl⟩
    | some u =>
      rw [State.mapFifo_unit hu]
      refine ⟨rfl, rfl, rfl, rfl, fun y => ?_⟩
      by_cases hy : y = x
      · subst hy
        rw [State.setUnit_get_self hu, hu]
        rfl
      · rw [State.setUnit_get_ne s _ hy]
  | input => exact ⟨rfl, rfl, rfl, rfl, fun _ => rfl⟩
  | output => exact ⟨rfl, rfl, rfl, rfl, fun _ => rfl⟩

end

/-- The FIFO stepped on, once it is known. -/
theorem State.fifo?_mapFifo_of {s : State} {f : FifoName} {x : Fifo} (h : s.fifo? f = some x) (g : Fifo → Fifo) :
    (s.mapFifo f g).fifo? f = some (g x) := by rw [s.fifo?_mapFifo_self, h]; rfl

/-- Settles O26: a synchroniser step is a step on one FIFO, and an enabled one delivers. -/
theorem syncDeliversDrawnValue : Obligations.SyncDeliversDrawnValue := by
  intro s f x j ts hf h1
  have hf' : (s.setSchedule ts).fifo? f = some x := hf
  refine ⟨fun h hj => ⟨_, step_of_event h, ?_, fun g hg => ?_, State.mapFifo_frame (s.setSchedule ts) f _⟩,
    fun h hj => ⟨_, step_of_event h, ?_, fun g hg => ?_, State.mapFifo_frame (s.setSchedule ts) f _⟩⟩
  · rw [← Fifo.syncH_of_lt h1 hj]
    exact State.fifo?_mapFifo_of hf' _
  · exact State.fifo?_mapFifo_ne _ f _ hg
  · rw [← Fifo.syncT_of_lt h1 hj]
    exact State.fifo?_mapFifo_of hf' _
  · exact State.fifo?_mapFifo_ne _ f _ hg

/-! ## A held worker command -/

section
variable {s : State} {n : Count} {d : List Word} {blk : Bool}

theorem recheckWorker_shutdown (hw : s.bridge.wrk ≠ .idle) (hb : s.bridge.bstate = .shutdown) :
    recheckWorker s = .next (releaseWorker s) := by
  unfold recheckWorker
  split
  · exact absurd ‹_› hw
  · exact if_pos hb
  · exact if_pos hb

theorem recheckWorker_read (hw : s.bridge.wrk = .waitRead n blk) (hb : s.bridge.bstate ≠ .shutdown)
    (hs : s.bridge.inF.cap.toNat ≤ s.params.depthMax.toNat) : recheckWorker s = .next (readStep s n blk) := by
  simp only [recheckWorker, hw, if_neg hb, inStorage_run hs]

theorem recheckWorker_write (hw : s.bridge.wrk = .waitWrite n d blk) (hb : s.bridge.bstate ≠ .shutdown)
    (hs : s.bridge.outF.cap.toNat ≤ s.params.depthMax.toNat) : recheckWorker s = .next (writeStep s n d blk) := by
  simp only [recheckWorker, hw, if_neg hb, inStorage_run hs]

/-- A read of frames that the worker side sees moves all of them (R124). -/
theorem readStep_all (h0 : 0 < n.toNat * s.bridge.nin.toNat)
    (hC : n.toNat * s.bridge.nin.toNat ≤ s.bridge.inF.cap.toNat)
    (hk : n.toNat * s.bridge.nin.toNat ≤ s.bridge.inF.conLevel) :
    readStep s n blk = (s.setBridge { s.bridge with
        inF := s.bridge.inF.popMove (n.toNat * s.bridge.nin.toNat), wrk := .idle }).answer .wrk
      { err := false, value := BitVec.ofNat 32 n.toNat
        data := .words (s.bridge.inF.peek (n.toNat * s.bridge.nin.toNat)) } := by
  simp only [readStep, popCore_all blk hC hk, Nat.mul_div_cancel _ (Nat.pos_of_mul_pos_left h0)]
  rfl

/-- A write of frames that the worker side sees room for moves all of them (R125). -/
theorem writeStep_all (h0 : 0 < n.toNat * s.bridge.nout.toNat)
    (hC : n.toNat * s.bridge.nout.toNat ≤ s.bridge.outF.cap.toNat)
    (hk : n.toNat * s.bridge.nout.toNat ≤ s.bridge.outF.prdFree) :
    writeStep s n d blk = (s.setBridge { s.bridge with
        outF := s.bridge.outF.pushMove d (n.toNat * s.bridge.nout.toNat), wrk := .idle }).answer .wrk
      (ok (BitVec.ofNat 32 n.toNat)) := by
  simp only [writeStep, pushCore_all blk hC hk, Nat.mul_div_cancel _ (Nat.pos_of_mul_pos_left h0)]
  rfl

end

/-- Settles O44: the release, and for each transfer the completion or the hold. -/
theorem heldWorkerCompletesOrReleased : Obligations.HeldWorkerCompletesOrReleased := by
  intro s n d ts hev hw
  have hst : step s = recheckWorker (s.setSchedule ts) := step_of_event hev
  refine ⟨fun hb => ?_, fun hb hr h0 hC hs => ⟨_, hst.trans (recheckWorker_read hr hb hs), ?_⟩,
    fun hb hwr hd h0 hC hs => ⟨_, hst.trans (recheckWorker_write hwr hb hs), ?_⟩⟩
  · have hheld : s.bridge.wrk ≠ .idle := by rcases hw with hw | hw <;> simp [hw]
    exact hst.trans (recheckWorker_shutdown hheld hb)
  · split
    · rename_i hk
      rw [readStep_all (s := s.setSchedule ts) h0 hC hk]
      exact ⟨⟨rfl, rfl, rfl, rfl, rfl⟩, _, _, popEffect_popMove _ _, rfl, rfl⟩
    · rename_i hk
      exact readStep_hold (s := s.setSchedule ts) hr (popCore_none.2 ⟨rfl, h0, hC, Nat.lt_of_not_le hk⟩)
  · split
    · rename_i hk
      rw [writeStep_all (s := s.setSchedule ts) h0 hC hk]
      exact ⟨⟨rfl, rfl, rfl, rfl, rfl⟩, _, pushEffect_pushMove _ hd.ge hC, rfl, rfl⟩
    · rename_i hk
      exact writeStep_hold (s := s.setSchedule ts) hwr (pushCore_none.2 ⟨rfl, h0, hC, Nat.lt_of_not_le hk⟩)

end Sys2Proof.Machine
end

section
/-! SUPPORT. The transfers of a standalone FIFO (41_fifo_transfer.md R91, R92): what a push and a pop can leave, what a
non-blocking one moves (R94, R95), that the samples stay in FIFO order (R58), and the round trip of R99. -/

namespace Sys2Proof.Machine
open Sys2Proof.Stated

/-! ## What a transfer can leave -/

/-- A push either holds with its operands, or moves `k` words the producer side sees room for and answers that count. -/
theorem pushStep_cases (s : State) (x : Nat) (u : Standalone) (n : Count) (d : List Word) (blk : Bool) :
    (u.fifo.pushCore d n.toNat blk = none ∧
        pushStep s x u n d blk = s.setUnit x { u with prd := .waitPush n d blk }) ∨
      ∃ k, k ≤ n.toNat ∧ k ≤ u.fifo.prdFree ∧ pushStep s x u n d blk =
        (s.setUnit x { u with fifo := u.fifo.pushMove d k, prd := .idle }).answer (.prd x)
          (ok (BitVec.ofNat 32 k)) := by
  unfold pushStep
  split
  · exact .inl ⟨‹_›, rfl⟩
  · rename_i k f hcore
    obtain ⟨rfl, hkn, hk, -⟩ := pushCore_some hcore
    exact .inr ⟨k, hkn, hk, rfl⟩

/-- A pop either holds with its operands, or moves `k` words the consumer side sees and answers them. -/
theorem popStep_cases (s : State) (x : Nat) (u : Standalone) (n : Count) (blk : Bool) :
    (u.fifo.popCore n.toNat blk = none ∧ popStep s x u n blk = s.setUnit x { u with con := .waitPop n blk }) ∨
      ∃ k, k ≤ n.toNat ∧ k ≤ u.fifo.conLevel ∧ popStep s x u n blk =
        (s.setUnit x { u with fifo := u.fifo.popMove k, con := .idle }).answer (.con x)
          { err := false, value := BitVec.ofNat 32 k, data := .words (u.fifo.peek k) } := by
  unfold popStep
  split
  · exact .inl ⟨‹_›, rfl⟩
  · rename_i k out f hcore
    obtain ⟨rfl, rfl, hkn, hk, -⟩ := popCore_some hcore
    exact .inr ⟨k, hkn, hk, rfl⟩

/-! ## FIFO order -/

/-- A count of a transfer is what its response shows. -/
theorem ofNat_toNat_of_le {k : Nat} {n : Count} (h : k ≤ n.toNat) : (BitVec.ofNat 32 k).toNat = k := by
  rw [BitVec.toNat_ofNat, Nat.mod_eq_of_lt (by omega)]

/-- A FIFO_PUSH answered OK(k) has moved the first `k` words of its data. -/
theorem ExecCase.push_ok {s t : State} {x : Nat} {u : Standalone} {n : Count} {d : List Word} {k : Word}
    (h : ExecCase s (.fifoPush n) t) (hi : IssuedOn (.fifoPush n) s x u) (hd : s.req.data = .words d)
    (ha : Answered s t (ok k)) :
    t.fifos[x]? = some { u with fifo := u.fifo.pushMove d k.toNat, prd := .idle } ∧ k.toNat ≤ d.length ∧
      k.toNat ≤ u.fifo.prdFree := by
  obtain ⟨-, hx, hu⟩ := hi
  cases h with
  | error => simp [Answered, Response.error] at ha
  | read _ _ hr => simp [isRead] at hr
  | fifoPush _ d' x' u' hp hu' hd' hl =>
    obtain rfl : x' = x := by simpa [hp, Port.unitNo] using hx
    obtain rfl : u' = u := Option.some.inj (hu'.symm.trans hu)
    obtain rfl : d' = d := DataPhase.words.inj (hd'.symm.trans hd)
    rcases pushStep_cases s x' u' n d' u'.pushBlock with ⟨-, e⟩ | ⟨m, hmn, hm, e⟩ <;> rw [e] at ha ⊢
    · simp [Answered] at ha
    · obtain rfl : BitVec.ofNat 32 m = k := by simpa [Answered, hp] using ha
      rw [ofNat_toNat_of_le hmn]
      exact ⟨State.setUnit_get_self hu, hl ▸ hmn, hm⟩

/-- A FIFO_POP answered OK(k) has moved `k` words and returned them. -/
theorem ExecCase.pop_ok {s t : State} {x : Nat} {u : Standalone} {n : Count} {out : List Word} {k : Word}
    (h : ExecCase s (.fifoPop n) t) (hi : IssuedOn (.fifoPop n) s x u)
    (ha : Answered s t { err := false, value := k, data := .words out }) :
    t.fifos[x]? = some { u with fifo := u.fifo.popMove k.toNat, con := .idle } ∧ out = u.fifo.peek k.toNat ∧
      k.toNat ≤ u.fifo.conLevel := by
  obtain ⟨-, hx, hu⟩ := hi
  cases h with
  | error => simp [Answered, Response.error] at ha
  | read _ _ hr => simp [isRead] at hr
  | fifoPop _ x' u' hp hu' =>
    obtain rfl : x' = x := by simpa [hp, Port.unitNo] using hx
    obtain rfl : u' = u := Option.some.inj (hu'.symm.trans hu)
    rcases popStep_cases s x' u' n u'.popBlock with ⟨-, e⟩ | ⟨m, hmn, hm, e⟩ <;> rw [e] at ha ⊢
    · simp [Answered] at ha
    · obtain ⟨rfl, rfl⟩ : BitVec.ofNat 32 m = k ∧ u'.fifo.peek m = out := by simpa [Answered, hp] using ha
      rw [ofNat_toNat_of_le hmn]
      exact ⟨State.setUnit_get_self hu, rfl, hm⟩

/-- Settles O27: an answered push has appended what it moved, an answered pop has taken off the oldest. -/
theorem transfersKeepFifoOrder : Obligations.TransfersKeepFifoOrder := by
  refine ⟨fun n s t x u v d k hi hd hl h ha hv => ?_, fun n s t x u v out k hi hl h ha hv => ?_⟩
  · obtain ⟨hu, hkd, hk⟩ := (exec_cases h).push_ok hi hd ha
    obtain rfl := Option.some.inj (hv.symm.trans hu)
    exact hl.contents_pushMove hk hkd
  · obtain ⟨hu, rfl, hk⟩ := (exec_cases h).pop_ok hi ha
    obtain rfl := Option.some.inj (hv.symm.trans hu)
    exact ⟨Fifo.peek_eq_take (hk.trans hl.conLevel_le_level), Fifo.length_peek _ _, hl.contents_popMove hk⟩

/-! ## The commands that transfer -/

/-- A well-formed FIFO_PUSH on a constructed FIFO pushes in the mode of that moment (R94). -/
theorem exec_fifoPush {n : Count} {s : State} {x : Nat} {u : Standalone} {d : List Word}
    (hi : IssuedOn (.fifoPush n) s x u) (hd : s.req.data = .words d) (hc : u.fifo.constructed = true)
    (hs : u.fifo.cap.toNat ≤ s.params.depthMax.toNat) :
    exec (.fifoPush n) s = .next (pushStep s x u n d u.pushBlock) := by
  obtain ⟨⟨hp, hf⟩, hx, hu⟩ := hi
  show execFifoPush n s = _
  rw [execFifoPush, accepting_run hp hf, onUnit_run hx hu, if_pos hc, inStorage_run hs, hd]
  rfl

/-- A well-formed FIFO_POP on a constructed FIFO pops in the mode of that moment (R95). -/
theorem exec_fifoPop {n : Count} {s : State} {x : Nat} {u : Standalone} (hi : IssuedOn (.fifoPop n) s x u)
    (hc : u.fifo.constructed = true) (hs : u.fifo.cap.toNat ≤ s.params.depthMax.toNat) :
    exec (.fifoPop n) s = .next (popStep s x u n u.popBlock) := by
  obtain ⟨⟨hp, hf⟩, hx, hu⟩ := hi
  show execFifoPop n s = _
  rw [execFifoPop, accepting_run hp hf, onUnit_run hx hu, if_pos hc, inStorage_run hs]

/-- FIFO_PUSH is issued on PRD, with as many words as it says (R66, R68). -/
theorem issuedOn_push_port {n : Count} {s : State} {x : Nat} {u : Standalone} {d : List Word}
    (hi : IssuedOn (.fifoPush n) s x u) (hd : s.req.data = .words d) : s.req.port = .prd x ∧ d.length = n.toNat := by
  obtain ⟨⟨hp, hf⟩, hx, -⟩ := hi
  obtain ⟨ws, hws, hl⟩ := words_of_fits hf
  obtain rfl : ws = d := DataPhase.words.inj (hws.symm.trans hd)
  exact ⟨prd_port hp hx, hl⟩

/-- FIFO_POP is issued on CON (R68). -/
theorem issuedOn_pop_port {n : Count} {s : State} {x : Nat} {u : Standalone} (hi : IssuedOn (.fifoPop n) s x u) :
    s.req.port = .con x := by
  obtain ⟨⟨hp, -⟩, hx, -⟩ := hi
  exact con_port hp hx

/-- Replacing a FIFO and answering changes nothing else. -/
theorem onlyUnit_setUnit_answer (s : State) (x : Nat) (u : Standalone) (p : Port) (r : Response) :
    OnlyUnit s ((s.setUnit x u).answer p r) x :=
  ⟨rfl, rfl, rfl, rfl, rfl, by simp, fun _ hy => State.setUnit_get_ne s u hy⟩

/-- A push on an IDLE port that does not hold leaves the port IDLE. -/
theorem pushStep_of_some {s : State} {x : Nat} {u : Standalone} {n : Count} {d : List Word} {blk : Bool} {k : Nat}
    {f : Fifo} (h : u.fifo.pushCore d n.toNat blk = some (k, f)) (hp : u.prd = .idle) :
    pushStep s x u n d blk = (s.setUnit x { u with fifo := f }).answer (.prd x) (ok (BitVec.ofNat 32 k)) := by
  simp only [pushStep, h, ← hp]
  rfl

/-- So does a pop. -/
theorem popStep_of_some {s : State} {x : Nat} {u : Standalone} {n : Count} {blk : Bool} {k : Nat} {out : List Word}
    {f : Fifo} (h : u.fifo.popCore n.toNat blk = some (k, out, f)) (hp : u.con = .idle) :
    popStep s x u n blk = (s.setUnit x { u with fifo := f }).answer (.con x)
      { err := false, value := BitVec.ofNat 32 k, data := .words out } := by
  simp only [popStep, h, ← hp]
  rfl

/-- A non-blocking push moves what the producer side sees free (R91). -/
theorem pushCore_nonBlocking (x : Fifo) (d : List Word) (n : Nat) :
    x.pushCore d n false = some (min n x.prdFree, x.pushMove d (min n x.prdFree)) := by
  cases hcore : x.pushCore d n false with
  | none => simp [pushCore_none] at hcore
  | some r =>
    obtain ⟨k, f⟩ := r
    obtain ⟨rfl, -, -, hk, -⟩ := pushCore_some hcore
    rw [hk rfl]

/-- A non-blocking pop moves what the consumer side sees (R92). -/
theorem popCore_nonBlocking (x : Fifo) (n : Nat) :
    x.popCore n false = some (min n x.conLevel, x.peek (min n x.conLevel), x.popMove (min n x.conLevel)) := by
  cases hcore : x.popCore n false with
  | none => simp [popCore_none] at hcore
  | some r =>
    obtain ⟨k, out, f⟩ := r
    obtain ⟨rfl, rfl, -, -, hk, -⟩ := popCore_some hcore
    rw [hk rfl]

/-- Settles O20: the push moves what the producer side sees free, at most C words. -/
theorem fifoPushNonBlockingMoves : Obligations.FifoPushNonBlockingMoves := by
  intro n s x u d hi hd hc hs hb hidle
  obtain ⟨hport, hlen⟩ := issuedOn_push_port hi hd
  have hrun := exec_fifoPush hi hd hc hs
  rw [hb, pushStep_of_some (pushCore_nonBlocking _ _ _) hidle] at hrun
  refine ⟨_, _, _, hrun, rfl, onlyUnit_setUnit_answer _ _ _ _ _, hport ▸ rfl, State.setUnit_get_self hi.2.2,
    pushEffect_pushMove _ ?_ ?_⟩
  · exact hlen ▸ Nat.min_le_left _ _
  · exact (Nat.min_le_right _ _).trans u.fifo.prdFree_le_cap

/-- Settles O22: the pop moves what the consumer side sees. -/
theorem fifoPopNonBlockingMoves : Obligations.FifoPopNonBlockingMoves := by
  intro n s x u hi hc hs hb hidle
  have hrun := exec_fifoPop hi hc hs
  rw [hb, popStep_of_some (popCore_nonBlocking _ _) hidle] at hrun
  exact ⟨_, _, _, _, hrun, rfl, onlyUnit_setUnit_answer _ _ _ _ _, issuedOn_pop_port hi ▸ rfl,
    State.setUnit_get_self hi.2.2, popEffect_popMove _ _⟩

/-! ## The round trip -/

/-- A stage of the round trip: standalone FIFO `x` is `u`, constructed, with IDLE ports and a capacity its storage
has; the turns to come are `ts` and the responses given `rs`. -/
structure UnitStage (x : Nat) (u : Standalone) (ts : List Turn) (rs : List Reply) (s : State) : Prop where
  unit : s.fifos[x]? = some u
  schedule : s.schedule = ts
  replies : s.replies = rs
  constructed : u.fifo.constructed = true
  storage : u.fifo.cap.toNat ≤ s.params.depthMax.toNat
  prd : u.prd = .idle
  con : u.con = .idle

section
variable {s : State} {x : Nat} {u : Standalone} {n : Count} {ts : List Turn} {rs : List Reply}

/-- A push of at most C words that the producer side sees room for moves all of them. -/
theorem UnitStage.pushes {d : List Word}
    (h : UnitStage x u (issues (.prd x) (.fifoPush n) (.words d) :: ts) rs s) (hd : d.length = n.toNat)
    (hC : n.toNat ≤ u.fifo.cap.toNat) (hk : n.toNat ≤ u.fifo.prdFree) :
    ∃ t, step s = .next t ∧ UnitStage x { u with fifo := u.fifo.pushMove d n.toNat } ts
      (⟨.prd x, ok (BitVec.ofNat 32 n.toNat)⟩ :: rs) t := by
  obtain ⟨hu, hts, rfl, hc, hs, hprd, hcon⟩ := h
  have hst := step_issues hts (by simp [State.portBusy_prd hu, hprd]) (decode_of_ownRow (Laws.OwnRow.fifoPush n) rfl)
  have hi : IssuedOn (.fifoPush n) ((s.setSchedule ts).latch
      { port := .prd x, word := encode (.fifoPush n), data := .words d, host := .absent }) x u :=
    ⟨⟨rfl, by simp [Instr.dataFits, DataPhase.isWords, hd]⟩, rfl, hu⟩
  rw [exec_fifoPush hi rfl hc hs, pushStep_of_some (pushCore_all _ hC hk) hprd] at hst
  exact ⟨_, hst, State.setUnit_get_self hu, rfl, rfl, by simpa using hc, by simpa using hs, hprd, hcon⟩

/-- A delivery of TAIL. -/
theorem UnitStage.syncs (h : UnitStage x u (turnOf (.syncT (.unit x) 1) :: ts) rs s) :
    ∃ t, step s = .next t ∧ UnitStage x { u with fifo := u.fifo.syncT 1 } ts rs t := by
  obtain ⟨hu, hts, rfl, hc, hs, hprd, hcon⟩ := h
  have hst : step s = .next ((s.setSchedule ts).setUnit x { u with fifo := u.fifo.syncT 1 }) := by
    rw [step_of_event hts]
    exact congrArg _ (State.mapFifo_unit (s := s.setSchedule ts) hu _)
  exact ⟨_, hst, State.setUnit_get_self hu, rfl, rfl, by simpa using hc, by simpa using hs, hprd, hcon⟩

/-- A pop of at most C words that the consumer side sees moves all of them. -/
theorem UnitStage.pops (h : UnitStage x u (issues (.con x) (.fifoPop n) (.words []) :: ts) rs s)
    (hC : n.toNat ≤ u.fifo.cap.toNat) (hk : n.toNat ≤ u.fifo.conLevel) :
    ∃ t, step s = .next t ∧ UnitStage x { u with fifo := u.fifo.popMove n.toNat } ts
      (⟨.con x, { err := false, value := BitVec.ofNat 32 n.toNat, data := .words (u.fifo.peek n.toNat) }⟩ :: rs) t := by
  obtain ⟨hu, hts, rfl, hc, hs, hprd, hcon⟩ := h
  have hst := step_issues hts (by simp [State.portBusy_con hu, hcon]) (decode_of_ownRow (Laws.OwnRow.fifoPop n) rfl)
  have hi : IssuedOn (.fifoPop n) ((s.setSchedule ts).latch
      { port := .con x, word := encode (.fifoPop n), data := .words [], host := .absent }) x u :=
    ⟨⟨rfl, rfl⟩, rfl, hu⟩
  rw [exec_fifoPop hi hc hs, popStep_of_some (popCore_all _ hC hk) hcon] at hst
  exact ⟨_, hst, State.setUnit_get_self hu, rfl, rfl, by simpa using hc, by simpa using hs, hprd, hcon⟩

end

/-- Settles O28: the three stages of the round trip; the delivery shows the consumer side all that was pushed. -/
theorem roundTripReturnsSequence : Obligations.RoundTripReturnsSequence := by
  intro s x u d ts hu hl hs hE hQ _ _ hprd hcon hd hsched
  have hn : (BitVec.ofNat 24 d.length).toNat = d.length := by
    rw [BitVec.toNat_ofNat, Nat.mod_eq_of_lt (hd.trans_lt u.fifo.cap_lt)]
  obtain ⟨hlevel, hpeek⟩ := hl.delivered hE hQ hd
  have h0 : UnitStage x u _ s.replies s := ⟨hu, hsched, rfl, hl.1, hs, hprd, hcon⟩
  obtain ⟨s1, e1, h1⟩ := h0.pushes hn.symm (by rwa [hn]) (by rw [hn, hl.prdFree_of_empty hE hQ]; exact hd)
  obtain ⟨s2, e2, h2⟩ := h1.syncs
  obtain ⟨s3, e3, h3⟩ := h2.pops (by simpa [hn] using hd) (by rw [hn]; exact hlevel.ge)
  refine ⟨s3, ?_, h3.schedule, ?_⟩
  · rw [runSteps_succ e1, runSteps_succ e2, runSteps_succ e3]
    rfl
  · rw [h3.replies, hn, hpeek]

end Sys2Proof.Machine
end

section
/-! SUPPORT. What a step does to each FIFO, said once (20_memory.md R48 to R50): from it, that memories stay in
canonical form (log 5), and that a weakly fair run delivers what is published (R51). -/

namespace Sys2Proof.Machine
open Sys2Proof.Stated

/-! ## The changes of one FIFO -/

/-- What a step of event `e`, taken in BSTATE `b`, can do to the FIFO named `f`: nothing, a transfer, a construction
(R81, R107), or a synchroniser step of its own. -/
inductive FifoChange (b : BState) (e : Event) (f : FifoName) (x : Fifo) : Fifo → Prop where
  | same : FifoChange b e f x x
  | push (d : List Word) (k : Nat) (hk : k ≤ x.prdFree) : FifoChange b e f x (x.pushMove d k)
  | pop (k : Nat) (hk : k ≤ x.conLevel) : FifoChange b e f x (x.popMove k)
  | init (c : Count) (hc : x.constructed = false) : FifoChange b e f x (x.construct c)
  | start (c : Count) (hf : f = .input ∨ f = .output) (hb : b = .configured) : FifoChange b e f x (x.construct c)
  | syncH (j : Nat) (he : e = .syncH f j) : FifoChange b e f x (x.syncH j)
  | syncT (j : Nat) (he : e = .syncT f j) : FifoChange b e f x (x.syncT j)

/-- Both states have the same FIFOs, each changed in one of these ways. -/
def FifosChange (b : BState) (e : Event) (s t : State) : Prop :=
  ∀ f, Option.Rel (FifoChange b e f) (s.fifo? f) (t.fifo? f)

section
variable {b : BState} {e : Event} {s : State}

theorem FifosChange.refl (s : State) : FifosChange b e s s := by
  intro f
  cases s.fifo? f with
  | none => exact .none
  | some x => exact .some .same

theorem FifosChange.setUnit {x : Nat} {u v : Standalone} (hu : s.fifos[x]? = some u)
    (h : FifoChange b e (.unit x) u.fifo v.fifo) : FifosChange b e s (s.setUnit x v) := by
  intro f
  by_cases hf : f = .unit x
  · rw [hf, State.fifo?_unit hu, State.fifo?_unit (State.setUnit_get_self hu)]
    exact .some h
  · rw [State.fifo?_setUnit_ne s v hf]
    exact FifosChange.refl s f

theorem FifosChange.setBridge {c : Bridge} (hi : FifoChange b e .input s.bridge.inF c.inF)
    (ho : FifoChange b e .output s.bridge.outF c.outF) : FifosChange b e s (s.setBridge c) := by
  intro f
  cases f with
  | unit x => exact FifosChange.refl s (.unit x)
  | input => exact .some hi
  | output => exact .some ho

theorem FifosChange.mapFifo {f : FifoName} {g : Fifo → Fifo} (h : ∀ x, FifoChange b e f x (g x)) :
    FifosChange b e s (s.mapFifo f g) := by
  intro n
  by_cases hn : n = f
  · subst hn
    rw [s.fifo?_mapFifo_self]
    cases s.fifo? n with
    | none => exact .none
    | some x => exact .some (h x)
  · rw [s.fifo?_mapFifo_ne f g hn]
    exact FifosChange.refl s n

/-! ## The changes of every FIFO -/

theorem FifosChange.pushStep {x : Nat} {u : Standalone} (n : Count) (d : List Word) (blk : Bool)
    (hu : s.fifos[x]? = some u) : FifosChange b e s (pushStep s x u n d blk) := by
  rcases pushStep_cases s x u n d blk with ⟨-, h⟩ | ⟨k, -, hk, h⟩ <;> rw [h]
  · exact .setUnit hu .same
  · exact FifosChange.setUnit hu (.push d k hk)

theorem FifosChange.popStep {x : Nat} {u : Standalone} (n : Count) (blk : Bool)
    (hu : s.fifos[x]? = some u) : FifosChange b e s (popStep s x u n blk) := by
  rcases popStep_cases s x u n blk with ⟨-, h⟩ | ⟨k, -, hk, h⟩ <;> rw [h]
  · exact .setUnit hu .same
  · exact FifosChange.setUnit hu (.pop k hk)

theorem FifosChange.readStep (s : State) (n : Count) (blk : Bool) : FifosChange b e s (readStep s n blk) := by
  unfold Machine.readStep
  split
  · exact .setBridge .same .same
  · rename_i k out f hcore
    obtain ⟨rfl, -, -, hk, -⟩ := popCore_some hcore
    exact FifosChange.setBridge (.pop k hk) .same

theorem FifosChange.writeStep (s : State) (n : Count) (d : List Word) (blk : Bool) :
    FifosChange b e s (writeStep s n d blk) := by
  unfold Machine.writeStep
  split
  · exact .setBridge .same .same
  · rename_i k f hcore
    obtain ⟨rfl, -, hk, -⟩ := pushCore_some hcore
    exact FifosChange.setBridge .same (.push d k hk)

theorem FifosChange.ingest (s : State) (n : Count) (bufs : List (List Word)) :
    FifosChange b e s (s.setBridge (ingest s.bridge n bufs)) := by
  rw [ingest_eq]
  exact .setBridge (.push _ _ (Nat.min_le_right _ _)) .same

theorem FifosChange.egressOf (s : State) (n : Count) (sin : Bool) : FifosChange b e s (egressOf s n sin) := by
  rw [egressOf_eq]
  exact FifosChange.setBridge .same (.pop _ (Nat.min_le_right _ _))

theorem ExecCase.fifosChange {t : State} {i : Instr} (h : ExecCase s i t) : FifosChange s.bridge.bstate e s t := by
  cases h with
  | fifoInit n x u hp hu hc => exact FifosChange.setUnit hu (.init n hc)
  | fifoSetMode m0 m1 x u hp hu => exact FifosChange.setUnit hu .same
  | fifoSetNap n x u hp hu => exact FifosChange.setUnit hu .same
  | fifoPush n d x u hp hu => exact .pushStep n d _ hu
  | fifoPop n x u hp hu => exact .popStep n _ hu
  | brInitialize hp hb => exact FifosChange.setBridge (.start _ (.inl rfl) hb) (.start _ (.inr rfl) hb)
  | audioReady n bufs => exact .ingest s n bufs
  | brReadFrames n => exact .readStep s n _
  | brWriteFrames n d => exact .writeStep s n d _
  | error => exact FifosChange.refl s
  | read => exact FifosChange.refl s
  | brHostShutdownAgain => exact FifosChange.refl s
  | audioStopped => exact FifosChange.refl s
  | _ => exact FifosChange.setBridge .same .same

theorem EventCase.fifosChange {t : State} (h : EventCase s e t) : FifosChange s.bridge.bstate e s t := by
  cases h with
  | illegal r => exact FifosChange.refl s
  | command r i t hb hd h => exact h.fifosChange (s := s.latch r)
  | disabled => exact .refl s
  | push x u n d blk hu => exact .pushStep n d blk hu
  | pop x u n blk hu => exact .popStep n blk hu
  | release => exact FifosChange.setBridge .same .same
  | readFrames n blk => exact .readStep s n blk
  | writeFrames n d blk => exact .writeStep s n d blk
  | egress n sin => exact .egressOf s n sin
  | syncH f j => exact .mapFifo fun _ => .syncH j rfl
  | syncT f j => exact .mapFifo fun _ => .syncT j rfl

end

/-! ## Canonical memories -/

theorem FifoChange.store_wf {b : BState} {e : Event} {f : FifoName} {x y : Fifo} (h : FifoChange b e f x y)
    (hx : x.store.wf) : y.store.wf := by
  cases h with
  | push d k => rw [Fifo.pushMove_store]; exact Memory.wf_writeRing hx _ _ _
  | pop k => rwa [Fifo.popMove_store]
  | syncH j => rwa [Fifo.syncH_store]
  | syncT j => rwa [Fifo.syncT_store]
  | _ => exact hx

section
variable {s t : State}

/-- The memories of the machine are the storages of its FIFOs and the scratch buffer. -/
theorem State.memoriesWf_iff :
    s.memoriesWf ↔ (∀ f x, s.fifo? f = some x → x.store.wf) ∧ s.bridge.scr.wf := by
  constructor
  · rintro ⟨hu, hi, ho, hs⟩
    refine ⟨fun f x hf => ?_, hs⟩
    cases f with
    | unit y =>
      obtain ⟨u, hy, rfl⟩ := Option.map_eq_some_iff.1 hf
      exact hu u (List.mem_of_getElem? hy)
    | input => cases hf; exact hi
    | output => cases hf; exact ho
  · rintro ⟨hf, hs⟩
    refine ⟨fun u hu => ?_, hf .input _ rfl, hf .output _ rfl, hs⟩
    obtain ⟨y, hy⟩ := List.getElem?_of_mem hu
    exact hf (.unit y) _ (State.fifo?_unit hy)

/-- Whatever happens to the FIFOs, their storages stay in canonical form. -/
theorem FifosChange.store_wf {b : BState} {e : Event} (h : FifosChange b e s t)
    (hs : ∀ f x, s.fifo? f = some x → x.store.wf) : ∀ f y, t.fifo? f = some y → y.store.wf := by
  intro f y hy
  have hf := h f
  rw [hy] at hf
  cases hx : s.fifo? f with
  | none => rw [hx] at hf; cases hf
  | some x =>
    rw [hx] at hf
    cases hf with
    | some hc => exact hc.store_wf (hs f x hx)

theorem readStep_scr (s : State) (n : Count) (blk : Bool) : (readStep s n blk).bridge.scr = s.bridge.scr := by
  unfold readStep
  split <;> rfl

theorem writeStep_scr (s : State) (n : Count) (d : List Word) (blk : Bool) :
    (writeStep s n d blk).bridge.scr = s.bridge.scr := by
  unfold writeStep
  split <;> rfl

theorem State.mapFifo_scr (s : State) (f : FifoName) (g : Fifo → Fifo) :
    (s.mapFifo f g).bridge.scr = s.bridge.scr := by
  obtain ⟨-, -, -, hb, -⟩ := s.mapFifo_frame f g
  have hscr := congrArg Bridge.scr hb
  exact hscr

theorem ExecCase.scratch_wf {i : Instr} (h : ExecCase s i t) (hs : s.bridge.scr.wf) : t.bridge.scr.wf := by
  cases h with
  | fifoPush n d x u => rwa [(pushStep_frame s x u n d u.pushBlock).2.1]
  | fifoPop n x u => rwa [(popStep_frame s x u n u.popBlock).2.1]
  | audioReady n bufs => rw [ingest_eq]; exact Memory.wf_writeRun hs _ _
  | brReadFrames n => rwa [readStep_scr]
  | brWriteFrames n d => rwa [writeStep_scr]
  | _ => exact hs

theorem EventCase.scratch_wf {e : Event} (h : EventCase s e t) (hs : s.bridge.scr.wf) : t.bridge.scr.wf := by
  cases h with
  | command r i t hb hd h => exact h.scratch_wf hs
  | push x u n d blk => rwa [(pushStep_frame s x u n d blk).2.1]
  | pop x u n blk => rwa [(popStep_frame s x u n blk).2.1]
  | readFrames n blk => rwa [readStep_scr]
  | writeFrames n d blk => rwa [writeStep_scr]
  | egress n sin => rw [egressOf_eq]; exact Memory.wf_writeRun (Memory.wf_writeRun hs _ _) _ _
  | syncH f j => rwa [State.mapFifo_scr]
  | syncT f j => rwa [State.mapFifo_scr]
  | _ => exact hs

end

/-- Settles O50: a step writes memories only by `Memory.write`, and reset lists nothing. -/
theorem memoriesStayCanonical : Obligations.MemoriesStayCanonical := by
  intro s t hs h
  rcases step_cases h with ⟨-, rfl⟩ | ⟨e, ts, -, rfl⟩ | ⟨ts, -, rfl⟩ | ⟨e, ts, -, -, he⟩
  · exact hs
  · exact memoriesWf_resetOf s.params (s.epoch + 1)
  · exact hs
  · obtain ⟨hstore, hscr⟩ := State.memoriesWf_iff.1 hs
    exact State.memoriesWf_iff.2 ⟨he.fifosChange.store_wf hstore, he.scratch_wf hscr⟩

/-! ## The index channels -/

/-- The two index channels of a FIFO: QH, read by HVIEW, and QT, read by TVIEW (R48 to R50). -/
inductive Channel where
  | heads
  | tails

/-- The values published and not yet delivered, the first one first. -/
def Channel.queue : Channel → Fifo → List Idx
  | .heads, x => x.qh
  | .tails, x => x.qt

/-- The view the channel is delivered to. -/
def Channel.view : Channel → Fifo → Idx
  | .heads, x => x.hview
  | .tails, x => x.tview

/-- The synchroniser's step on a FIFO, with its draw. -/
def Channel.sync : Channel → Fifo → Nat → Fifo
  | .heads => Fifo.syncH
  | .tails => Fifo.syncT

/-- The synchroniser's step as an event. -/
def Channel.event : Channel → FifoName → Nat → Event
  | .heads => .syncH
  | .tails => .syncT

/-- The synchroniser as an agent that is weakly fair (R51). -/
def Channel.agent : Channel → FifoName → FairAgent
  | .heads => .syncH
  | .tails => .syncT

/-- From `x` to `y` the channel has delivered a value to its view, and dropped it and those before it. -/
def Channel.Delivers (c : Channel) (x y : Fifo) : Prop :=
  ∃ j, 1 ≤ j ∧ (c.queue x)[j - 1]? = some (c.view y) ∧ c.queue y = (c.queue x).drop j

section
variable {c : Channel} {f : FifoName} {x y : Fifo} {s t : State}

theorem Channel.enabled_iff : (c.agent f).Enabled s ↔ ∃ x, s.fifo? f = some x ∧ c.queue x ≠ [] := by
  cases c <;> rfl

theorem Channel.taken_iff {u : Turn} : (c.agent f).Taken s u ↔ u.rst = false ∧
    ∃ j x, u.ev = some (c.event f j) ∧ s.fifo? f = some x ∧ 1 ≤ j ∧ j ≤ (c.queue x).length := by
  cases c <;> rfl

theorem Channel.perform_event (j : Nat) : perform (c.event f j) s = .next (s.mapFifo f (fun x => c.sync x j)) := by
  cases c <;> rfl

/-- A synchroniser step with a legal draw delivers. -/
theorem Channel.delivers_sync {j : Nat} (h1 : 1 ≤ j) (hj : j ≤ (c.queue x).length) : c.Delivers x (c.sync x j) := by
  have hlt : j - 1 < (c.queue x).length := by omega
  refine ⟨j, h1, ?_⟩
  rw [List.getElem?_eq_getElem hlt]
  cases c with
  | heads => rw [Channel.sync, Fifo.syncH_of_lt h1 hlt]; exact ⟨rfl, rfl⟩
  | tails => rw [Channel.sync, Fifo.syncT_of_lt h1 hlt]; exact ⟨rfl, rfl⟩

/-- With any other draw nothing happens (log 4). -/
theorem Channel.sync_of_illegal {j : Nat} (h : ¬ (1 ≤ j ∧ j ≤ (c.queue x).length)) : c.sync x j = x := by
  by_cases h0 : j = 0
  · subst h0
    cases c <;> rfl
  · have hnone : (c.queue x)[j - 1]? = none := List.getElem?_eq_none (by omega)
    cases c with
    | heads => simp [Channel.sync, Fifo.syncH, h0, show x.qh[j - 1]? = none from hnone]
    | tails => simp [Channel.sync, Fifo.syncT, h0, show x.qt[j - 1]? = none from hnone]

/-- A synchroniser step of the channel itself, whatever the draw. -/
theorem Channel.sync_queue (c : Channel) (x : Fifo) (j : Nat) :
    c.queue x <+: c.queue (c.sync x j) ∨ c.Delivers x (c.sync x j) := by
  by_cases h : 1 ≤ j ∧ j ≤ (c.queue x).length
  · exact .inr (c.delivers_sync h.1 h.2)
  · exact .inl (by rw [c.sync_of_illegal h])

theorem Channel.pushMove_queue (c : Channel) (x : Fifo) (d : List Word) (k : Nat) :
    c.queue x <+: c.queue (x.pushMove d k) := by
  unfold Fifo.pushMove
  split
  · exact List.prefix_rfl
  · cases c with
    | heads => exact List.prefix_rfl
    | tails => exact List.prefix_append _ _

theorem Channel.popMove_queue (c : Channel) (x : Fifo) (k : Nat) : c.queue x <+: c.queue (x.popMove k) := by
  unfold Fifo.popMove
  split
  · exact List.prefix_rfl
  · cases c with
    | heads => exact List.prefix_append _ _
    | tails => exact List.prefix_rfl

/-- Nothing is published on a FIFO that is not constructed. -/
theorem Fifo.Inv.queue_nil {p : Params} (h : x.Inv p) (hc : x.constructed = false) : c.queue x = [] := by
  obtain ⟨-, -, hl | ⟨-, -, -, -, -, -, hqh, hqt⟩⟩ := h
  · exact absurd hl.1 (by simp [hc])
  · cases c with
    | heads => exact hqh
    | tails => exact hqt

/-- A step keeps what a channel holds at its front, or delivers from it: construction finds it empty (R23). -/
theorem FifoChange.queue {e : Event} (h : FifoChange s.bridge.bstate e f x y) (hs : s.Inv)
    (hf : s.fifo? f = some x) (c : Channel) : c.queue x <+: c.queue y ∨ c.Delivers x y := by
  cases h with
  | same => exact .inl List.prefix_rfl
  | push d k => exact .inl (c.pushMove_queue x d k)
  | pop k => exact .inl (c.popMove_queue x k)
  | init n hc => exact .inl (by rw [(hs.fifo hf).queue_nil hc]; exact List.nil_prefix)
  | start n hf' hb =>
    obtain ⟨⟨hi, ho⟩, -⟩ := hs.bridge.lifecycle.notBuilt (.inr hb)
    have hc : x.constructed = false := by
      rcases hf' with rfl | rfl <;> cases hf
      · exact hi
      · exact ho
    exact .inl (by rw [(hs.fifo hf).queue_nil hc]; exact List.nil_prefix)
  | syncH j =>
    cases c with
    | heads => exact Channel.heads.sync_queue x j
    | tails => exact .inl (by simp [Channel.queue])
  | syncT j =>
    cases c with
    | heads => exact .inl (by simp [Channel.queue])
    | tails => exact Channel.tails.sync_queue x j

theorem FifosChange.queue {e : Event} (h : FifosChange s.bridge.bstate e s t) (hs : s.Inv) (hf : s.fifo? f = some x)
    (c : Channel) : ∃ y, t.fifo? f = some y ∧ (c.queue x <+: c.queue y ∨ c.Delivers x y) := by
  have hr := h f
  rw [hf] at hr
  cases hy : t.fifo? f with
  | none => rw [hy] at hr; cases hr
  | some y =>
    rw [hy] at hr
    cases hr with
    | some hc => exact ⟨y, rfl, hc.queue hs hf c⟩

/-- What a step without reset does to a channel. -/
theorem step_queue {ev : Option Event} {ts : List Turn} (hsched : s.schedule = { rst := false, ev := ev } :: ts)
    (h : step s = .next t) (hs : s.Inv) (hf : s.fifo? f = some x) (c : Channel) :
    ∃ y, t.fifo? f = some y ∧ (c.queue x <+: c.queue y ∨ c.Delivers x y) := by
  rcases step_cases h with ⟨hs', -⟩ | ⟨e, ts', hs', -⟩ | ⟨ts', -, rfl⟩ | ⟨e, ts', -, -, he⟩
  · exact absurd (hsched.symm.trans hs') (by simp)
  · exact absurd (hsched.symm.trans hs') (by simp)
  · exact ⟨x, hf, .inl List.prefix_rfl⟩
  · exact he.fifosChange.queue (hs.setSchedule ts') hf c

end

/-! ## Fair runs -/

section
variable {r : Run} {n : Nat} {c : Channel} {f : FifoName} {x : Fifo}

/-- The invariant holds along a run (R23). -/
theorem Run.inv (h : (r.state n).Inv) : ∀ m ≥ n, (r.state m).Inv :=
  Nat.le_induction h fun m _ hm => step_inv (s := (r.state m).offer (r.turn m)) hm (r.steps m)

/-- Each turn of a run without reset keeps what a channel holds at its front, or delivers from it. -/
theorem Run.queue_step (hr : r.NoReset) (h : (r.state n).Inv) (hf : (r.state n).fifo? f = some x) (c : Channel) :
    ∃ y, (r.state (n + 1)).fifo? f = some y ∧ (c.queue x <+: c.queue y ∨ c.Delivers x y) := by
  have hturn : r.turn n = { rst := false, ev := (r.turn n).ev } := by rw [← hr n]
  exact step_queue (s := (r.state n).offer (r.turn n)) (congrArg (fun u => [u]) hturn) (r.steps n) h hf c

/-- A turn of the channel's synchroniser delivers. -/
theorem Run.delivers_of_taken (h : (c.agent f).Taken (r.state n) (r.turn n)) :
    ∃ x y, (r.state n).fifo? f = some x ∧ (r.state (n + 1)).fifo? f = some y ∧ c.Delivers x y := by
  obtain ⟨hrst, j, x, hev, hx, h1, hj⟩ := Channel.taken_iff.1 h
  have hturn : r.turn n = { rst := false, ev := some (c.event f j) } := by rw [← hrst, ← hev]
  have hst := r.steps n
  rw [step_of_event (s := (r.state n).offer (r.turn n)) (congrArg (fun u => [u]) hturn), Channel.perform_event] at hst
  rw [← Host.Outcome.next.inj hst]
  exact ⟨x, _, hx, State.fifo?_mapFifo_of (s := ((r.state n).offer (r.turn n)).setSchedule []) hx _,
    c.delivers_sync h1 hj⟩

/-- Until a delivery the channel keeps what it holds at its front, so its synchroniser stays enabled, and fairness
brings the delivery. -/
theorem Run.channel_delivers (hfair : r.WeaklyFair) (hr : r.NoReset) (hI : (r.state n).Inv)
    (hf : (r.state n).fifo? f = some x) (hq : c.queue x ≠ []) :
    ∃ m ≥ n, ∃ y z, (r.state m).fifo? f = some y ∧ (r.state (m + 1)).fifo? f = some z ∧
      c.queue x <+: c.queue y ∧ c.Delivers y z := by
  by_contra hno
  have hkept : ∀ m ≥ n, ∃ y, (r.state m).fifo? f = some y ∧ c.queue x <+: c.queue y := by
    refine Nat.le_induction ⟨x, hf, List.prefix_rfl⟩ fun m hm ⟨y, hy, hp⟩ => ?_
    obtain ⟨z, hz, hkeep | hdel⟩ := Run.queue_step hr (Run.inv hI m hm) hy c
    · exact ⟨z, hz, hp.trans hkeep⟩
    · exact absurd ⟨m, hm, y, z, hy, hz, hp, hdel⟩ hno
  have henabled : ∀ m ≥ n, (c.agent f).Enabled (r.state m) := fun m hm => by
    obtain ⟨y, hy, hp⟩ := hkept m hm
    exact Channel.enabled_iff.2 ⟨y, hy, fun hnil => hq (List.prefix_nil.1 (hnil ▸ hp))⟩
  obtain ⟨m, hm, htaken⟩ := hfair (c.agent f) n henabled
  obtain ⟨y, z, hy, hz, hdel⟩ := Run.delivers_of_taken htaken
  obtain ⟨y', hy', hp⟩ := hkept m hm
  obtain rfl : y' = y := Option.some.inj (hy'.symm.trans hy)
  exact hno ⟨m, hm, y', z, hy, hz, hp, hdel⟩

end

/-- Settles O59: the two channels are delivered by the one argument of `Run.channel_delivers`. -/
theorem fairRunDeliversPublished : Obligations.FairRunDeliversPublished := by
  intro r n f x hfair hr hI hf
  refine ⟨fun hq => ?_, fun hq => ?_⟩
  · obtain ⟨m, hm, y, z, hy, hz, hp, j, hj⟩ := Run.channel_delivers (c := .heads) hfair hr hI hf hq
    exact ⟨m, hm, y, z, j, hy, hz, hp, hj⟩
  · obtain ⟨m, hm, y, z, hy, hz, hp, j, hj⟩ := Run.channel_delivers (c := .tails) hfair hr hI hf hq
    exact ⟨m, hm, y, z, j, hy, hz, hp, hj⟩

end Sys2Proof.Machine
end

section
/-! SUPPORT. Decoding and encoding (30_encoding.md R64, R67 to R71): the rows of the opcode map say once what a word that
decodes is, and an ILLEGAL word is answered (R70). -/

namespace Sys2Proof
open Sys2Proof.Machine Sys2Proof.Stated

/-! ## The operand bits of a word -/

/-- The number of low bits that carry operands in a format (R67); the bits above them, below OPC, are reserved. -/
def Format.operandBits : Format → Nat
  | .N => 24
  | .CH => 24
  | .M => 2
  | .Z => 0
  | .R => 8

/-- The operand bits [23:0] that a format's encoder writes from the fields of a word (R67, R69). -/
def Format.operand (f : Format) (w : Word) : Count :=
  match f with
  | .N => fieldN w
  | .CH => fieldA w ++ fieldB w
  | .M => 0#22 ++ (BitVec.ofBool (fieldM1 w) ++ BitVec.ofBool (fieldM0 w))
  | .Z => 0#24
  | .R => 0#16 ++ fieldReg w

/-- OPC is the word above its low 24 bits (R64). -/
theorem fieldOpc_toNat (w : Word) : (fieldOpc w).toNat = w.toNat / 2 ^ 24 := by
  have hw := w.isLt
  rw [fieldOpc, BitVec.extractLsb'_toNat, Nat.shiftRight_eq_div_pow]
  omega

theorem fieldOpc_append_fieldN (w : Word) : fieldOpc w ++ fieldN w = w :=
  (BitVec.extractLsb'_append_extractLsb'_eq_extractLsb' rfl).trans BitVec.extractLsb'_eq_self

/-- The mask of a format keeps all but its operand bits. -/
theorem Format.mask_eq_shiftLeft (f : Format) : f.mask = BitVec.allOnes 32 <<< f.operandBits := by
  cases f <;> rfl

/-- A word matches its opcode under a format's mask exactly where the format's reserved bits are 0 (R67, R70). -/
theorem and_mask_eq_iff (f : Format) (w : Word) :
    w &&& f.mask = fieldOpc w ++ 0#24 ↔ w.toNat % 2 ^ 24 / 2 ^ f.operandBits = 0 := by
  have hw := w.isLt
  rw [Format.mask_eq_shiftLeft, ← BitVec.shiftLeft_ushiftRight, ← BitVec.toNat_inj]
  simp only [BitVec.toNat_shiftLeft, BitVec.toNat_ushiftRight, BitVec.toNat_append, BitVec.toNat_ofNat, Nat.zero_mod,
    Nat.or_zero, fieldOpc_toNat, Nat.shiftRight_eq_div_pow, Nat.shiftLeft_eq]
  cases f <;> simp only [Format.operandBits] <;> omega

/-- With its reserved bits 0, the operand bits above the `k` low ones are 0. -/
theorem extractLsb'_eq_zero_of_reserved {w : Word} {k m : Nat} (hk : k + m = 24) (h : w.toNat % 2 ^ 24 / 2 ^ k = 0) :
    w.extractLsb' k m = 0#m := by
  apply BitVec.eq_of_toNat_eq
  rw [← hk, Nat.pow_add, Nat.mod_mul_right_div_self] at h
  simpa [BitVec.extractLsb'_toNat, Nat.shiftRight_eq_div_pow] using h

theorem ofBool_getLsbD (w : Word) (k : Nat) : BitVec.ofBool (w.getLsbD k) = w.extractLsb' k 1 := by
  ext i hi
  obtain rfl : i = 0 := by omega
  simp

/-- The two mode bits are the low two bits, M1 above M0 (R69). -/
theorem ofBool_fieldM (w : Word) :
    BitVec.ofBool (fieldM1 w) ++ BitVec.ofBool (fieldM0 w) = w.extractLsb' 0 2 := by
  rw [fieldM1, fieldM0, ofBool_getLsbD, ofBool_getLsbD]
  exact BitVec.extractLsb'_append_extractLsb'_eq_extractLsb' rfl

/-- With the reserved bits 0, the encoder writes a word's own operand bits from its fields. -/
theorem Format.operand_eq_fieldN {f : Format} {w : Word} (h : w.toNat % 2 ^ 24 / 2 ^ f.operandBits = 0) :
    f.operand w = fieldN w := by
  cases f with
  | N => rfl
  | CH => exact BitVec.extractLsb'_append_extractLsb'_eq_extractLsb' rfl
  | M =>
    rw [Format.operand, ofBool_fieldM, ← extractLsb'_eq_zero_of_reserved rfl h]
    exact BitVec.extractLsb'_append_extractLsb'_eq_extractLsb' rfl
  | Z => exact (extractLsb'_eq_zero_of_reserved rfl h).symm
  | R =>
    rw [Format.operand, ← extractLsb'_eq_zero_of_reserved rfl h]
    exact BitVec.extractLsb'_append_extractLsb'_eq_extractLsb' rfl

/-! ## The rows of the opcode map -/

theorem rowOf_some {o : BitVec 8} {r : OpRow} (h : rowOf o = some r) : r ∈ opRows ∧ r.opc = o :=
  ⟨List.mem_of_find?_eq_some h, by simpa using List.find?_some h⟩

/-- The word of the command that a row builds is the row's opcode and the operand bits of its format (R67, R68): each
row by its own encoder. -/
theorem encode_build (w : Word) : ∀ r ∈ opRows, encode (r.build w) = r.opc ++ r.format.operand w := by
  simp only [opRows, fifoRows, bridgeRows, List.cons_append, List.nil_append, List.forall_mem_cons]
  simp [encode, encN, encM, encCH, encR, encZ, Format.operand]

/-- What a word that decodes is: the command of its opcode's row, accepted on the port, with the reserved bits 0
(R70). -/
theorem decode_ok {p : PortKind} {w : Word} {i : Instr} (h : decode p w = .ok i) :
    ∃ r ∈ opRows, r.opc = fieldOpc w ∧ r.build w = i ∧ i.acceptedOn p = true ∧
      w.toNat % 2 ^ 24 / 2 ^ r.format.operandBits = 0 := by
  unfold decode at h
  split at h
  · cases h
  rename_i r hr
  split at h
  · rename_i hp
    split at h
    · rename_i hm
      obtain ⟨hmem, hopc⟩ := rowOf_some hr
      cases h
      rw [OpRow.pattern, hopc, and_mask_eq_iff] at hm
      exact ⟨r, hmem, hopc, rfl, hp, hm⟩
    · cases h
  · cases h

/-- Each command's word falls in the command's own row. -/
theorem Instr.ownRow (i : Instr) : Laws.OwnRow.Statement i := by
  cases i with
  | fifoInit n => exact Laws.OwnRow.fifoInit n
  | fifoSetMode m0 m1 => exact Laws.OwnRow.fifoSetMode m0 m1
  | fifoSetNap n => exact Laws.OwnRow.fifoSetNap n
  | fifoGetReg g => exact Laws.OwnRow.fifoGetReg g
  | fifoIsLockFree => exact Laws.OwnRow.fifoIsLockFree
  | fifoPush n => exact Laws.OwnRow.fifoPush n
  | fifoAvailWr => exact Laws.OwnRow.fifoAvailWr
  | fifoAvailRd => exact Laws.OwnRow.fifoAvailRd
  | fifoPop n => exact Laws.OwnRow.fifoPop n
  | brConfigure a b => exact Laws.OwnRow.brConfigure a b
  | brInitialize => exact Laws.OwnRow.brInitialize
  | brShutdown => exact Laws.OwnRow.brShutdown
  | brSetMode m0 m1 => exact Laws.OwnRow.brSetMode m0 m1
  | brSetNap n => exact Laws.OwnRow.brSetNap n
  | brGetReg g => exact Laws.OwnRow.brGetReg g
  | brReadFrames n => exact Laws.OwnRow.brReadFrames n
  | brWriteFrames n => exact Laws.OwnRow.brWriteFrames n
  | brAudioReady n => exact Laws.OwnRow.brAudioReady n
  | brHostShutdown => exact Laws.OwnRow.brHostShutdown

/-! ## Decoding and encoding agree -/

/-- Settles O2: the word of a command is a word of the command's own row. -/
theorem decodeOfEncodedCommand : Obligations.DecodeOfEncodedCommand :=
  fun i _ hp => decode_of_ownRow i.ownRow hp

/-- Settles O3: the row's command is encoded from the row's opcode, which is the word's, and the word's operands. -/
theorem encodeOfDecodedWord : Obligations.EncodeOfDecodedWord := by
  intro p w i h
  obtain ⟨r, hr, hopc, rfl, hp, hres⟩ := decode_ok h
  refine ⟨?_, hp⟩
  calc encode (r.build w)
      = r.opc ++ r.format.operand w := encode_build w r hr
    _ = fieldOpc w ++ fieldN w := by rw [hopc, Format.operand_eq_fieldN hres]
    _ = w := fieldOpc_append_fieldN w

/-! ## Illegal words -/

/-- Every row has one of the nineteen opcodes of R68, and those with reserved bits have the formats M, Z and R. -/
theorem opRows_opcodes : ∀ r ∈ opRows,
    r.opc.toNat ∈ [0x01, 0x02, 0x03, 0x04, 0x05, 0x08, 0x09, 0x0A, 0x0C, 0x20, 0x21, 0x22, 0x23, 0x24, 0x25, 0x28,
      0x29, 0x30, 0x31] ∧
    (r.opc.toNat ∈ [0x02, 0x23] → r.format = .M) ∧
    (r.opc.toNat ∈ [0x05, 0x09, 0x0A, 0x21, 0x22, 0x31] → r.format = .Z) ∧
    (r.opc.toNat ∈ [0x04, 0x25] → r.format = .R) := by
  decide

/-- Settles O4: a word that decodes has the opcode of a row, and the reserved bits of the row's format are 0. -/
theorem reservedWordsAreIllegal : Obligations.ReservedWordsAreIllegal := by
  intro p w h
  cases hd : decode p w with
  | error e => exact ⟨e, rfl⟩
  | ok i =>
    exfalso
    obtain ⟨r, hr, hopc, -, -, hres⟩ := decode_ok hd
    obtain ⟨hrow, hM, hZ, hR⟩ := opRows_opcodes r hr
    rw [hopc, fieldOpc_toNat] at hrow hM hZ hR
    rcases h with hno | ⟨ho, hbits⟩ | ⟨ho, hbits⟩ | ⟨ho, hbits⟩
    · exact hno hrow
    · rw [hM ho] at hres; exact hbits hres
    · rw [hZ ho] at hres; exact hbits (by simpa [Format.operandBits] using hres)
    · rw [hR ho] at hres; exact hbits hres

/-- Settles O1: each word is that of its command (R64, R67). -/
theorem sampleWordsDecode : Obligations.SampleWordsDecode := by
  unfold Obligations.SampleWordsDecode
  decide

/-- Settles O5: acceptance on an IDLE port latches the request and answers a word that does not decode. -/
theorem illegalWordAnswered : Obligations.IllegalWordAnswered := by
  intro s r ts e h hb hd
  have hb' : (s.setSchedule ts).portBusy r.port = some false := hb
  rw [step_of_event h]
  show accept r (s.setSchedule ts) = _
  simp only [accept, hb', hd]
  rfl

end Sys2Proof
end

section
/-! SUPPORT. The commands that configure a standalone FIFO (40_fifo_control.md R81 to R83, R85): each runs on the FIFO of
its port, and either replaces that FIFO and answers OK(0), or only answers. -/

namespace Sys2Proof.Machine
open Sys2Proof.Stated

/-! ## Running on the FIFO of the port -/

section
variable {i : Instr} {n : Count} {m0 m1 : Bool} {s : State} {x : Nat} {u : Standalone}

/-- A well-formed command on standalone FIFO `x` runs on it. -/
theorem accepting_onUnit_run {run : Nat → Standalone → Result} (h : IssuedOn i s x u) :
    accepting i s (onUnit s run) = run x u := by
  obtain ⟨⟨hp, hd⟩, hx, hu⟩ := h
  rw [accepting_run hp hd, onUnit_run hx hu]

/-- What FIFO_INIT does, its checks in the order of R138 (R81). -/
theorem exec_fifoInit (h : IssuedOn (.fifoInit n) s x u) :
    exec (.fifoInit n) s = .next
      (if u.fifo.constructed = true then s.fail .state
      else if n.toNat = 0 ∨ n.toNat > s.params.depthMax.toNat then s.fail .config
      else (s.setUnit x { u with fifo := u.fifo.construct n }).respond (.ok 0)) :=
  accepting_onUnit_run h

theorem exec_fifoSetMode (h : IssuedOn (.fifoSetMode m0 m1) s x u) :
    exec (.fifoSetMode m0 m1) s =
      .next ((s.setUnit x { u with pushBlock := m0, popBlock := m1 }).respond (.ok 0)) :=
  accepting_onUnit_run h

theorem exec_fifoSetNap (h : IssuedOn (.fifoSetNap n) s x u) :
    exec (.fifoSetNap n) s = .next ((s.setUnit x { u with nap := n }).respond (.ok 0)) :=
  accepting_onUnit_run h

theorem exec_fifoIsLockFree (h : IssuedOn .fifoIsLockFree s x u) :
    exec .fifoIsLockFree s = .next (s.respond (.ok Config.lockFree)) :=
  accepting_onUnit_run h

/-- FIFO_ISLOCKFREE without data is well formed on each of the three ports of a standalone FIFO (R66, R68). -/
theorem issuedOn_fifoIsLockFree (hu : s.fifos[x]? = some u)
    (hp : s.req.port = .cfg x ∨ s.req.port = .prd x ∨ s.req.port = .con x) (hd : s.req.data = .words []) :
    IssuedOn .fifoIsLockFree s x u := by
  obtain ⟨hk, hx⟩ : Instr.fifoIsLockFree.acceptedOn s.req.port.kind = true ∧ s.req.port.unitNo = some x := by
    rcases hp with hp | hp | hp <;> rw [hp] <;> exact ⟨rfl, rfl⟩
  exact ⟨⟨hk, by rw [hd]; rfl⟩, hx, hu⟩

/-- Replacing a FIFO and answering the request: the frame, the response, and the FIFO afterwards. -/
theorem setUnit_respond_spec (v : Standalone) (r : Response) (hu : s.fifos[x]? = some u) :
    OnlyUnit s ((s.setUnit x v).respond r) x ∧ Answered s ((s.setUnit x v).respond r) r ∧
      ((s.setUnit x v).respond r).fifos[x]? = some v :=
  ⟨onlyUnit_setUnit_answer s x v s.req.port r, rfl, State.setUnit_get_self hu⟩

end

/-! ## The statements -/

/-- Settles O12: both checks pass, and `Fifo.construct` gives the fresh FIFO. -/
theorem fifoInitConstructs : Obligations.FifoInitConstructs := by
  intro n s x u h hc h1 h2
  have hrun := exec_fifoInit h
  rw [if_neg (by simp [hc]), if_neg (by omega)] at hrun
  exact ⟨_, hrun, setUnit_respond_spec _ _ h.2.2⟩

/-- Settles O13: the check of the state comes before that of N. -/
theorem fifoInitErrors : Obligations.FifoInitErrors := by
  intro n s x u h
  rw [exec_fifoInit h]
  constructor
  · intro hc
    rw [if_pos hc]
    rfl
  · intro hc hn
    rw [if_neg (by simp [hc]), if_pos hn]
    rfl

/-- Settles O14: each command replaces the FIFO by one that differs in the fields it writes. -/
theorem fifoModeAndNapWritten : Obligations.FifoModeAndNapWritten := fun _ _ _ =>
  ⟨fun _ _ h => ⟨_, exec_fifoSetMode h, setUnit_respond_spec _ _ h.2.2⟩,
    fun _ h => ⟨_, exec_fifoSetNap h, setUnit_respond_spec _ _ h.2.2⟩⟩

/-- Settles O16: the command is well formed on each port, and LOCKFREE is 1. -/
theorem lockFreeReportsOne : Obligations.LockFreeReportsOne :=
  fun _ _ _ hu hp hd => exec_fifoIsLockFree (issuedOn_fifoIsLockFree hu hp hd)

end Sys2Proof.Machine
end

section
/-! SUPPORT. A held command whose completion is enabled stays enabled until its own re-check (41_fifo_transfer.md R93,
43_bridge_stream.md R126): only the agent of a port moves samples on the side the port serves, and every other step
leaves that side at least as much to work with. From it, that a weakly fair run releases a worker held in SHUTDOWN. -/

namespace Sys2Proof.Machine
open Sys2Proof.Stated

/-! ## The two sides of a FIFO -/

/-- The producer side, which pushes, and the consumer side, which pops (R16). -/
inductive Side where
  | producer
  | consumer

/-- How many samples the side can move, as it sees the FIFO: its free space (R91), or the samples in it (R92). -/
def Side.room : Side → Fifo → Nat
  | .producer, x => x.prdFree
  | .consumer, x => x.conLevel

/-- The port of the side on standalone FIFO `x`. -/
def Side.port : Side → Nat → Port
  | .producer, x => .prd x
  | .consumer, x => .con x

/-- From `x` to `y` the side loses nothing: the capacity is the same, and it can move at least as much. -/
def Side.Serves (c : Side) (x y : Fifo) : Prop := y.cap = x.cap ∧ c.room x ≤ c.room y

section
variable {c : Side} {x y : Fifo}

theorem Side.Serves.refl (c : Side) (x : Fifo) : c.Serves x x := ⟨rfl, le_rfl⟩

theorem Side.serves_pushMove (x : Fifo) (d : List Word) (k : Nat) : Side.consumer.Serves x (x.pushMove d k) :=
  ⟨by simp, by simp [Side.room, Fifo.conLevel]⟩

theorem Side.serves_popMove (x : Fifo) (k : Nat) : Side.producer.Serves x (x.popMove k) :=
  ⟨by simp, by simp [Side.room, Fifo.prdFree, Fifo.prdLevel]⟩

/-- A delivery of HEAD only shows the producer side more free space (R23 item 2). -/
theorem Side.serves_syncH (c : Side) (h : x.Live) (j : Nat) : c.Serves x (x.syncH j) := by
  refine ⟨by simp, ?_⟩
  cases c with
  | consumer => simp [Side.room, Fifo.conLevel]
  | producer =>
    unfold Fifo.syncH
    split
    · exact le_rfl
    · split
      · rename_i v hv
        have hle := (h.headChain_bounds (List.mem_cons_of_mem _ (List.mem_of_getElem? hv))).2
        exact Nat.sub_le_sub_left hle _
      · exact le_rfl

/-- A delivery of TAIL only shows the consumer side more samples (R23 item 3). -/
theorem Side.serves_syncT (c : Side) (h : x.Live) (j : Nat) : c.Serves x (x.syncT j) := by
  refine ⟨by simp, ?_⟩
  cases c with
  | producer => simp [Side.room, Fifo.prdFree, Fifo.prdLevel]
  | consumer =>
    unfold Fifo.syncT
    split
    · exact le_rfl
    · split
      · rename_i v hv
        exact (h.tailChain_bounds (List.mem_cons_of_mem _ (List.mem_of_getElem? hv))).1
      · exact le_rfl

theorem Side.Serves.pushReady (h : Side.producer.Serves x y) {d : List Word} {n : Nat} {blk : Bool}
    (hr : x.pushReady d n blk = true) : y.pushReady d n blk = true := by
  obtain ⟨hC, hroom⟩ := h
  simp only [Fifo.pushReady, Option.isSome_iff_ne_none, ne_eq, pushCore_none, hC] at hr ⊢
  exact fun ⟨hb, h0, hn, hlt⟩ => hr ⟨hb, h0, hn, hroom.trans_lt hlt⟩

theorem Side.Serves.popReady (h : Side.consumer.Serves x y) {n : Nat} {blk : Bool}
    (hr : x.popReady n blk = true) : y.popReady n blk = true := by
  obtain ⟨hC, hroom⟩ := h
  simp only [Fifo.popReady, Option.isSome_iff_ne_none, ne_eq, popCore_none, hC] at hr ⊢
  exact fun ⟨hb, h0, hn, hlt⟩ => hr ⟨hb, h0, hn, hroom.trans_lt hlt⟩

end

/-! ## The agent of a step -/

/-- The port whose agent takes the step: of a command, of a re-check, or AUD of the egress phase (R54). -/
def Event.port : Event → Option Port
  | .issue r => some r.port
  | .recheck p => some p
  | .egress => some .aud
  | .syncH _ _ => none
  | .syncT _ _ => none

/-- A step that takes place is not of a port that holds a command, but for the re-check of it. -/
theorem EventCase.port_ne {s t : State} {e : Event} {p : Port} (h : EventCase s e t)
    (hp : s.portBusy p = some true) (ha : p ≠ .aud) (he : e ≠ .recheck p) : e.port ≠ some p := by
  have hissue : ∀ r : Request, s.portBusy r.port = some false → r.port ≠ p := by
    rintro r hb rfl
    exact absurd (hb.symm.trans hp) (by simp)
  cases h with
  | illegal r _ hb => exact fun e => hissue r hb (Option.some.inj e)
  | command r _ _ hb => exact fun e => hissue r hb (Option.some.inj e)
  | disabled _ hr =>
    cases e with
    | issue r => exact absurd rfl (hr r)
    | recheck q => exact fun e => he (congrArg Event.recheck (Option.some.inj e))
    | egress => exact fun e => ha (Option.some.inj e).symm
    | syncH => simp [Event.port]
    | syncT => simp [Event.port]
  | egress => exact fun e => ha (Option.some.inj e).symm
  | syncH => simp [Event.port]
  | syncT => simp [Event.port]
  | _ => exact fun e => he (congrArg Event.recheck (Option.some.inj e))

/-! ## A held transfer of a standalone FIFO -/

/-- The side's port holds the same command in `u` and in `v`. -/
def Side.SamePort : Side → Standalone → Standalone → Prop
  | .producer, u, v => v.prd = u.prd
  | .consumer, u, v => v.con = u.con

/-- From `u` to `v` the side's port holds the same command, and the side loses nothing. -/
def Side.Keeps (c : Side) (u v : Standalone) : Prop := c.SamePort u v ∧ c.Serves u.fifo v.fifo

/-- Standalone FIFO `x` of `t` keeps what the side has in `u`. -/
def Side.KeepsUnit (c : Side) (x : Nat) (u : Standalone) (t : State) : Prop :=
  ∃ v, t.fifos[x]? = some v ∧ c.Keeps u v

section
variable {c : Side} {s t : State} {x : Nat} {u : Standalone}

theorem Side.SamePort.of_eq {v : Standalone} (hp : v.prd = u.prd) (hc : v.con = u.con) : c.SamePort u v := by
  cases c with
  | producer => exact hp
  | consumer => exact hc

theorem Side.Keeps.refl (c : Side) (u : Standalone) : c.Keeps u u := ⟨.of_eq rfl rfl, .refl c u.fifo⟩

theorem Side.Keeps.withFifo {f : Fifo} (h : c.Serves u.fifo f) : c.Keeps u { u with fifo := f } :=
  ⟨.of_eq rfl rfl, h⟩

/-- The modes and the poll interval are no part of it (R93). -/
theorem Side.Keeps.withModes (c : Side) (u : Standalone) (m0 m1 : Bool) (n : Count) :
    c.Keeps u { u with pushBlock := m0, popBlock := m1, nap := n } := ⟨.of_eq rfl rfl, .refl c u.fifo⟩

theorem Side.eq_consumer (h : c.port x ≠ .prd x) : c = .consumer := by
  cases c with
  | producer => exact absurd rfl h
  | consumer => rfl

theorem Side.eq_producer (h : c.port x ≠ .con x) : c = .producer := by
  cases c with
  | producer => rfl
  | consumer => exact absurd rfl h

theorem Side.KeepsUnit.of_fifos (hu : s.fifos[x]? = some u) (h : t.fifos = s.fifos) : c.KeepsUnit x u t :=
  ⟨u, by rw [h, hu], .refl c u⟩

/-- Replacing a FIFO: only where it is `x` is there anything to show. -/
theorem Side.KeepsUnit.setUnit {y : Nat} {w v : Standalone} (hu : s.fifos[x]? = some u)
    (hw : s.fifos[y]? = some w) (h : y = x → c.Keeps w v) : c.KeepsUnit x u (s.setUnit y v) := by
  by_cases hxy : y = x
  · subst hxy
    obtain rfl : w = u := Option.some.inj (hw.symm.trans hu)
    exact ⟨v, State.setUnit_get_self hu, h rfl⟩
  · exact ⟨u, by rw [State.setUnit_get_ne s v (Ne.symm hxy), hu], .refl c u⟩

/-- A push serves the consumer side, and touches no port but its own PRD. -/
theorem Side.KeepsUnit.pushStep {y : Nat} {w : Standalone} (n : Count) (d : List Word) (blk : Bool)
    (hu : s.fifos[x]? = some u) (hw : s.fifos[y]? = some w) (hp : c.port x ≠ .prd y) :
    c.KeepsUnit x u (pushStep s y w n d blk) := by
  have hc : y = x → c = .consumer := fun hxy => Side.eq_consumer (hxy ▸ hp)
  rcases pushStep_cases s y w n d blk with ⟨-, h⟩ | ⟨k, -, -, h⟩ <;> rw [h]
  · exact Side.KeepsUnit.setUnit hu hw fun hxy => hc hxy ▸ ⟨rfl, .refl _ _⟩
  · exact Side.KeepsUnit.setUnit hu hw fun hxy => hc hxy ▸ ⟨rfl, Side.serves_pushMove _ _ _⟩

/-- A pop serves the producer side, and touches no port but its own CON. -/
theorem Side.KeepsUnit.popStep {y : Nat} {w : Standalone} (n : Count) (blk : Bool)
    (hu : s.fifos[x]? = some u) (hw : s.fifos[y]? = some w) (hp : c.port x ≠ .con y) :
    c.KeepsUnit x u (popStep s y w n blk) := by
  have hc : y = x → c = .producer := fun hxy => Side.eq_producer (hxy ▸ hp)
  rcases popStep_cases s y w n blk with ⟨-, h⟩ | ⟨k, -, -, h⟩ <;> rw [h]
  · exact Side.KeepsUnit.setUnit hu hw fun hxy => hc hxy ▸ ⟨rfl, .refl _ _⟩
  · exact Side.KeepsUnit.setUnit hu hw fun hxy => hc hxy ▸ ⟨rfl, Side.serves_popMove _ _⟩

/-- A synchroniser step that serves the side wherever it runs. -/
theorem Side.KeepsUnit.mapFifo {f : FifoName} {g : Fifo → Fifo} (hu : s.fifos[x]? = some u)
    (hg : c.Serves u.fifo (g u.fifo)) : c.KeepsUnit x u (s.mapFifo f g) := by
  cases f with
  | unit y =>
    cases hw : s.fifos[y]? with
    | none => rw [State.mapFifo_unit_none hw]; exact .of_fifos hu rfl
    | some w =>
      rw [State.mapFifo_unit hw]
      refine .setUnit hu hw fun hxy => .withFifo ?_
      obtain rfl : w = u := Option.some.inj (hw.symm.trans (hxy ▸ hu))
      exact hg
  | input => exact .of_fifos hu rfl
  | output => exact .of_fifos hu rfl

/-- A command on another port keeps what a side of a constructed FIFO has. -/
theorem ExecCase.keepsUnit {i : Instr} (h : ExecCase s i t) (hu : s.fifos[x]? = some u)
    (hc : u.fifo.constructed = true) (hp : s.req.port ≠ c.port x) : c.KeepsUnit x u t := by
  cases h with
  | fifoInit n y w hq hw hc' =>
    refine Side.KeepsUnit.setUnit hu hw fun hxy => ?_
    obtain rfl : w = u := Option.some.inj (hw.symm.trans (hxy ▸ hu))
    exact absurd hc (by simp [hc'])
  | fifoSetMode m0 m1 y w hq hw =>
    exact Side.KeepsUnit.setUnit hu hw fun _ => .withModes c w m0 m1 w.nap
  | fifoSetNap n y w hq hw =>
    exact Side.KeepsUnit.setUnit hu hw fun _ => .withModes c w _ _ n
  | fifoPush n d y w hq hw => exact .pushStep n d _ hu hw fun e => hp (hq.trans e.symm)
  | fifoPop n y w hq hw => exact .popStep n _ hu hw fun e => hp (hq.trans e.symm)
  | brReadFrames n =>
    obtain ⟨-, hf, -⟩ := readStep_frame s n s.bridge.rdBlock
    exact .of_fifos hu hf
  | brWriteFrames n d =>
    obtain ⟨-, hf, -⟩ := writeStep_frame s n d s.bridge.wrBlock
    exact .of_fifos hu hf
  | _ => exact .of_fifos hu rfl

/-- So does every step that is not of the side's own port. -/
theorem EventCase.keepsUnit {e : Event} (h : EventCase s e t) (hu : s.fifos[x]? = some u) (hl : u.fifo.Live)
    (hp : e.port ≠ some (c.port x)) : c.KeepsUnit x u t := by
  cases h with
  | command r i _ hb hd h => exact h.keepsUnit hu hl.1 fun e => hp (congrArg some e)
  | push y w n d blk hw => exact .pushStep n d blk hu hw fun e => hp (congrArg some e.symm)
  | pop y w n blk hw => exact .popStep n blk hu hw fun e => hp (congrArg some e.symm)
  | readFrames n blk =>
    obtain ⟨-, hf, -⟩ := readStep_frame s n blk
    exact .of_fifos hu hf
  | writeFrames n d blk =>
    obtain ⟨-, hf, -⟩ := writeStep_frame s n d blk
    exact .of_fifos hu hf
  | egress n sin => exact .of_fifos hu (egressOf_fifos s n sin)
  | syncH f j => exact .mapFifo hu (c.serves_syncH hl j)
  | syncT f j => exact .mapFifo hu (c.serves_syncT hl j)
  | _ => exact .of_fifos hu rfl

end

/-! ## A held worker command -/

/-- From `b` to `c` the WRK port holds the same command, of frames of the same width; SHUTDOWN is not left, and neither
of the worker's sides loses anything. -/
structure Bridge.KeepsWorker (b c : Bridge) : Prop where
  wrk : c.wrk = b.wrk
  nin : c.nin = b.nin
  nout : c.nout = b.nout
  shutdown : b.bstate = .shutdown → c.bstate = .shutdown
  input : Side.consumer.Serves b.inF c.inF
  output : Side.producer.Serves b.outF c.outF

section
variable {b c : Bridge} {s t : State}

theorem Bridge.KeepsWorker.refl (b : Bridge) : b.KeepsWorker b :=
  ⟨rfl, rfl, rfl, id, .refl _ _, .refl _ _⟩

theorem Bridge.KeepsWorker.of_eq (h : c = b) : b.KeepsWorker c := h ▸ .refl b

theorem Bridge.KeepsWorker.withInput {f : Fifo} (h : Side.consumer.Serves b.inF f) :
    b.KeepsWorker { b with inF := f } := ⟨rfl, rfl, rfl, id, h, .refl _ _⟩

theorem Bridge.KeepsWorker.withOutput {f : Fifo} (h : Side.producer.Serves b.outF f) :
    b.KeepsWorker { b with outF := f } := ⟨rfl, rfl, rfl, id, .refl _ _, h⟩

/-- A release or a completion that is enabled stays so. -/
theorem Bridge.KeepsWorker.wrkReady (h : b.KeepsWorker c) (hr : b.wrkReady = true) : c.wrkReady = true := by
  unfold Bridge.wrkReady at hr ⊢
  rw [h.wrk, h.nin, h.nout]
  cases hw : b.wrk with
  | idle => simp [hw] at hr
  | waitRead k blk =>
    simp only [hw, Bool.or_eq_true, decide_eq_true_eq] at hr ⊢
    exact hr.imp h.shutdown h.input.popReady
  | waitWrite k d blk =>
    simp only [hw, Bool.or_eq_true, decide_eq_true_eq] at hr ⊢
    exact hr.imp h.shutdown h.output.pushReady

/-- A worker command is held only where IN and OUT are built. -/
theorem Bridge.Inv.built_of_held {p : Params} (h : b.Inv p) (hw : b.wrk ≠ .idle) : b.Built p := by
  rcases h.lifecycle.built_or with hb | ⟨hn, -⟩
  · exact hb
  · exact absurd (h.wrkPort.eq_idle hn) hw

theorem Bridge.KeepsWorker.mapFifo {g : Fifo → Fifo} (f : FifoName)
    (hi : Side.consumer.Serves s.bridge.inF (g s.bridge.inF))
    (ho : Side.producer.Serves s.bridge.outF (g s.bridge.outF)) :
    s.bridge.KeepsWorker (s.mapFifo f g).bridge := by
  cases f with
  | unit x =>
    cases hu : s.fifos[x]? with
    | none => rw [State.mapFifo_unit_none hu]; exact .refl _
    | some u => rw [State.mapFifo_unit hu]; exact .refl _
  | input => exact .withInput hi
  | output => exact .withOutput ho

/-- A command on another port keeps a held worker command: BR_CONFIGURE and BR_INITIALIZE come before any. -/
theorem ExecCase.keepsWorker {i : Instr} (h : ExecCase s i t) (hs : s.Inv) (hw : s.bridge.wrk ≠ .idle)
    (hp : s.req.port ≠ .wrk) : s.bridge.KeepsWorker t.bridge := by
  have hearly : ¬ (s.bridge.bstate = .unconfigured ∨ s.bridge.bstate = .configured) := fun hb =>
    (hs.bridge.lifecycle.notBuilt hb).1.not_built (hs.bridge.built_of_held hw)
  cases h with
  | fifoPush n d x u => exact .of_eq (pushStep_frame s x u n d u.pushBlock).2.1
  | fifoPop n x u => exact .of_eq (popStep_frame s x u n u.popBlock).2.1
  | brConfigure a b hq hb => exact absurd hb hearly
  | brInitialize hq hb => exact absurd (.inr hb) hearly
  | brShutdown => exact ⟨rfl, rfl, rfl, fun _ => rfl, .refl _ _, .refl _ _⟩
  | brHostShutdown => exact ⟨rfl, rfl, rfl, fun _ => rfl, .refl _ _, .refl _ _⟩
  | audioReady n bufs =>
    rw [ingest_eq]
    exact ⟨rfl, rfl, rfl, id, Side.serves_pushMove _ _ _, .refl _ _⟩
  | brReadFrames n hq => exact absurd hq hp
  | brWriteFrames n d hq => exact absurd hq hp
  | _ => exact ⟨rfl, rfl, rfl, id, .refl _ _, .refl _ _⟩

/-- So does every step that is not of the WRK port. -/
theorem EventCase.keepsWorker {e : Event} (h : EventCase s e t) (hs : s.Inv) (hw : s.bridge.wrk ≠ .idle)
    (hp : e.port ≠ some .wrk) : s.bridge.KeepsWorker t.bridge := by
  have hB := hs.bridge.built_of_held hw
  have hi := hs.bridge.input.live hB.inBuilt
  have ho := hs.bridge.output.live hB.outBuilt
  cases h with
  | command r i _ hb hd h => exact h.keepsWorker (hs.latch r) hw fun e => hp (congrArg some e)
  | push x u n d blk => exact .of_eq (pushStep_frame s x u n d blk).2.1
  | pop x u n blk => exact .of_eq (popStep_frame s x u n blk).2.1
  | release => exact absurd rfl hp
  | readFrames => exact absurd rfl hp
  | writeFrames => exact absurd rfl hp
  | egress n sin =>
    rw [egressOf_eq]
    exact ⟨rfl, rfl, rfl, id, .refl _ _, Side.serves_popMove _ _⟩
  | syncH f j => exact .mapFifo f (Side.serves_syncH _ hi j) (Side.serves_syncH _ ho j)
  | syncT f j => exact .mapFifo f (Side.serves_syncT _ hi j) (Side.serves_syncT _ ho j)
  | _ => exact .refl _

end

/-! ## Every step -/

/-- The completion step of the command held on the side's port is enabled (R93). -/
def Side.ready : Side → Standalone → Bool
  | .producer, u => u.prdReady
  | .consumer, u => u.conReady

/-- The side's port holds a command. -/
def Side.Held : Side → Standalone → Prop
  | .producer, u => u.prd ≠ .idle
  | .consumer, u => u.con ≠ .idle

section
variable {c : Side} {s t : State} {e : Event} {x : Nat} {u v : Standalone}

theorem Side.completionReady_iff :
    s.completionReady (c.port x) = true ↔ ∃ u, s.fifos[x]? = some u ∧ c.ready u = true := by
  cases c <;> cases hu : s.fifos[x]? <;> simp [Side.port, Side.ready, State.completionReady, hu]

theorem Side.held_of_ready (h : c.ready u = true) : c.Held u := by
  cases c with
  | producer =>
    intro hidle
    simp [Side.ready, Standalone.prdReady, hidle] at h
  | consumer =>
    intro hidle
    simp [Side.ready, Standalone.conReady, hidle] at h

theorem Bridge.held_of_wrkReady {b : Bridge} (h : b.wrkReady = true) : b.wrk ≠ .idle := by
  intro hidle
  simp [Bridge.wrkReady, hidle] at h

theorem Side.Held.portBusy (h : c.Held u) (hu : s.fifos[x]? = some u) : s.portBusy (c.port x) = some true := by
  cases c with
  | producer => simpa [Side.port, Side.Held, State.portBusy_prd hu] using h
  | consumer => simpa [Side.port, Side.Held, State.portBusy_con hu] using h

/-- A command is held only on a constructed FIFO. -/
theorem Side.Held.live {p : Params} (h : c.Held u) (hI : u.Inv p) : u.fifo.Live := by
  obtain ⟨hf, hprd, hcon⟩ := hI
  refine hf.live ?_
  by_contra hc
  have hc' : u.fifo.constructed = false := by simpa using hc
  cases c with
  | producer => exact h (hprd.eq_idle hc')
  | consumer => exact h (hcon.eq_idle hc')

/-- A completion that is enabled stays so. -/
theorem Side.Keeps.ready (h : c.Keeps u v) (hr : c.ready u = true) : c.ready v = true := by
  have hheld := Side.held_of_ready hr
  obtain ⟨hport, hserves⟩ := h
  cases c with
  | producer =>
    simp only [Side.ready, Standalone.prdReady, show v.prd = u.prd from hport] at hr ⊢
    cases hq : u.prd with
    | idle => exact absurd hq hheld
    | waitPush n d blk => exact hserves.pushReady (by simpa only [hq] using hr)
  | consumer =>
    simp only [Side.ready, Standalone.conReady, show v.con = u.con from hport] at hr ⊢
    cases hq : u.con with
    | idle => exact absurd hq hheld
    | waitPop n blk => exact hserves.popReady (by simpa only [hq] using hr)

/-- An enabled completion on PRD or CON survives every step but the re-check of its port. -/
theorem EventCase.side_completionReady (h : EventCase s e t) (hs : s.Inv)
    (hr : s.completionReady (c.port x) = true) (he : e ≠ .recheck (c.port x)) :
    t.completionReady (c.port x) = true := by
  obtain ⟨u, hu, hready⟩ := Side.completionReady_iff.1 hr
  have hheld := Side.held_of_ready hready
  have hne := h.port_ne (hheld.portBusy hu) (by cases c <;> simp [Side.port]) he
  obtain ⟨v, hv, hk⟩ := h.keepsUnit hu (hheld.live (hs.unit hu)) hne
  exact Side.completionReady_iff.2 ⟨v, hv, hk.ready hready⟩

/-- An enabled completion or release on WRK survives every step but its re-check. -/
theorem EventCase.wrk_completionReady (h : EventCase s e t) (hs : s.Inv)
    (hr : s.completionReady .wrk = true) (he : e ≠ .recheck .wrk) : t.completionReady .wrk = true := by
  have hheld := Bridge.held_of_wrkReady hr
  have hne := h.port_ne (p := .wrk) (by simp [State.portBusy, hheld]) (by simp) he
  exact (h.keepsWorker hs hheld hne).wrkReady hr

theorem EventCase.completionReady {p : Port} (h : EventCase s e t) (hs : s.Inv)
    (hr : s.completionReady p = true) (he : e ≠ .recheck p) : t.completionReady p = true := by
  cases p with
  | prd x => exact h.side_completionReady (c := .producer) hs hr he
  | con x => exact h.side_completionReady (c := .consumer) hs hr he
  | wrk => exact h.wrk_completionReady hs hr he
  | cfg x => cases hr
  | ctl => cases hr
  | aud => cases hr

/-- A turn without reset is no event, or one of an agent. -/
theorem step_turn_cases {ev : Option Event} {ts : List Turn} (hsched : s.schedule = { rst := false, ev := ev } :: ts)
    (h : step s = .next t) : t = s.setSchedule ts ∨ ∃ e, ev = some e ∧ EventCase (s.setSchedule ts) e t := by
  rcases step_cases h with ⟨hs, -⟩ | ⟨e, ts', hs, -⟩ | ⟨ts', hs, ht⟩ | ⟨e, ts', hs, -, he⟩ <;>
    cases hsched.symm.trans hs
  · exact .inl ht
  · exact .inr ⟨e, rfl, he⟩

end

/-- Settles O58: what a side or the worker has to work with is kept by every step of another port. -/
theorem completionStaysEnabled : Obligations.CompletionStaysEnabled := by
  intro s t p ev ts hs hr hsched hne h
  rcases step_turn_cases hsched h with rfl | ⟨e, rfl, he⟩
  · exact hr
  · exact he.completionReady (hs.setSchedule ts) hr fun hrec => hne (congrArg some hrec)

/-! ## Fair runs -/

/-- The worker holds a command in SHUTDOWN. -/
def State.WorkerStranded (s : State) : Prop := s.bridge.bstate = .shutdown ∧ s.bridge.wrk ≠ .idle

/-- From `s` to `t` the worker's command is released with ERR(E_SHUTDOWN). -/
def WorkerReleased (s t : State) : Prop := t.replies = ⟨.wrk, err 7⟩ :: s.replies ∧ t.bridge.wrk = .idle

theorem State.WorkerStranded.enabled {s : State} (h : s.WorkerStranded) : (FairAgent.completion .wrk).Enabled s := by
  obtain ⟨hb, hw⟩ := h
  show s.bridge.wrkReady = true
  unfold Bridge.wrkReady
  cases hq : s.bridge.wrk with
  | idle => exact absurd hq hw
  | waitRead => simp [hb]
  | waitWrite => simp [hb]

section
variable {r : Run} {n : Nat}

/-- A re-check of WRK releases the worker. -/
theorem Run.released_of_recheck (hr : r.NoReset) (h : (r.state n).WorkerStranded)
    (hev : (r.turn n).ev = some (.recheck .wrk)) : WorkerReleased (r.state n) (r.state (n + 1)) := by
  have hturn : r.turn n = { rst := false, ev := some (.recheck .wrk) } := by rw [← hr n, ← hev]
  have hst := r.steps n
  rw [step_of_event (s := (r.state n).offer (r.turn n)) (congrArg (fun u => [u]) hturn)] at hst
  have hrel := recheckWorker_shutdown (s := ((r.state n).offer (r.turn n)).setSchedule []) h.2 h.1
  rw [← Host.Outcome.next.inj (hrel.symm.trans hst)]
  exact ⟨rfl, rfl⟩

/-- Every other turn leaves it held in SHUTDOWN. -/
theorem Run.stranded_succ (hr : r.NoReset) (hI : (r.state n).Inv) (h : (r.state n).WorkerStranded)
    (hev : (r.turn n).ev ≠ some (.recheck .wrk)) : (r.state (n + 1)).WorkerStranded := by
  obtain ⟨hb, hw⟩ := h
  have hturn : r.turn n = { rst := false, ev := (r.turn n).ev } := by rw [← hr n]
  rcases step_turn_cases (s := (r.state n).offer (r.turn n)) (congrArg (fun u => [u]) hturn) (r.steps n) with
    ht | ⟨e, he, hcase⟩
  · rw [ht]
    exact ⟨hb, hw⟩
  · have hbusy : (r.state n).portBusy .wrk = some true := by simp [State.portBusy, hw]
    have hne := hcase.port_ne (p := .wrk) hbusy (by simp) fun hrec => hev (he.trans (congrArg some hrec))
    have hk := hcase.keepsWorker hI hw hne
    exact ⟨hk.shutdown hb, hk.wrk ▸ hw⟩

/-- Until the release the worker stays held in SHUTDOWN, so its release stays enabled, and fairness brings it. -/
theorem Run.worker_released (hfair : r.WeaklyFair) (hr : r.NoReset) (hI : (r.state n).Inv)
    (h : (r.state n).WorkerStranded) : ∃ m ≥ n, WorkerReleased (r.state m) (r.state (m + 1)) := by
  by_contra hno
  have hkept : ∀ m ≥ n, (r.state m).WorkerStranded := by
    refine Nat.le_induction h fun m hm hstr => ?_
    exact Run.stranded_succ hr (Run.inv hI m hm) hstr fun hev => hno ⟨m, hm, Run.released_of_recheck hr hstr hev⟩
  obtain ⟨m, hm, -, hev⟩ := hfair (.completion .wrk) n fun m hm => (hkept m hm).enabled
  exact hno ⟨m, hm, Run.released_of_recheck hr (hkept m hm) hev⟩

end

/-- Settles O60: the release is enabled until it is taken. -/
theorem fairRunReleasesHeldWorker : Obligations.FairRunReleasesHeldWorker :=
  fun _ _ hfair hr hI hb hw => Run.worker_released hfair hr hI ⟨hb, hw⟩

end Sys2Proof.Machine
end

section
/-! SUPPORT. The queries of a standalone FIFO (41_fifo_transfer.md R96 to R98), its blocking and its held transfers (R93
to R95), and what the producer side sees after a short push (R100). -/

namespace Sys2Proof.Machine
open Sys2Proof.Stated

/-! ## The queries -/

section
variable {s : State} {x : Nat} {u : Standalone}

theorem exec_fifoAvailRd (h : IssuedOn .fifoAvailRd s x u) :
    exec .fifoAvailRd s = .next (if u.fifo.constructed = true
      then s.respond (.ok (.ofCount (availRd s.req.port.kind u.fifo))) else s.fail .state) :=
  accepting_onUnit_run h

theorem exec_fifoAvailWr (h : IssuedOn .fifoAvailWr s x u) :
    exec .fifoAvailWr s = .next (if u.fifo.constructed = true
      then s.respond (.ok (.ofCount (availWr s.req.port.kind u.fifo))) else s.fail .state) :=
  accepting_onUnit_run h

/-- A query without data on PRD or CON is well formed (R66, R68). -/
theorem issuedOn_query {i : Instr} (hi : i = .fifoAvailRd ∨ i = .fifoAvailWr) (hu : s.fifos[x]? = some u)
    (hp : s.req.port = .prd x ∨ s.req.port = .con x) (hd : s.req.data = .words []) : IssuedOn i s x u := by
  have hx : s.req.port.unitNo = some x := by rcases hp with hp | hp <;> rw [hp] <;> rfl
  refine ⟨⟨?_, ?_⟩, hx, hu⟩
  · rcases hi with rfl | rfl <;> rcases hp with hp | hp <;> rw [hp] <;> rfl
  · rcases hi with rfl | rfl <;> rw [hd] <;> rfl

/-- FIFO_AVAIL_RD is issued on PRD or CON (R68). -/
theorem issuedOn_availRd_port (h : IssuedOn .fifoAvailRd s x u) : s.req.port = .prd x ∨ s.req.port = .con x := by
  obtain ⟨⟨hp, -⟩, hx, -⟩ := h
  cases hq : s.req.port <;> simp_all [Instr.acceptedOn, Instr.ports, Port.kind, Port.unitNo]

end

/-- On either port FIFO_AVAIL_WR reports what FIFO_AVAIL_RD leaves of C (R96, R97). -/
theorem availWr_eq (p : PortKind) (x : Fifo) : availWr p x = x.cap.toNat - availRd p x := by
  unfold availWr availRd
  split <;> rfl

theorem availRd_prd (x : Fifo) : availRd .prd x = occ x.tail x.hview x.cap.toNat := if_neg (by decide)

theorem availRd_con (x : Fifo) : availRd .con x = occ x.tview x.head x.cap.toNat := if_pos rfl

theorem Fifo.Live.prdLevel_le_cap {x : Fifo} (h : x.Live) : x.prdLevel ≤ x.cap.toNat := by
  obtain ⟨-, -, -, -, -, -, hC, -⟩ := h
  exact hC

theorem Fifo.Live.level_le_cap {x : Fifo} (h : x.Live) : x.level ≤ x.cap.toNat :=
  h.level_le_prdLevel.trans h.prdLevel_le_cap

/-- Neither side sees more than C samples (R23). -/
theorem Fifo.Live.availRd_le_cap {x : Fifo} (h : x.Live) (p : PortKind) : availRd p x ≤ x.cap.toNat := by
  unfold availRd
  split
  · exact h.conLevel_le_level.trans h.level_le_cap
  · exact h.prdLevel_le_cap

/-- Settles O17: each query is well formed on its port, and reports that side's occupancy, or the rest of C. -/
theorem fifoQueriesReportOwnView : Obligations.FifoQueriesReportOwnView := by
  intro s x u n hu hc hd hport
  have hp : s.req.port = .prd x ∨ s.req.port = .con x := hport.imp And.left And.left
  have hn : availRd s.req.port.kind u.fifo = n := by
    rcases hport with ⟨hq, rfl⟩ | ⟨hq, rfl⟩ <;> rw [hq]
    · exact availRd_prd u.fifo
    · exact availRd_con u.fifo
  have hrd := exec_fifoAvailRd (issuedOn_query (.inl rfl) hu hp hd)
  have hwr := exec_fifoAvailWr (issuedOn_query (.inr rfl) hu hp hd)
  rw [if_pos hc, hn] at hrd
  rw [if_pos hc, availWr_eq, hn] at hwr
  exact ⟨hrd, hwr⟩

/-- Settles O18: the second query reports what the first, of the same view and index, leaves of C. -/
theorem availabilitiesSumToCapacity : Obligations.AvailabilitiesSumToCapacity := by
  intro s s' x u u' hi hi' hport hl hc' hcap hprd hcon
  have hsame : availRd s'.req.port.kind u'.fifo = availRd s.req.port.kind u.fifo := by
    rw [hport]
    rcases issuedOn_availRd_port hi with hp | hp
    · obtain ⟨ht, hv⟩ := hprd hp
      rw [hp, Port.kind, availRd_prd, availRd_prd, ht, hv, hcap]
    · obtain ⟨hv, hh⟩ := hcon hp
      rw [hp, Port.kind, availRd_con, availRd_con, hv, hh, hcap]
  have hle := hl.availRd_le_cap s.req.port.kind
  have hrd := exec_fifoAvailRd hi
  have hwr := exec_fifoAvailWr hi'
  rw [if_pos hl.1] at hrd
  rw [if_pos hc', availWr_eq, hsame, hcap] at hwr
  refine ⟨_, _, _, _, hrd, hwr, rfl, rfl, ?_⟩
  rw [Word.ofCount, Word.ofCount, ofNat_toNat_of_le hle, ofNat_toNat_of_le (Nat.sub_le _ _)]
  omega

/-- Settles O19: each of the four checks construction first. -/
theorem transfersNeedConstruction : Obligations.TransfersNeedConstruction := by
  intro i s x u hi h hc
  have hc' : ¬ u.fifo.constructed = true := by simp [hc]
  rcases hi with ⟨n, rfl⟩ | ⟨n, rfl⟩ | rfl | rfl
  · exact (accepting_onUnit_run h).trans (if_neg hc')
  · exact (accepting_onUnit_run h).trans (if_neg hc')
  · rw [exec_fifoAvailWr h, if_neg hc']; rfl
  · rw [exec_fifoAvailRd h, if_neg hc']; rfl

/-! ## What moves where nothing holds -/

/-- How many of `n` samples move at once where the side sees `room` of them: none of a blocking request above C, else as
many as it sees (R91, R92, R101). -/
def movedCount (blk : Bool) (cap n room : Nat) : Nat := if blk = true ∧ cap < n then 0 else min n room

section
variable {x : Fifo} {n : Nat} {blk : Bool}

theorem movedCount_le_room (blk : Bool) (cap n room : Nat) : movedCount blk cap n room ≤ room := by
  unfold movedCount
  split
  · exact Nat.zero_le _
  · exact Nat.min_le_right _ _

theorem movedCount_le (blk : Bool) (cap n room : Nat) : movedCount blk cap n room ≤ n := by
  unfold movedCount
  split
  · exact Nat.zero_le _
  · exact Nat.min_le_left _ _

/-- A blocking request of no samples or of more than C moves none. -/
theorem movedCount_refused {cap room : Nat} (h : n = 0 ∨ cap < n) : movedCount true cap n room = 0 := by
  unfold movedCount
  rcases h with rfl | h
  · simp
  · exact if_pos ⟨rfl, h⟩

/-- The count a transfer answers, from the case lists of push_core and pop_core. -/
theorem eq_movedCount {cap room k : Nat} (hk : k ≤ room) (hnb : blk = false → k = min n room)
    (hb : blk = true → (k = n ∧ n ≤ cap) ∨ (k = 0 ∧ cap < n)) : k = movedCount blk cap n room := by
  unfold movedCount
  cases blk with
  | false => rw [hnb rfl, if_neg (by simp)]
  | true =>
    rcases hb rfl with ⟨rfl, hle⟩ | ⟨rfl, hlt⟩
    · rw [if_neg (by omega), Nat.min_eq_left hk]
    · rw [if_pos ⟨rfl, hlt⟩]

/-- push_core where it does not hold. -/
theorem pushCore_of_not_hold {d : List Word} (h : ¬ (blk = true ∧ 0 < n ∧ n ≤ x.cap.toNat ∧ x.prdFree < n)) :
    x.pushCore d n blk = some (movedCount blk x.cap.toNat n x.prdFree,
      x.pushMove d (movedCount blk x.cap.toNat n x.prdFree)) := by
  cases hcore : x.pushCore d n blk with
  | none => exact absurd (pushCore_none.1 hcore) h
  | some r =>
    obtain ⟨k, f⟩ := r
    obtain ⟨rfl, -, hk, hnb, hb⟩ := pushCore_some hcore
    rw [← eq_movedCount hk hnb hb]

/-- pop_core where it does not hold. -/
theorem popCore_of_not_hold (h : ¬ (blk = true ∧ 0 < n ∧ n ≤ x.cap.toNat ∧ x.conLevel < n)) :
    x.popCore n blk = some (movedCount blk x.cap.toNat n x.conLevel,
      x.peek (movedCount blk x.cap.toNat n x.conLevel), x.popMove (movedCount blk x.cap.toNat n x.conLevel)) := by
  cases hcore : x.popCore n blk with
  | none => exact absurd (popCore_none.1 hcore) h
  | some r =>
    obtain ⟨k, out, f⟩ := r
    obtain ⟨rfl, rfl, -, hk, hnb, hb⟩ := popCore_some hcore
    rw [← eq_movedCount hk hnb hb]

/-- A blocking push of no words, or of more than C, moves none (R91, R101). -/
theorem pushCore_refused (d : List Word) (h : n = 0 ∨ x.cap.toNat < n) : x.pushCore d n true = some (0, x) := by
  rw [pushCore_of_not_hold (by omega), movedCount_refused h, Fifo.pushMove_zero]

/-- So does a blocking pop (R92, R101). -/
theorem popCore_refused (h : n = 0 ∨ x.cap.toNat < n) : x.popCore n true = some (0, [], x) := by
  rw [popCore_of_not_hold (by omega), movedCount_refused h, Fifo.popMove_zero]
  rfl

end

/-! ## Blocking transfers -/

section
variable {s : State} {x : Nat} {u : Standalone} {n : Count} {d : List Word} {blk : Bool}

/-- Replacing a FIFO and giving no response changes nothing else. -/
theorem onlyUnit_setUnit (s : State) (x : Nat) (u : Standalone) : OnlyUnit s (s.setUnit x u) x :=
  ⟨rfl, rfl, rfl, rfl, rfl, by simp, fun _ hy => State.setUnit_get_ne s u hy⟩

theorem pushStep_of_none (h : u.fifo.pushCore d n.toNat blk = none) :
    pushStep s x u n d blk = s.setUnit x { u with prd := .waitPush n d blk } := by
  simp only [pushStep, h]

theorem popStep_of_none (h : u.fifo.popCore n.toNat blk = none) :
    popStep s x u n blk = s.setUnit x { u with con := .waitPop n blk } := by
  simp only [popStep, h]

end

/-- Settles O21: the refusal, the move of all words, and the hold. -/
theorem fifoPushBlockingMovesOrHolds : Obligations.FifoPushBlockingMovesOrHolds := by
  intro n s x u d hi hd hc hs hb hidle
  obtain ⟨hport, hlen⟩ := issuedOn_push_port hi hd
  have hrun := exec_fifoPush hi hd hc hs
  rw [hb] at hrun
  refine ⟨_, hrun, ?_⟩
  split_ifs with h0 hk
  · rw [pushStep_of_some (pushCore_refused d h0) hidle]
    exact ⟨onlyUnit_setUnit_answer _ _ _ _ _, State.setUnit_get_self hi.2.2, hport ▸ rfl⟩
  · have hC : n.toNat ≤ u.fifo.cap.toNat := by omega
    rw [pushStep_of_some (pushCore_all true hC hk) hidle]
    exact ⟨onlyUnit_setUnit_answer _ _ _ _ _, hport ▸ rfl, _, State.setUnit_get_self hi.2.2,
      pushEffect_pushMove _ hlen.ge hC⟩
  · rw [pushStep_of_none (pushCore_none.2 ⟨rfl, by omega, by omega, Nat.lt_of_not_le hk⟩)]
    exact ⟨onlyUnit_setUnit _ _ _, rfl, State.setUnit_get_self hi.2.2⟩

/-- Settles O23: the refusal, the move of all words, and the hold. -/
theorem fifoPopBlockingMovesOrHolds : Obligations.FifoPopBlockingMovesOrHolds := by
  intro n s x u hi hc hs hb hidle
  have hport := issuedOn_pop_port hi
  have hrun := exec_fifoPop hi hc hs
  rw [hb] at hrun
  refine ⟨_, hrun, ?_⟩
  split_ifs with h0 hk
  · rw [popStep_of_some (popCore_refused h0) hidle]
    exact ⟨onlyUnit_setUnit_answer _ _ _ _ _, State.setUnit_get_self hi.2.2, hport ▸ rfl⟩
  · rw [popStep_of_some (popCore_all true (by omega) hk) hidle]
    exact ⟨onlyUnit_setUnit_answer _ _ _ _ _, _, _, hport ▸ rfl, State.setUnit_get_self hi.2.2,
      popEffect_popMove _ _⟩
  · rw [popStep_of_none (popCore_none.2 ⟨rfl, by omega, by omega, Nat.lt_of_not_le hk⟩)]
    exact ⟨onlyUnit_setUnit _ _ _, rfl, State.setUnit_get_self hi.2.2⟩

/-! ## Held transfers -/

section
variable {s : State} {x : Nat} {u : Standalone} {n : Count} {d : List Word} {blk : Bool}

theorem recheckPush_held (hu : s.fifos[x]? = some u) (hw : u.prd = .waitPush n d blk)
    (hs : u.fifo.cap.toNat ≤ s.params.depthMax.toNat) : recheckPush x s = .next (pushStep s x u n d blk) := by
  simp only [recheckPush, hu, hw, inStorage_run hs]

theorem recheckPop_held (hu : s.fifos[x]? = some u) (hw : u.con = .waitPop n blk)
    (hs : u.fifo.cap.toNat ≤ s.params.depthMax.toNat) : recheckPop x s = .next (popStep s x u n blk) := by
  simp only [recheckPop, hu, hw, inStorage_run hs]

/-- A push of words that the producer side sees room for moves all of them and leaves PRD IDLE. -/
theorem pushStep_all (hC : n.toNat ≤ u.fifo.cap.toNat) (hk : n.toNat ≤ u.fifo.prdFree) :
    pushStep s x u n d blk = (s.setUnit x { u with fifo := u.fifo.pushMove d n.toNat, prd := .idle }).answer (.prd x)
      (ok (BitVec.ofNat 32 n.toNat)) := by
  simp only [pushStep, pushCore_all blk hC hk]
  rfl

/-- A pop of words that the consumer side sees moves all of them and leaves CON IDLE. -/
theorem popStep_all (hC : n.toNat ≤ u.fifo.cap.toNat) (hk : n.toNat ≤ u.fifo.conLevel) :
    popStep s x u n blk = (s.setUnit x { u with fifo := u.fifo.popMove n.toNat, con := .idle }).answer (.con x)
      { err := false, value := BitVec.ofNat 32 n.toNat, data := .words (u.fifo.peek n.toNat) } := by
  simp only [popStep, popCore_all blk hC hk]
  rfl

end

/-- Settles O24: the kept push completes, or holds again. -/
theorem heldPushCompletesOrHolds : Obligations.HeldPushCompletesOrHolds := by
  intro s x u n d ts hev hu hw hd h0 hC hs
  have hu' : (s.setSchedule ts).fifos[x]? = some u := hu
  refine ⟨_, (step_of_event hev).trans (recheckPush_held hu' hw hs), ?_⟩
  split_ifs with hk
  · rw [pushStep_all hC hk]
    exact ⟨onlyUnit_setUnit_answer (s.setSchedule ts) _ _ _ _, rfl, _, State.setUnit_get_self hu',
      pushEffect_pushMove _ hd.ge hC⟩
  · exact pushStep_hold hu' hw (pushCore_none.2 ⟨rfl, h0, hC, Nat.lt_of_not_le hk⟩)

/-- Settles O25: the kept pop completes, or holds again. -/
theorem heldPopCompletesOrHolds : Obligations.HeldPopCompletesOrHolds := by
  intro s x u n ts hev hu hw h0 hC hs
  have hu' : (s.setSchedule ts).fifos[x]? = some u := hu
  refine ⟨_, (step_of_event hev).trans (recheckPop_held hu' hw hs), ?_⟩
  split_ifs with hk
  · rw [popStep_all hC hk]
    exact ⟨onlyUnit_setUnit_answer (s.setSchedule ts) _ _ _ _, _, _, rfl, State.setUnit_get_self hu',
      popEffect_popMove _ _⟩
  · exact popStep_hold hu' hw (popCore_none.2 ⟨rfl, h0, hC, Nat.lt_of_not_le hk⟩)

/-! ## A short push -/

/-- After a push of all that the producer side saw free, it sees none free (R100). -/
theorem Fifo.Live.prdFree_pushMove_free {x : Fifo} (h : x.Live) (d : List Word) :
    (x.pushMove d x.prdFree).prdFree = 0 := by
  rcases Nat.eq_zero_or_pos x.prdFree with h0 | h0
  · rw [h0, Fifo.pushMove_zero, h0]
  · have hlevel : (x.pushMove d x.prdFree).prdLevel = x.prdLevel + x.prdFree := by
      rw [Fifo.prdLevel, Fifo.pushMove_tail_of_pos x d h0, Fifo.pushMove_hview, Fifo.pushMove_cap]
      exact h.occ_push le_rfl List.mem_cons_self
    have hC := h.prdLevel_le_cap
    rw [Fifo.prdFree, hlevel, Fifo.pushMove_cap, Fifo.prdFree]
    omega

/-- FIFO_AVAIL_WR on PRD of a constructed FIFO reports what the producer side sees free (R96). -/
theorem exec_fifoAvailWr_prd {s : State} {x : Nat} {u : Standalone} (hu : s.fifos[x]? = some u)
    (hp : s.req.port = .prd x) (hd : s.req.data = .words []) (hc : u.fifo.constructed = true) :
    exec .fifoAvailWr s = .next (s.respond (.ok (.ofCount u.fifo.prdFree))) := by
  rw [exec_fifoAvailWr (issuedOn_query (.inr rfl) hu (.inl hp) hd), if_pos hc, hp]
  rfl

/-- A non-blocking push of more words than the producer side sees free moves as many as it sees, whatever PRD held. -/
theorem pushStep_short {s : State} {x : Nat} {u : Standalone} {n : Count} {d : List Word}
    (h : u.fifo.prdFree < n.toNat) :
    pushStep s x u n d false = (s.setUnit x { u with fifo := u.fifo.pushMove d u.fifo.prdFree, prd := .idle }).answer
      (.prd x) (ok (BitVec.ofNat 32 u.fifo.prdFree)) := by
  simp only [pushStep, pushCore_nonBlocking, Nat.min_eq_right h.le]
  rfl

/-- Settles O29: the push takes all that the producer side sees free, so the query finds none. -/
theorem backpressureLeavesViewFull : Obligations.BackpressureLeavesViewFull := by
  intro n s x u d hi hd hl hs hb hlt
  have hfree : u.fifo.prdFree < n.toNat := hlt
  obtain ⟨hport, hlen⟩ := issuedOn_push_port hi hd
  have hrun := exec_fifoPush hi hd hl.1 hs
  rw [hb, pushStep_short hfree] at hrun
  have hv := State.setUnit_get_self (v := { u with fifo := u.fifo.pushMove d u.fifo.prdFree, prd := .idle }) hi.2.2
  have hc : (u.fifo.pushMove d u.fifo.prdFree).constructed = true := (Fifo.pushMove_constructed _ _ _).trans hl.1
  refine ⟨_, _, _, hrun, hport ▸ rfl, hv, hl.contents_pushMove le_rfl (by omega),
    exec_fifoAvailWr_prd hv hport rfl hc, ?_⟩
  rw [State.respond_replies, hl.prdFree_pushMove_free d]
  exact congrArg (fun p => (⟨p, ok 0⟩ : Reply) :: _) hport

end Sys2Proof.Machine
end

section
/-! SUPPORT. The worker's frame transfers as they are taken up (43_bridge_stream.md R124, R125): what moves at once, and
when they hold. -/

namespace Sys2Proof.Machine
open Sys2Proof.Stated

section
variable {s : State} {n : Count} {d : List Word} {blk : Bool}

/-- A read on an IDLE port that does not hold. -/
theorem readStep_moves {k : Nat} (hw : s.bridge.wrk = .idle)
    (hk : k = movedCount blk s.bridge.inF.cap.toNat (n.toNat * s.bridge.nin.toNat) s.bridge.inF.conLevel)
    (h : ¬ (blk = true ∧ 0 < n.toNat * s.bridge.nin.toNat ∧
      n.toNat * s.bridge.nin.toNat ≤ s.bridge.inF.cap.toNat ∧
      s.bridge.inF.conLevel < n.toNat * s.bridge.nin.toNat)) :
    readStep s n blk = (s.setBridge { s.bridge with inF := s.bridge.inF.popMove k }).answer .wrk
      { err := false, value := BitVec.ofNat 32 (k / s.bridge.nin.toNat)
        data := .words (s.bridge.inF.peek k) } := by
  subst hk
  simp only [readStep, popCore_of_not_hold h, ← hw]
  rfl

/-- A write on an IDLE port that does not hold. -/
theorem writeStep_moves {k : Nat} (hw : s.bridge.wrk = .idle)
    (hk : k = movedCount blk s.bridge.outF.cap.toNat (n.toNat * s.bridge.nout.toNat) s.bridge.outF.prdFree)
    (h : ¬ (blk = true ∧ 0 < n.toNat * s.bridge.nout.toNat ∧
      n.toNat * s.bridge.nout.toNat ≤ s.bridge.outF.cap.toNat ∧
      s.bridge.outF.prdFree < n.toNat * s.bridge.nout.toNat)) :
    writeStep s n d blk = (s.setBridge { s.bridge with outF := s.bridge.outF.pushMove d k }).answer .wrk
      (ok (BitVec.ofNat 32 (k / s.bridge.nout.toNat))) := by
  subst hk
  simp only [writeStep, pushCore_of_not_hold h, ← hw]
  rfl

theorem readStep_of_none (h : s.bridge.inF.popCore (n.toNat * s.bridge.nin.toNat) blk = none) :
    readStep s n blk = s.setBridge { s.bridge with wrk := .waitRead n blk } := by
  simp only [readStep, h]

theorem writeStep_of_none (h : s.bridge.outF.pushCore d (n.toNat * s.bridge.nout.toNat) blk = none) :
    writeStep s n d blk = s.setBridge { s.bridge with wrk := .waitWrite n d blk } := by
  simp only [writeStep, h]

/-- BR_WRITE_FRAMES brings a whole number of frames (R66). -/
theorem issued_writeFrames_length (hi : Issued (.brWriteFrames n) s) (hd : s.req.data = .words d) :
    d.length = n.toNat * s.bridge.nout.toNat := by
  obtain ⟨ws, hws, hl⟩ := words_of_fits hi.2
  obtain rfl : ws = d := DataPhase.words.inj (hws.symm.trans hd)
  exact hl

end

/-- Settles O41: the hold, and else the pop of what moves at once. -/
theorem readFramesMovesOrHolds : Obligations.ReadFramesMovesOrHolds := by
  intro n s hi hb hw hs
  have hport : s.req.port = .wrk := wrk_port hi.1
  refine ⟨_, exec_brReadFrames hi hb hs, ?_⟩
  split
  · rename_i hhold
    rw [readStep_of_none (popCore_none.2 hhold), hhold.1]
    exact ⟨⟨rfl, rfl, rfl, rfl, rfl⟩, rfl, rfl⟩
  · rename_i hhold
    rw [readStep_moves hw rfl hhold]
    exact ⟨⟨rfl, rfl, rfl, rfl, rfl⟩, _, _, _, popEffect_popMove _ _, rfl, rfl, hport ▸ rfl⟩

/-- Settles O42: the hold, and else the push of what moves at once. -/
theorem writeFramesMovesOrHolds : Obligations.WriteFramesMovesOrHolds := by
  intro n s d hi hd hb hw hs
  have hport : s.req.port = .wrk := wrk_port hi.1
  have hlen := issued_writeFrames_length hi hd
  have hrun := exec_brWriteFrames hi hb hs
  rw [hd, DataPhase.wordList] at hrun
  refine ⟨_, hrun, ?_⟩
  split
  · rename_i hhold
    rw [writeStep_of_none (pushCore_none.2 hhold), hhold.1]
    exact ⟨⟨rfl, rfl, rfl, rfl, rfl⟩, rfl, rfl⟩
  · rename_i hhold
    rw [writeStep_moves hw rfl hhold]
    exact ⟨⟨rfl, rfl, rfl, rfl, rfl⟩, _, _, pushEffect_pushMove _ (hlen.ge.trans' (movedCount_le _ _ _ _))
      ((movedCount_le_room _ _ _ _).trans (Fifo.prdFree_le_cap _)), rfl, rfl, hport ▸ rfl⟩

end Sys2Proof.Machine
end


section
/-! SUPPORT. The commands that configure, start and stop the bridge (42_bridge_control.md R106 to R109, R111, R112), and
what every step does to the lifecycle of the bridge (R113). -/

namespace Sys2Proof.Machine
open Sys2Proof.Stated

/-! ## What each command does, its checks in the order of R138 -/

section
variable {s : State} {a b : Channels}

theorem exec_brConfigure (h : Issued (.brConfigure a b) s) :
    exec (.brConfigure a b) s = .next
      (if s.bridge.bstate ≠ .unconfigured ∧ s.bridge.bstate ≠ .configured then s.fail .state
      else if badChannels s.params a ∨ badChannels s.params b then s.fail .config
      else (s.setBridge { s.bridge with nin := a, nout := b, bstate := .configured }).respond (.ok 0)) :=
  accepting_run h.1 h.2

theorem exec_brInitialize (h : Issued .brInitialize s) :
    exec .brInitialize s = .next
      (if s.bridge.bstate ≠ .configured then s.fail .state
      else if s.req.host.present = false then s.fail .hostAbsent
      else if s.req.host.period = 0 ∨ s.req.host.period > s.params.periodMax.toNat then s.fail .hostPeriod
      else (s.setBridge (s.bridge.start s.params s.req.host)).respond (.ok 0)) :=
  accepting_run h.1 h.2

/-- BR_INITIALIZE where every check passes (R107). -/
theorem exec_brInitialize_start (h : Issued .brInitialize s) (hb : s.bridge.bstate = .configured)
    (hh : s.req.host.present = true) (h1 : 1 ≤ s.req.host.period)
    (h2 : s.req.host.period ≤ s.params.periodMax.toNat) :
    exec .brInitialize s = .next ((s.setBridge (s.bridge.start s.params s.req.host)).respond (.ok 0)) := by
  rw [exec_brInitialize h, if_neg (by simp [hb]), if_neg (by simp [hh]), if_neg (by omega)]

theorem exec_brShutdown (h : Issued .brShutdown s) :
    exec .brShutdown s = .next ((s.setBridge { s.bridge with bstate := .shutdown }).respond (.ok 0)) :=
  accepting_run h.1 h.2

theorem exec_brSetMode {m0 m1 : Bool} (h : Issued (.brSetMode m0 m1) s) :
    exec (.brSetMode m0 m1) s =
      .next ((s.setBridge { s.bridge with rdBlock := m0, wrBlock := m1 }).respond (.ok 0)) :=
  accepting_run h.1 h.2

theorem exec_brSetNap {n : Count} (h : Issued (.brSetNap n) s) :
    exec (.brSetNap n) s = .next ((s.setBridge { s.bridge with nap := n }).respond (.ok 0)) :=
  accepting_run h.1 h.2

theorem exec_brHostShutdown (h : Issued .brHostShutdown s) :
    exec .brHostShutdown s = .next
      (if s.bridge.bstate = .running then
        (s.setBridge { s.bridge with bstate := .shutdown, hostSd := true }).respond (.ok 0)
      else if s.bridge.bstate = .shutdown then s.respond (.ok 0)
      else s.fail .state) := by
  refine (accepting_run h.1 h.2).trans ?_
  cases s.bridge.bstate <;> rfl

end

/-! ## The statements about one command -/

/-- Settles O30: neither check of BR_CONFIGURE applies. -/
theorem brConfigureSetsCounts : Obligations.BrConfigureSetsCounts := by
  intro a b s h hb ha ha' hb1 hb2
  rw [exec_brConfigure h, if_neg (by tauto), if_neg (by omega)]
  rfl

/-- Settles O31: the check of BSTATE comes before that of the counts. -/
theorem brConfigureErrors : Obligations.BrConfigureErrors := by
  intro a b s h
  rw [exec_brConfigure h]
  constructor
  · intro hb
    rw [if_pos (by rcases hb with hb | hb <;> simp [hb])]
    rfl
  · intro hb hn
    rw [if_neg (by tauto), if_pos (by omega)]
    rfl

/-- A period that BR_INITIALIZE accepts fits the 24 bits of PERIOD (R30). -/
theorem hostPeriod_toNat {p : Params} {n : Nat} (h : n ≤ p.periodMax.toNat) : (BitVec.ofNat 24 n).toNat = n := by
  rw [BitVec.toNat_ofNat, Nat.mod_eq_of_lt (lt_of_le_of_lt h p.periodMax.isLt)]

/-- Settles O32: every check passes, and `Bridge.start` constructs IN and OUT with capacities that fit 24 bits. -/
theorem brInitializeStartsBridge : Obligations.BrInitializeStartsBridge := by
  intro s h hb hp hi ho hh h1 h2
  exact ⟨_, s.bridge.inF.construct (ringCapacity s.params s.bridge.nin),
    s.bridge.outF.construct (ringCapacity s.params s.bridge.nout), exec_brInitialize_start h hb hh h1 h2,
    ⟨rfl, rfl, rfl, rfl, rfl⟩, rfl, rfl, hostPeriod_toNat h2, rfl, rfl, (ringCapacity_toNat hp hi.2).1,
    (ringCapacity_toNat hp ho.2).1⟩

/-- Settles O33: BSTATE, the host and its period are checked in this order. -/
theorem brInitializeErrors : Obligations.BrInitializeErrors := by
  intro s h
  rw [exec_brInitialize h]
  refine ⟨fun hb => ?_, fun hb hh => ?_, fun hb hh hn => ?_⟩
  · rw [if_pos hb]
    rfl
  · rw [if_neg (not_not.2 hb), if_pos hh]
    rfl
  · rw [if_neg (not_not.2 hb), if_neg (by simp [hh]), if_pos hn]
    rfl

/-- Settles O34: BR_SHUTDOWN checks nothing; BR_HOST_SHUTDOWN tells RUNNING from SHUTDOWN and from the states before. -/
theorem shutdownCommandsStopBridge : Obligations.ShutdownCommandsStopBridge := by
  intro s
  refine ⟨exec_brShutdown, fun h hb => ?_, fun h hb => ?_, fun h hb => ?_⟩ <;>
    rw [exec_brHostShutdown h]
  · rw [if_pos hb]
    rfl
  · rw [if_neg (by simp [hb]), if_pos hb]
    rfl
  · obtain ⟨hr, hs⟩ : s.bridge.bstate ≠ .running ∧ s.bridge.bstate ≠ .shutdown := by
      rcases hb with hb | hb <;> simp [hb]
    rw [if_neg hr, if_neg hs]
    rfl

/-- Settles O35: neither command checks anything. -/
theorem bridgeModeAndNapWritten : Obligations.BridgeModeAndNapWritten := fun _ =>
  ⟨fun _ _ => exec_brSetMode, fun _ => exec_brSetNap⟩

/-! ## The lifecycle of the bridge -/

/-- BSTATE and HOST_SD, the two fields of the lifecycle (R31, R113). -/
def Bridge.lifecycle (b : Bridge) : BState × Bool := (b.bstate, b.hostSd)

@[simp] theorem pushStep_bridge (s : State) (x : Nat) (u : Standalone) (n : Count) (d : List Word) (blk : Bool) :
    (pushStep s x u n d blk).bridge = s.bridge := (pushStep_frame s x u n d blk).2.1

@[simp] theorem popStep_bridge (s : State) (x : Nat) (u : Standalone) (n : Count) (blk : Bool) :
    (popStep s x u n blk).bridge = s.bridge := (popStep_frame s x u n blk).2.1

@[simp] theorem readStep_lifecycle (s : State) (n : Count) (blk : Bool) :
    (readStep s n blk).bridge.lifecycle = s.bridge.lifecycle := by
  unfold readStep
  split <;> rfl

@[simp] theorem writeStep_lifecycle (s : State) (n : Count) (d : List Word) (blk : Bool) :
    (writeStep s n d blk).bridge.lifecycle = s.bridge.lifecycle := by
  unfold writeStep
  split <;> rfl

@[simp] theorem egressOf_lifecycle (s : State) (n : Count) (sin : Bool) :
    (egressOf s n sin).bridge.lifecycle = s.bridge.lifecycle := by
  rw [egressOf_eq]; rfl

@[simp] theorem ingest_lifecycle (b : Bridge) (n : Count) (bufs : List (List Word)) :
    (ingest b n bufs).lifecycle = b.lifecycle := by
  rw [ingest_eq]; rfl

@[simp] theorem State.mapFifo_lifecycle (s : State) (f : FifoName) (g : Fifo → Fifo) :
    (s.mapFifo f g).bridge.lifecycle = s.bridge.lifecycle := by
  cases f with
  | unit x => unfold State.mapFifo; dsimp only; split <;> rfl
  | input => rfl
  | output => rfl

/-- The commands that can move the bridge along its lifecycle (R113). -/
def movesLifecycle : Instr → Bool
  | .brConfigure _ _ | .brInitialize | .brShutdown | .brHostShutdown => true
  | _ => false

/-- Every other command keeps BSTATE and HOST_SD. -/
theorem ExecCase.lifecycle_kept {s t : State} {i : Instr} (h : ExecCase s i t) (hi : movesLifecycle i = false) :
    t.bridge.lifecycle = s.bridge.lifecycle := by
  cases h with
  | brConfigure | brInitialize | brShutdown | brHostShutdown | brHostShutdownAgain => cases hi
  | fifoPush | fifoPop => simp
  | brReadFrames n => exact readStep_lifecycle _ _ _
  | brWriteFrames n d => exact writeStep_lifecycle _ _ _ _
  | audioReady n bufs => exact ingest_lifecycle _ _ _
  | _ => rfl

/-- So does every event but a command. -/
theorem EventCase.lifecycle_kept {s t : State} {e : Event} (h : EventCase s e t) (he : ∀ r, e ≠ .issue r) :
    t.bridge.lifecycle = s.bridge.lifecycle := by
  cases h with
  | illegal r | command r => exact absurd rfl (he r)
  | push | pop => simp
  | readFrames n blk => exact readStep_lifecycle _ _ _
  | writeFrames n d blk => exact writeStep_lifecycle _ _ _ _
  | egress n sin => exact egressOf_lifecycle _ _ _
  | syncH f j => exact State.mapFifo_lifecycle _ _ _
  | syncT f j => exact State.mapFifo_lifecycle _ _ _
  | release | disabled => rfl

section
variable {s t : State} {a b : Channels}

theorem brConfigure_lifecycle (hi : Issued (.brConfigure a b) s) (h : exec (.brConfigure a b) s = .next t) :
    t.bridge.lifecycle =
      if (s.bridge.bstate = .unconfigured ∨ s.bridge.bstate = .configured) ∧ goodChannels s.params a ∧
        goodChannels s.params b then (.configured, s.bridge.hostSd) else s.bridge.lifecycle := by
  split
  · rename_i hg
    obtain ⟨hb, ⟨ha, ha'⟩, hb1, hb2⟩ := hg
    rw [brConfigureSetsCounts a b s hi hb ha ha' hb1 hb2] at h
    cases h
    rfl
  · rename_i hg
    cases exec_cases h with
    | error | read => rfl
    | brConfigure _ _ _ hb ha hb' =>
      exact absurd ⟨hb, goodChannels_of_not_bad ha, goodChannels_of_not_bad hb'⟩ hg

theorem brInitialize_lifecycle (hi : Issued .brInitialize s) (h : exec .brInitialize s = .next t) :
    t.bridge.lifecycle =
      if s.bridge.bstate = .configured ∧ s.req.host.present = true ∧ 1 ≤ s.req.host.period ∧
        s.req.host.period ≤ s.params.periodMax.toNat then (.running, s.bridge.hostSd) else s.bridge.lifecycle := by
  split
  · rename_i hg
    obtain ⟨hb, hh, h1, h2⟩ := hg
    rw [exec_brInitialize_start hi hb hh h1 h2] at h
    cases h
    rfl
  · rename_i hg
    cases exec_cases h with
    | error | read => rfl
    | brInitialize _ hb hh h1 h2 => exact absurd ⟨hb, hh, h1, h2⟩ hg

theorem brShutdown_lifecycle (hi : Issued .brShutdown s) (h : exec .brShutdown s = .next t) :
    t.bridge.lifecycle = (.shutdown, s.bridge.hostSd) := by
  rw [exec_brShutdown hi] at h
  cases h
  rfl

theorem brHostShutdown_lifecycle (hi : Issued .brHostShutdown s) (h : exec .brHostShutdown s = .next t) :
    t.bridge.lifecycle = if s.bridge.bstate = .running then (.shutdown, true) else s.bridge.lifecycle := by
  rw [exec_brHostShutdown hi] at h
  cases h
  split
  · rfl
  · split <;> rfl

end

/-- Settles O37: the four commands that move the bridge along its lifecycle, and all the steps that do not. -/
theorem lifecycleTransitions : Obligations.LifecycleTransitions := by
  refine ⟨fun i s t hi h => ?_, fun e s t he h => Prod.mk.inj ((perform_cases h).lifecycle_kept he)⟩
  cases i with
  | brConfigure a b => exact brConfigure_lifecycle hi h
  | brInitialize => exact brInitialize_lifecycle hi h
  | brShutdown => exact brShutdown_lifecycle hi h
  | brHostShutdown => exact brHostShutdown_lifecycle hi h
  | _ => exact (exec_cases h).lifecycle_kept rfl

end Sys2Proof.Machine
end

section
/-! SUPPORT. Whole frames in IN and OUT (43_bridge_stream.md R127): index arithmetic keeps multiples of a channel count,
so every transfer moves whole frames and every step keeps the alignment. And the errors of a callback and of the worker's
transfers (R121, R124, R125, R138). -/

namespace Sys2Proof.Machine
open Sys2Proof.Stated

/-! ## Multiples in index arithmetic -/

section
variable {m c : Nat} {t h : Idx}

theorem Idx.dvd_ext (hc : m ∣ c) (ht : m ∣ t.idx.toNat) : m ∣ t.ext c := dvd_add (hc.mul_left _) ht

/-- The samples between two whole frames are whole frames. -/
theorem dvd_occ (hc : m ∣ c) (ht : m ∣ t.idx.toNat) (hh : m ∣ h.idx.toNat) : m ∣ occ t h c := by
  have hsub : (m : Int) ∣ (t.ext c : Int) - h.ext c :=
    dvd_sub (Int.natCast_dvd_natCast.2 (Idx.dvd_ext hc ht)) (Int.natCast_dvd_natCast.2 (Idx.dvd_ext hc hh))
  have hmod : (m : Int) ∣ ((t.ext c : Int) - h.ext c) % (2 * (c : Int)) :=
    (EuclideanDomain.dvd_mod_iff (dvd_mul_of_dvd_right (Int.natCast_dvd_natCast.2 hc) 2)).2 hsub
  rw [← Int.natCast_dvd_natCast, occ, Int.toNat_eq_max]
  exact max_rec' _ hmod (dvd_zero _)

/-- A side that asks for whole frames and sees whole frames moves whole frames. -/
theorem dvd_movedCount {n room : Nat} (blk : Bool) (cap : Nat) (hn : m ∣ n) (hr : m ∣ room) :
    m ∣ movedCount blk cap n room := by
  unfold movedCount
  split
  · exact dvd_zero m
  · exact min_rec' _ hn hr

end

/-! ## The indices of a FIFO after an operation -/

section
variable {x : Fifo} {m : Nat}

/-- A push adds the index it publishes. -/
theorem Fifo.mem_indices_pushMove {d : List Word} {k : Nat} {p : Idx} (hp : p ∈ (x.pushMove d k).indices) :
    p ∈ x.indices ∨ p = x.tail.adv k x.cap.toNat := by
  unfold Fifo.pushMove at hp
  split at hp
  · exact .inl hp
  · simp only [Fifo.indices, List.mem_cons, List.mem_append, List.not_mem_nil, or_false] at hp ⊢
    tauto

/-- So does a pop. -/
theorem Fifo.mem_indices_popMove {k : Nat} {p : Idx} (hp : p ∈ (x.popMove k).indices) :
    p ∈ x.indices ∨ p = x.head.adv k x.cap.toNat := by
  unfold Fifo.popMove at hp
  split at hp
  · exact .inl hp
  · simp only [Fifo.indices, List.mem_cons, List.mem_append, List.not_mem_nil, or_false] at hp ⊢
    tauto

/-- A delivery brings no new index: the view takes a value of the channel. -/
theorem Fifo.indices_syncH_subset (x : Fifo) (j : Nat) : (x.syncH j).indices ⊆ x.indices := by
  unfold Fifo.syncH
  split
  · exact List.Subset.refl _
  split
  · rename_i v hv
    have hv := List.mem_of_getElem? hv
    have hdrop : ∀ p ∈ x.qh.drop j, p ∈ x.qh := fun _ => List.mem_of_mem_drop
    intro p hp
    simp only [Fifo.indices, List.mem_cons, List.mem_append] at hp ⊢
    rcases hp with hp | hp | rfl | hp | hp | hp <;> tauto
  · exact List.Subset.refl _

theorem Fifo.indices_syncT_subset (x : Fifo) (j : Nat) : (x.syncT j).indices ⊆ x.indices := by
  unfold Fifo.syncT
  split
  · exact List.Subset.refl _
  split
  · rename_i v hv
    have hv := List.mem_of_getElem? hv
    have hdrop : ∀ p ∈ x.qt.drop j, p ∈ x.qt := fun _ => List.mem_of_mem_drop
    intro p hp
    simp only [Fifo.indices, List.mem_cons, List.mem_append] at hp ⊢
    rcases hp with hp | hp | hp | rfl | hp | hp <;> tauto
  · exact List.Subset.refl _

theorem Fifo.Aligned.syncH (h : x.Aligned m) (j : Nat) : (x.syncH j).Aligned m :=
  fun p hp => h p (x.indices_syncH_subset j hp)

theorem Fifo.Aligned.syncT (h : x.Aligned m) (j : Nat) : (x.syncT j).Aligned m :=
  fun p hp => h p (x.indices_syncT_subset j hp)

/-- A fresh FIFO is aligned to frames of any size. -/
theorem Fifo.aligned_construct (x : Fifo) (c : Count) (m : Nat) : (x.construct c).Aligned m := by
  simp [Fifo.Aligned, Fifo.indices]

/-- So is one that is not constructed. -/
theorem Fifo.Inv.aligned_of_unbuilt {p : Params} (h : x.Inv p) (hc : x.constructed = false) (m : Nat) :
    x.Aligned m := by
  obtain ⟨-, -, hl | ⟨-, -, hh, ht, hv, hw, hqh, hqt⟩⟩ := h
  · exact absurd hl.1 (by simp [hc])
  · simp [Fifo.Aligned, Fifo.indices, hh, ht, hv, hw, hqh, hqt]

/-! ## A FIFO of whole frames -/

theorem Fifo.Aligned.dvd_prdFree (h : x.Aligned m) (hc : m ∣ x.cap.toNat) : m ∣ x.prdFree :=
  Nat.dvd_sub hc (dvd_occ hc (h x.tail (by simp [Fifo.indices])) (h x.hview (by simp [Fifo.indices])))

theorem Fifo.Aligned.dvd_conLevel (h : x.Aligned m) (hc : m ∣ x.cap.toNat) : m ∣ x.conLevel :=
  dvd_occ hc (h x.tview (by simp [Fifo.indices])) (h x.head (by simp [Fifo.indices]))

/-- A constructed FIFO with room for whole frames of `m` words, aligned to them. -/
structure Fifo.Framed (m : Nat) (x : Fifo) : Prop where
  live : x.Live
  cap : m ∣ x.cap.toNat
  aligned : x.Aligned m

/-- An index of a FIFO of whole frames, advanced by whole frames. -/
theorem Fifo.Framed.dvd_adv (h : x.Framed m) {p : Idx} {k : Nat} (hp : p ∈ x.indices) (hk : m ∣ k)
    (hkC : k ≤ x.cap.toNat) : m ∣ (p.adv k x.cap.toNat).idx.toNat := by
  obtain ⟨-, -, hr, -⟩ := h.live
  rw [Idx.adv_idx (hr p hp) hkC x.cap_lt]
  exact (Nat.dvd_mod_iff h.cap).2 (dvd_add (h.aligned p hp) hk)

theorem Fifo.Framed.pushMove (h : x.Framed m) (d : List Word) {k : Nat} (hk : m ∣ k) (hkf : k ≤ x.prdFree) :
    (x.pushMove d k).Aligned m := by
  intro p hp
  rcases Fifo.mem_indices_pushMove hp with hp | rfl
  · exact h.aligned p hp
  · exact h.dvd_adv (by simp [Fifo.indices]) hk (hkf.trans x.prdFree_le_cap)

theorem Fifo.Framed.popMove (h : x.Framed m) {k : Nat} (hk : m ∣ k) (hkl : k ≤ x.conLevel) :
    (x.popMove k).Aligned m := by
  intro p hp
  rcases Fifo.mem_indices_popMove hp with hp | rfl
  · exact h.aligned p hp
  · exact h.dvd_adv (by simp [Fifo.indices]) hk (hkl.trans (h.live.conLevel_le_level.trans h.live.level_le_cap))

/-- A push of whole frames keeps the alignment, whatever part of it moves (R91, R125). -/
theorem Fifo.Framed.pushCore {f : Fifo} {d : List Word} {n k : Nat} {blk : Bool} (h : x.Framed m) (hn : m ∣ n)
    (hp : x.pushCore d n blk = some (k, f)) : f.Aligned m := by
  obtain ⟨rfl, -, hk, hnb, hb⟩ := pushCore_some hp
  have hdvd := dvd_movedCount blk x.cap.toNat hn (h.aligned.dvd_prdFree h.cap)
  exact h.pushMove d (eq_movedCount hk hnb hb ▸ hdvd) hk

/-- So does a pop of whole frames (R92, R124). -/
theorem Fifo.Framed.popCore {f : Fifo} {out : List Word} {n k : Nat} {blk : Bool} (h : x.Framed m) (hn : m ∣ n)
    (hp : x.popCore n blk = some (k, out, f)) : f.Aligned m := by
  obtain ⟨rfl, -, -, hk, hnb, hb⟩ := popCore_some hp
  have hdvd := dvd_movedCount blk x.cap.toNat hn (h.aligned.dvd_conLevel h.cap)
  exact h.popMove (eq_movedCount hk hnb hb ▸ hdvd) hk

end

/-! ## IN and OUT -/

section
variable {p : Params} {b : Bridge}

/-- The capacity of IN is FRAME_CAP frames (R107). -/
theorem Bridge.Built.dvd_inCap (h : b.Built p) : b.nin.toNat ∣ b.inF.cap.toNat := ⟨_, h.inCap.trans (Nat.mul_comm _ _)⟩

theorem Bridge.Built.dvd_outCap (h : b.Built p) : b.nout.toNat ∣ b.outF.cap.toNat :=
  ⟨_, h.outCap.trans (Nat.mul_comm _ _)⟩

theorem Bridge.Inv.inputFramed (h : b.Inv p) (hB : b.Built p) (ha : b.Aligned) : b.inF.Framed b.nin.toNat :=
  ⟨h.input.live hB.inBuilt, hB.dvd_inCap, ha.1⟩

theorem Bridge.Inv.outputFramed (h : b.Inv p) (hB : b.Built p) (ha : b.Aligned) : b.outF.Framed b.nout.toNat :=
  ⟨h.output.live hB.outBuilt, hB.dvd_outCap, ha.2⟩

/-- Before BR_INITIALIZE, IN and OUT are aligned to frames of any size. -/
theorem Bridge.Inv.aligned_of_notBuilt (h : b.Inv p) (hn : b.NotBuilt) (i o : Nat) :
    b.inF.Aligned i ∧ b.outF.Aligned o :=
  ⟨h.input.aligned_of_unbuilt hn.1 i, h.output.aligned_of_unbuilt hn.2 o⟩

theorem Bridge.aligned_start (b : Bridge) (p : Params) (a : HostAnswer) : (b.start p a).Aligned :=
  ⟨Fifo.aligned_construct _ _ _, Fifo.aligned_construct _ _ _⟩

/-- A pending egress phase is of IN and OUT as BR_INITIALIZE left them. -/
theorem Bridge.AudInv.egress {n : Count} {sin : Bool} (h : b.AudInv p)
    (hw : b.aud = .egress n sin) : b.Built p := by
  unfold Bridge.AudInv at h
  rw [hw] at h
  exact h.1

theorem Bridge.Aligned.ingest (ha : b.Aligned) (h : b.Inv p) (hB : b.Built p) (n : Count) (bufs : List (List Word)) :
    (ingest b n bufs).Aligned := by
  have hI := h.inputFramed hB ha
  rw [ingest_eq]
  exact ⟨hI.pushMove _ (min_rec' _ (dvd_mul_left _ _) (ha.1.dvd_prdFree hI.cap)) (Nat.min_le_right _ _), ha.2⟩

end

/-- Settles O56: the capacities are whole frames, and so is what lies between two aligned indices. -/
theorem seenCountsAreWholeFrames : Obligations.SeenCountsAreWholeFrames := fun _ _ hB ⟨hi, ho⟩ =>
  ⟨hi.dvd_prdFree hB.dvd_inCap, hi.dvd_conLevel hB.dvd_inCap, ho.dvd_prdFree hB.dvd_outCap,
    ho.dvd_conLevel hB.dvd_outCap⟩

/-! ## Every step -/

section
variable {s t : State}

theorem readStep_aligned (hs : s.Inv) (ha : s.bridge.Aligned) (hB : s.bridge.Built s.params) (n : Count)
    (blk : Bool) : (readStep s n blk).bridge.Aligned := by
  unfold readStep
  split
  · exact ha
  · exact ⟨(hs.bridge.inputFramed hB ha).popCore (dvd_mul_left _ _) ‹_›, ha.2⟩

theorem writeStep_aligned (hs : s.Inv) (ha : s.bridge.Aligned) (hB : s.bridge.Built s.params) (n : Count)
    (d : List Word) (blk : Bool) : (writeStep s n d blk).bridge.Aligned := by
  unfold writeStep
  split
  · exact ha
  · exact ⟨ha.1, (hs.bridge.outputFramed hB ha).pushCore (dvd_mul_left _ _) ‹_›⟩

theorem egressOf_aligned (hs : s.Inv) (ha : s.bridge.Aligned) (hB : s.bridge.Built s.params) (n : Count)
    (sin : Bool) : (egressOf s n sin).bridge.Aligned := by
  have hO := hs.bridge.outputFramed hB ha
  rw [egressOf_eq]
  exact ⟨ha.1, hO.popMove (min_rec' _ (dvd_mul_left _ _) (ha.2.dvd_conLevel hO.cap)) (Nat.min_le_right _ _)⟩

/-- A step on one FIFO that keeps its alignment. -/
theorem State.mapFifo_aligned {g : Fifo → Fifo} (ha : s.bridge.Aligned)
    (hg : ∀ (x : Fifo) (m : Nat), x.Aligned m → (g x).Aligned m) (f : FifoName) :
    (s.mapFifo f g).bridge.Aligned := by
  cases f with
  | unit x => unfold State.mapFifo; dsimp only; split <;> exact ha
  | input => exact ⟨hg _ _ ha.1, ha.2⟩
  | output => exact ⟨ha.1, hg _ _ ha.2⟩

/-- A command keeps the alignment: the channel counts change only while IN and OUT are not constructed (R106). -/
theorem ExecCase.aligned {i : Instr} (h : ExecCase s i t) (hs : s.Inv) (ha : s.bridge.Aligned) :
    t.bridge.Aligned := by
  have hb := hs.bridge
  cases h with
  | fifoPush | fifoPop => simpa using ha
  | brConfigure _ _ _ hc => exact hb.aligned_of_notBuilt (hb.lifecycle.notBuilt hc).1 _ _
  | brInitialize => exact Bridge.aligned_start _ _ _
  | audioReady n bufs _ hr => exact ha.ingest hb (hb.built hr) n bufs
  | brReadFrames n _ hr => exact readStep_aligned hs ha (hb.built hr) n _
  | brWriteFrames n d _ hr => exact writeStep_aligned hs ha (hb.built hr) n d _
  | _ => exact ha

/-- So does an event of an agent: what is held or pending finds IN and OUT constructed. -/
theorem EventCase.aligned {e : Event} (h : EventCase s e t) (hs : s.Inv) (ha : s.bridge.Aligned) :
    t.bridge.Aligned := by
  have hb := hs.bridge
  cases h with
  | command r _ _ _ _ h => exact h.aligned (hs.latch r) ha
  | push | pop => simpa using ha
  | readFrames n blk hw => exact readStep_aligned hs ha (hb.wrkPort.waitRead hw) n blk
  | writeFrames n d blk hw => exact writeStep_aligned hs ha (hb.wrkPort.waitWrite hw).1 n d blk
  | egress n sin hw => exact egressOf_aligned hs ha (hb.audPort.egress hw) n sin
  | syncH f j => exact State.mapFifo_aligned ha (fun _ _ h => h.syncH j) f
  | syncT f j => exact State.mapFifo_aligned ha (fun _ _ h => h.syncT j) f
  | _ => exact ha

end

/-- Settles O55: every command and every event keeps the alignment, and after reset all indices are 0. -/
theorem frameAlignmentKept : Obligations.FrameAlignmentKept := by
  intro s t hs ha h
  rcases step_cases h with ⟨-, rfl⟩ | ⟨e, ts, -, rfl⟩ | ⟨ts, -, rfl⟩ | ⟨e, ts, -, -, he⟩
  · exact ha
  · exact (Bridge.Inv.reset s.params _).aligned_of_notBuilt ⟨rfl, rfl⟩ _ _
  · exact ha
  · exact he.aligned (hs.setSchedule ts) ha

/-! ## Errors -/

section
variable {s : State} {n : Count}

/-- `chans` buffers of `frames` words, all of them silence (R121). -/
theorem planar_silentBuffers (chans frames : Nat) : Planar (silentBuffers chans frames) chans frames := by
  simp [silentBuffers, Planar]

theorem silentBuffers_zero (chans frames : Nat) : ∀ b ∈ silentBuffers chans frames, ∀ w ∈ b, w = 0 := by
  intro b hb w hw
  rw [List.eq_of_mem_replicate hb] at hw
  exact List.eq_of_mem_replicate hw

/-- BR_AUDIO_READY checks BSTATE first, and then F (R138). -/
theorem exec_brAudioReady_stopped (h : Issued (.brAudioReady n) s) (hb : s.bridge.bstate ≠ .running) :
    exec (.brAudioReady n) s =
      .next (s.respond (.error .state (.planar (silentBuffers s.bridge.nout.toNat n.toNat)))) :=
  (accepting_run h.1 h.2).trans (if_pos hb)

theorem exec_brAudioReady_tooLong (h : Issued (.brAudioReady n) s) (hb : s.bridge.bstate = .running)
    (hn : s.bridge.period.toNat < n.toNat) :
    exec (.brAudioReady n) s = .next ((s.setBridge { s.bridge with faultBit := true }).respond
      (.error .period (.planar (silentBuffers s.bridge.nout.toNat n.toNat)))) :=
  (accepting_run h.1 h.2).trans ((if_neg (not_not.2 hb)).trans (if_pos hn))

theorem workerChecks_shutdown {run : Result} (hb : s.bridge.bstate = .shutdown) :
    workerChecks s run = .next (s.fail .shutdown) := if_pos hb

theorem workerChecks_before {run : Result} (hb : s.bridge.bstate = .unconfigured ∨ s.bridge.bstate = .configured) :
    workerChecks s run = .next (s.fail .state) := by
  rcases hb with hb | hb <;> simp [workerChecks, hb]

/-- A well-formed worker transfer makes its checks first. -/
theorem exec_worker {i : Instr} (hi : i = .brReadFrames n ∨ i = .brWriteFrames n) (h : Issued i s) :
    ∃ run, exec i s = workerChecks s run := by
  rcases hi with rfl | rfl <;> exact ⟨_, accepting_run h.1 h.2⟩

end

/-- Settles O38: the data out is `silentBuffers`, and the check of BSTATE comes before that of F. -/
theorem audioReadyErrors : Obligations.AudioReadyErrors := fun _ _ h =>
  ⟨_, planar_silentBuffers _ _, silentBuffers_zero _ _, exec_brAudioReady_stopped h, exec_brAudioReady_tooLong h⟩

/-- Settles O43: both transfers make the checks of `workerChecks` first. -/
theorem workerTransferErrors : Obligations.WorkerTransferErrors := by
  intro i n s hi h
  obtain ⟨run, hrun⟩ := exec_worker hi h
  rw [hrun]
  exact ⟨workerChecks_shutdown, workerChecks_before⟩

end Sys2Proof.Machine
end

section
/-! SUPPORT. What an error response leaves unchanged (60_exceptions.md R137), and the reset step (60_exceptions.md R139,
70_reset_and_hazards.md R156, R157). -/

namespace Sys2Proof.Machine

/-! ## Commands that give no error -/

/-- The command gives no response, or one with ERR = 0. -/
def NoErrorGiven (s t : State) : Prop := t.replies = s.replies ∨ ∃ p v d, t.replies = ⟨p, .ok v d⟩ :: s.replies

theorem NoErrorGiven.err_eq_false {s t : State} {p : Port} {r : Response} (h : NoErrorGiven s t)
    (ht : t.replies = ⟨p, r⟩ :: s.replies) : r.err = false := by
  rcases h with h | ⟨q, v, d, h⟩ <;> rw [h] at ht
  · exact absurd ht.symm (List.cons_ne_self _ _)
  · cases ht
    rfl

theorem pushStep_noErrorGiven (s : State) (x : Nat) (u : Standalone) (n : Count) (d : List Word) (blk : Bool) :
    NoErrorGiven s (pushStep s x u n d blk) := by
  rcases pushStep_cases s x u n d blk with ⟨-, h⟩ | ⟨k, -, -, h⟩ <;> rw [h]
  · exact .inl rfl
  · exact .inr ⟨_, _, _, rfl⟩

theorem popStep_noErrorGiven (s : State) (x : Nat) (u : Standalone) (n : Count) (blk : Bool) :
    NoErrorGiven s (popStep s x u n blk) := by
  rcases popStep_cases s x u n blk with ⟨-, h⟩ | ⟨k, -, -, h⟩ <;> rw [h]
  · exact .inl rfl
  · exact .inr ⟨_, _, _, rfl⟩

theorem readStep_noErrorGiven (s : State) (n : Count) (blk : Bool) : NoErrorGiven s (readStep s n blk) := by
  unfold readStep
  split
  · exact .inl rfl
  · exact .inr ⟨_, _, _, rfl⟩

theorem writeStep_noErrorGiven (s : State) (n : Count) (d : List Word) (blk : Bool) :
    NoErrorGiven s (writeStep s n d blk) := by
  unfold writeStep
  split
  · exact .inl rfl
  · exact .inr ⟨_, _, _, rfl⟩

/-! ## Error responses -/

/-- E_PERIOD alone has code 6 (R136). -/
theorem error_value_eq_six_iff (e : ErrCode) (d : DataPhase) : (Response.error e d).value = 6 ↔ e = .period := by
  show zext e.code = 6 ↔ _
  cases e <;> decide

/-- A command gives no error, or it gives one other than E_PERIOD and does nothing else, or it gives E_PERIOD and sets
FAULT (R121, R137). -/
theorem ExecCase.error_cases {s t : State} {i : Instr} (h : ExecCase s i t) :
    NoErrorGiven s t ∨ (∃ e d, e ≠ .period ∧ t = s.respond (.error e d)) ∨
      ∃ d, t = (s.setBridge { s.bridge with faultBit := true }).respond (.error .period d) := by
  cases h with
  | error _ e he => exact .inr (.inl ⟨e, _, he, rfl⟩)
  | audioStopped n => exact .inr (.inl ⟨.state, _, by decide, rfl⟩)
  | audioTooLong n => exact .inr (.inr ⟨_, rfl⟩)
  | fifoPush n d x u => exact .inl (pushStep_noErrorGiven s x u n d _)
  | fifoPop n x u => exact .inl (popStep_noErrorGiven s x u n _)
  | brReadFrames n => exact .inl (readStep_noErrorGiven s n _)
  | brWriteFrames n d => exact .inl (writeStep_noErrorGiven s n d _)
  | audioReady n bufs => exact .inl (.inl rfl)
  | _ => exact .inl (.inr ⟨_, _, _, rfl⟩)

/-- Settles O46: of the three kinds of outcome only the two with an error remain, told apart by the code 6. -/
theorem errorsChangeNothing : Obligations.ErrorsChangeNothing := by
  intro i s t p r h hr herr
  rcases (exec_cases h).error_cases with hno | ⟨e, d, he, rfl⟩ | ⟨d, rfl⟩
  · exact absurd (hno.err_eq_false hr) (by simp [herr])
  · obtain ⟨rfl, rfl⟩ : s.req.port = p ∧ .error e d = r := by simpa using hr
    exact ⟨rfl, .inl ⟨mt (error_value_eq_six_iff e d).1 he, rfl⟩⟩
  · obtain ⟨rfl, rfl⟩ : s.req.port = p ∧ .error .period d = r := by simpa using hr
    exact ⟨rfl, .inr ⟨(error_value_eq_six_iff .period d).2 rfl, rfl⟩⟩

/-! ## The reset step -/

/-- Where RST is asserted the reset step is taken, and the turn's event is still to come (R156, log 13). -/
theorem step_of_reset {s : State} {e : Option Event} {ts : List Turn}
    (h : s.schedule = { rst := true, ev := e } :: ts) :
    step s = .next (s.resetBlock ({ rst := false, ev := e } :: ts)) := by
  simp [step, takeTurn, h]

theorem resetOf_allIdle (p : Params) (epoch : Nat) : (State.resetOf p epoch).allIdle := by
  refine ⟨fun u hu => ?_, rfl, rfl⟩
  obtain ⟨q, rfl⟩ := mem_resetOf hu
  exact ⟨rfl, rfl⟩

theorem resetOf_store_cells {p : Params} {epoch : Nat} {u : Standalone} (hu : u ∈ (State.resetOf p epoch).fifos) :
    u.fifo.store.cells = [] := by
  obtain ⟨q, rfl⟩ := mem_resetOf hu
  rfl

/-- Settles O9: the reset step gives the state after reset, with the turns and the responses kept. -/
theorem resetStepTakesPrecedence : Obligations.ResetStepTakesPrecedence := fun s _ _ h =>
  ⟨_, step_of_reset h, rfl, rfl, rfl, s.resetBlock_length _, resetOf_allIdle s.params (s.epoch + 1), rfl, rfl,
    ⟨s.epoch + 1, rfl⟩, fun _ hu => resetOf_store_cells (p := s.params) (epoch := s.epoch + 1) hu, rfl, rfl, rfl⟩

end Sys2Proof.Machine
end

section
/-! SUPPORT. The values reset leaves in every instance and in the bridge (70_reset_and_hazards.md R157). -/

namespace Sys2Proof.Machine

/-- Every instance of the block, IN and OUT among them, is at its reset value. -/
theorem mem_instances_resetOf {p : Params} {e : Nat} {x : Fifo}
    (h : x ∈ (State.resetOf p e).bridge.inF :: (State.resetOf p e).bridge.outF ::
      (State.resetOf p e).fifos.map (·.fifo)) : ∃ q, x = Fifo.reset e q := by
  rcases List.mem_cons.1 h with rfl | h
  · exact ⟨0, rfl⟩
  rcases List.mem_cons.1 h with rfl | h
  · exact ⟨1, rfl⟩
  obtain ⟨u, hu, rfl⟩ := List.mem_map.1 h
  obtain ⟨q, rfl⟩ := mem_resetOf hu
  exact ⟨q, rfl⟩

/-- Settles O8: the standalone instances, all instances, then the bridge; each part is a reset value of the model, whose
fields are read off. -/
theorem resetValues : Obligations.ResetValues := by
  rintro p e _ rfl
  refine ⟨fun u hu => ?standalone, fun x hx => ?everyInstance, ?bridge⟩
  case standalone =>
    obtain ⟨q, rfl⟩ := mem_resetOf hu
    exact ⟨rfl, rfl, rfl, rfl, rfl⟩
  case everyInstance =>
    obtain ⟨q, rfl⟩ := mem_instances_resetOf hx
    exact ⟨rfl, rfl, rfl, rfl, rfl, rfl, rfl, rfl, rfl⟩
  case bridge => exact ⟨rfl, rfl, rfl, rfl, rfl, rfl, rfl, rfl, rfl, rfl, rfl, rfl, rfl, rfl, rfl⟩

end Sys2Proof.Machine
end
